-- ==== Sys2Proof/Word.lean ====
section
/-! DEFINITION. The words the machine computes on (00_scope.md R10, R11): 32-bit words, bytes, and the field widths of
an instruction word that the manual treats as bits. -/

namespace Sys2Proof

/-- A machine word: `XLEN` = 32 bits (00_scope.md R10, R11). -/
abbrev Word := BitVec 32

/-- A byte of Guest Memory (20_memory.md R50). -/
abbrev Byte := BitVec 8

/-- A general register number, the 5-bit field `rd`, `rs1` or `rs2` (30_encoding.md R81). -/
abbrev RegNum := BitVec 5

/-- A CSR number, the 12-bit field `csr`, unsigned (30_encoding.md R81, R85). -/
abbrev CsrNum := BitVec 12

end Sys2Proof
end

