-- ==== Sys2Proof/Syntax.lean ====
section
/-! DEFINITION. The instructions: one constructor for each of the 56 rows of spec/opcode_table.json, in the table's
order. A constructor holds the row's decoded fields (30_encoding.md R81, R86): register numbers, and the immediate as
the ASSEMBLED 32-bit value of R87 to R91 (log 15). FENCE keeps its ignored fields and INV its raw word, so that no bit
of an encoding is lost (log 15). -/

namespace Sys2Proof

inductive Instr where
  -- U and J formats (40_integer.md R121, R122; 41_control.md R161)
  | lui (rd : RegNum) (imm : Word)
  | auipc (rd : RegNum) (imm : Word)
  | jal (rd : RegNum) (imm : Word)
  | jalr (rd rs1 : RegNum) (imm : Word)
  -- branches, B format (41_control.md R163 to R168)
  | beq (rs1 rs2 : RegNum) (imm : Word)
  | bne (rs1 rs2 : RegNum) (imm : Word)
  | blt (rs1 rs2 : RegNum) (imm : Word)
  | bge (rs1 rs2 : RegNum) (imm : Word)
  | bltu (rs1 rs2 : RegNum) (imm : Word)
  | bgeu (rs1 rs2 : RegNum) (imm : Word)
  -- loads, I format (42_loadstore.md R181 to R185)
  | lb (rd rs1 : RegNum) (imm : Word)
  | lh (rd rs1 : RegNum) (imm : Word)
  | lw (rd rs1 : RegNum) (imm : Word)
  | lbu (rd rs1 : RegNum) (imm : Word)
  | lhu (rd rs1 : RegNum) (imm : Word)
  -- stores, S format: `rs1` the base, `rs2` the data (42_loadstore.md R186 to R188)
  | sb (rs1 rs2 : RegNum) (imm : Word)
  | sh (rs1 rs2 : RegNum) (imm : Word)
  | sw (rs1 rs2 : RegNum) (imm : Word)
  -- register-immediate, I format (40_integer.md R123 to R131)
  | addi (rd rs1 : RegNum) (imm : Word)
  | slti (rd rs1 : RegNum) (imm : Word)
  | sltiu (rd rs1 : RegNum) (imm : Word)
  | xori (rd rs1 : RegNum) (imm : Word)
  | ori (rd rs1 : RegNum) (imm : Word)
  | andi (rd rs1 : RegNum) (imm : Word)
  | slli (rd rs1 : RegNum) (shamt : BitVec 5)
  | srli (rd rs1 : RegNum) (shamt : BitVec 5)
  | srai (rd rs1 : RegNum) (shamt : BitVec 5)
  -- register-register, R format (40_integer.md R132 to R141)
  | add (rd rs1 rs2 : RegNum)
  | sub (rd rs1 rs2 : RegNum)
  | sll (rd rs1 rs2 : RegNum)
  | slt (rd rs1 rs2 : RegNum)
  | sltu (rd rs1 rs2 : RegNum)
  | xor (rd rs1 rs2 : RegNum)
  | srl (rd rs1 rs2 : RegNum)
  | sra (rd rs1 rs2 : RegNum)
  | or (rd rs1 rs2 : RegNum)
  | and (rd rs1 rs2 : RegNum)
  -- multiply and divide, R format (43_muldiv.md R201 to R208)
  | mul (rd rs1 rs2 : RegNum)
  | mulh (rd rs1 rs2 : RegNum)
  | mulhsu (rd rs1 rs2 : RegNum)
  | mulhu (rd rs1 rs2 : RegNum)
  | div (rd rs1 rs2 : RegNum)
  | divu (rd rs1 rs2 : RegNum)
  | rem (rd rs1 rs2 : RegNum)
  | remu (rd rs1 rs2 : RegNum)
  -- fence, system and CSR, I format (44_system.md R221 to R239)
  | fence (fm pred succ : BitVec 4) (rs1 rd : RegNum)
  | ecall
  | ebreak
  | mret
  | csrrw (rd : RegNum) (csr : CsrNum) (rs1 : RegNum)
  | csrrs (rd : RegNum) (csr : CsrNum) (rs1 : RegNum)
  | csrrc (rd : RegNum) (csr : CsrNum) (rs1 : RegNum)
  | csrrwi (rd : RegNum) (csr : CsrNum) (uimm : BitVec 5)
  | csrrsi (rd : RegNum) (csr : CsrNum) (uimm : BitVec 5)
  | csrrci (rd : RegNum) (csr : CsrNum) (uimm : BitVec 5)
  -- the universal wildcard, last row of the table (44_system.md R241)
  | inv (raw : Word)
  deriving DecidableEq, Repr

end Sys2Proof
end

