-- ==== Sys2Proof/Decode.lean ====
section
/-! DEFINITION. Decoding (30_encoding.md R80 to R100): the fields and immediates of an instruction word, the decode
table in the order of spec/opcode_table.json, first match over it, and the same on bytes; and AFTER it the encoder,
written from the same layouts (R82). -/

namespace Sys2Proof

/-! ### Fields of a word (R81, R84, R85, and FENCE's in 44_system.md R221) -/

def fieldRd (w : Word) : RegNum := w.extractLsb' 7 5
def fieldRs1 (w : Word) : RegNum := w.extractLsb' 15 5
def fieldRs2 (w : Word) : RegNum := w.extractLsb' 20 5
def fieldShamt (w : Word) : BitVec 5 := w.extractLsb' 20 5
def fieldCsr (w : Word) : CsrNum := w.extractLsb' 20 12
def fieldUimm (w : Word) : BitVec 5 := w.extractLsb' 15 5
def fieldFm (w : Word) : BitVec 4 := w.extractLsb' 28 4
def fieldPred (w : Word) : BitVec 4 := w.extractLsb' 24 4
def fieldSucc (w : Word) : BitVec 4 := w.extractLsb' 20 4

/-! ### Immediates (R87 to R91) -/

/-- `sext_12(inst[31:20])` (R87). -/
def immI (w : Word) : Word := (w.extractLsb' 20 12).signExtend 32

/-- The 12 bits `inst[31:25], inst[11:7]` of an S immediate (R88). -/
def bitsS (w : Word) : BitVec 12 := w.extractLsb' 25 7 ++ w.extractLsb' 7 5

/-- `sext_12` of inst[31:25], inst[11:7] (R88). -/
def immS (w : Word) : Word := (bitsS w).signExtend 32

/-- The 13 bits inst[31], inst[7], inst[30:25], inst[11:8], 0 of a B immediate (R89). -/
def bitsB (w : Word) : BitVec 13 :=
  w.extractLsb' 31 1 ++ w.extractLsb' 7 1 ++ w.extractLsb' 25 6 ++ w.extractLsb' 8 4 ++ 0#1

/-- `sext_13` of those bits (R89). -/
def immB (w : Word) : Word := (bitsB w).signExtend 32

/-- inst[31:12] over twelve zero bits (R90). -/
def immU (w : Word) : Word := w.extractLsb' 12 20 ++ 0#12

/-- The 21 bits inst[31], inst[19:12], inst[20], inst[30:21], 0 of a J immediate (R91). -/
def bitsJ (w : Word) : BitVec 21 :=
  w.extractLsb' 31 1 ++ w.extractLsb' 12 8 ++ w.extractLsb' 20 1 ++ w.extractLsb' 21 10 ++ 0#1

/-- `sext_21` of those bits (R91). -/
def immJ (w : Word) : Word := (bitsJ w).signExtend 32

/-! ### Formats (R82, R83) -/

/-- The six operand formats, and INV's row, to which the table gives none. -/
inductive Format where
  | r
  | i
  | s
  | b
  | u
  | j
  | none
  deriving DecidableEq, Repr

/-- "Every instruction has exactly one format, listed per row in opcode_table.json" (R83). -/
def formatOf : Instr → Format
  | .lui _ _ | .auipc _ _ => .u
  | .jal _ _ => .j
  | .jalr _ _ _ => .i
  | .beq _ _ _ | .bne _ _ _ | .blt _ _ _ | .bge _ _ _ | .bltu _ _ _ | .bgeu _ _ _ => .b
  | .lb _ _ _ | .lh _ _ _ | .lw _ _ _ | .lbu _ _ _ | .lhu _ _ _ => .i
  | .sb _ _ _ | .sh _ _ _ | .sw _ _ _ => .s
  | .addi _ _ _ | .slti _ _ _ | .sltiu _ _ _ | .xori _ _ _ | .ori _ _ _ | .andi _ _ _ => .i
  | .slli _ _ _ | .srli _ _ _ | .srai _ _ _ => .i
  | .add _ _ _ | .sub _ _ _ | .sll _ _ _ | .slt _ _ _ | .sltu _ _ _ | .xor _ _ _ | .srl _ _ _ | .sra _ _ _
  | .or _ _ _ | .and _ _ _ => .r
  | .mul _ _ _ | .mulh _ _ _ | .mulhsu _ _ _ | .mulhu _ _ _ | .div _ _ _ | .divu _ _ _ | .rem _ _ _
  | .remu _ _ _ => .r
  | .fence _ _ _ _ _ | .ecall | .ebreak | .mret => .i
  | .csrrw _ _ _ | .csrrs _ _ _ | .csrrc _ _ _ | .csrrwi _ _ _ | .csrrsi _ _ _ | .csrrci _ _ _ => .i
  | .inv _ => .none

/-! ### The decode table (R93) -/

/-- One row: a word w matches iff `w & mask = pattern` (00_scope.md R17; the table's "match" is `pattern`). `optional`
rows decode only with `CSR_EXT_OPS` (R99). -/
structure Row where
  mnemonic : String
  mask : Word
  pattern : Word
  optional : Bool
  build : Word → Instr

/-- Rows of spec/opcode_table.json: upper-immediate instructions and jumps. -/
def rowsUJ : List Row :=
  [⟨"LUI", 0x0000007F#32, 0x00000037#32, false, fun w => .lui (fieldRd w) (immU w)⟩,
   ⟨"AUIPC", 0x0000007F#32, 0x00000017#32, false, fun w => .auipc (fieldRd w) (immU w)⟩,
   ⟨"JAL", 0x0000007F#32, 0x0000006F#32, false, fun w => .jal (fieldRd w) (immJ w)⟩,
   ⟨"JALR", 0x0000707F#32, 0x00000067#32, false, fun w => .jalr (fieldRd w) (fieldRs1 w) (immI w)⟩]

/-- Rows of spec/opcode_table.json: branches. -/
def rowsBranch : List Row :=
  [⟨"BEQ", 0x0000707F#32, 0x00000063#32, false, fun w => .beq (fieldRs1 w) (fieldRs2 w) (immB w)⟩,
   ⟨"BNE", 0x0000707F#32, 0x00001063#32, false, fun w => .bne (fieldRs1 w) (fieldRs2 w) (immB w)⟩,
   ⟨"BLT", 0x0000707F#32, 0x00004063#32, false, fun w => .blt (fieldRs1 w) (fieldRs2 w) (immB w)⟩,
   ⟨"BGE", 0x0000707F#32, 0x00005063#32, false, fun w => .bge (fieldRs1 w) (fieldRs2 w) (immB w)⟩,
   ⟨"BLTU", 0x0000707F#32, 0x00006063#32, false, fun w => .bltu (fieldRs1 w) (fieldRs2 w) (immB w)⟩,
   ⟨"BGEU", 0x0000707F#32, 0x00007063#32, false, fun w => .bgeu (fieldRs1 w) (fieldRs2 w) (immB w)⟩]

/-- Rows of spec/opcode_table.json: loads. -/
def rowsLoad : List Row :=
  [⟨"LB", 0x0000707F#32, 0x00000003#32, false, fun w => .lb (fieldRd w) (fieldRs1 w) (immI w)⟩,
   ⟨"LH", 0x0000707F#32, 0x00001003#32, false, fun w => .lh (fieldRd w) (fieldRs1 w) (immI w)⟩,
   ⟨"LW", 0x0000707F#32, 0x00002003#32, false, fun w => .lw (fieldRd w) (fieldRs1 w) (immI w)⟩,
   ⟨"LBU", 0x0000707F#32, 0x00004003#32, false, fun w => .lbu (fieldRd w) (fieldRs1 w) (immI w)⟩,
   ⟨"LHU", 0x0000707F#32, 0x00005003#32, false, fun w => .lhu (fieldRd w) (fieldRs1 w) (immI w)⟩]

/-- Rows of spec/opcode_table.json: stores. -/
def rowsStore : List Row :=
  [⟨"SB", 0x0000707F#32, 0x00000023#32, false, fun w => .sb (fieldRs1 w) (fieldRs2 w) (immS w)⟩,
   ⟨"SH", 0x0000707F#32, 0x00001023#32, false, fun w => .sh (fieldRs1 w) (fieldRs2 w) (immS w)⟩,
   ⟨"SW", 0x0000707F#32, 0x00002023#32, false, fun w => .sw (fieldRs1 w) (fieldRs2 w) (immS w)⟩]

/-- Rows of spec/opcode_table.json: register-immediate. -/
def rowsOpImm : List Row :=
  [⟨"ADDI", 0x0000707F#32, 0x00000013#32, false, fun w => .addi (fieldRd w) (fieldRs1 w) (immI w)⟩,
   ⟨"SLTI", 0x0000707F#32, 0x00002013#32, false, fun w => .slti (fieldRd w) (fieldRs1 w) (immI w)⟩,
   ⟨"SLTIU", 0x0000707F#32, 0x00003013#32, false, fun w => .sltiu (fieldRd w) (fieldRs1 w) (immI w)⟩,
   ⟨"XORI", 0x0000707F#32, 0x00004013#32, false, fun w => .xori (fieldRd w) (fieldRs1 w) (immI w)⟩,
   ⟨"ORI", 0x0000707F#32, 0x00006013#32, false, fun w => .ori (fieldRd w) (fieldRs1 w) (immI w)⟩,
   ⟨"ANDI", 0x0000707F#32, 0x00007013#32, false, fun w => .andi (fieldRd w) (fieldRs1 w) (immI w)⟩,
   ⟨"SLLI", 0xFE00707F#32, 0x00001013#32, false, fun w => .slli (fieldRd w) (fieldRs1 w) (fieldShamt w)⟩,
   ⟨"SRLI", 0xFE00707F#32, 0x00005013#32, false, fun w => .srli (fieldRd w) (fieldRs1 w) (fieldShamt w)⟩,
   ⟨"SRAI", 0xFE00707F#32, 0x40005013#32, false, fun w => .srai (fieldRd w) (fieldRs1 w) (fieldShamt w)⟩]

/-- Rows of spec/opcode_table.json: register-register. -/
def rowsOp : List Row :=
  [⟨"ADD", 0xFE00707F#32, 0x00000033#32, false, fun w => .add (fieldRd w) (fieldRs1 w) (fieldRs2 w)⟩,
   ⟨"SUB", 0xFE00707F#32, 0x40000033#32, false, fun w => .sub (fieldRd w) (fieldRs1 w) (fieldRs2 w)⟩,
   ⟨"SLL", 0xFE00707F#32, 0x00001033#32, false, fun w => .sll (fieldRd w) (fieldRs1 w) (fieldRs2 w)⟩,
   ⟨"SLT", 0xFE00707F#32, 0x00002033#32, false, fun w => .slt (fieldRd w) (fieldRs1 w) (fieldRs2 w)⟩,
   ⟨"SLTU", 0xFE00707F#32, 0x00003033#32, false, fun w => .sltu (fieldRd w) (fieldRs1 w) (fieldRs2 w)⟩,
   ⟨"XOR", 0xFE00707F#32, 0x00004033#32, false, fun w => .xor (fieldRd w) (fieldRs1 w) (fieldRs2 w)⟩,
   ⟨"SRL", 0xFE00707F#32, 0x00005033#32, false, fun w => .srl (fieldRd w) (fieldRs1 w) (fieldRs2 w)⟩,
   ⟨"SRA", 0xFE00707F#32, 0x40005033#32, false, fun w => .sra (fieldRd w) (fieldRs1 w) (fieldRs2 w)⟩,
   ⟨"OR", 0xFE00707F#32, 0x00006033#32, false, fun w => .or (fieldRd w) (fieldRs1 w) (fieldRs2 w)⟩,
   ⟨"AND", 0xFE00707F#32, 0x00007033#32, false, fun w => .and (fieldRd w) (fieldRs1 w) (fieldRs2 w)⟩]

/-- Rows of spec/opcode_table.json: multiply and divide. -/
def rowsMulDiv : List Row :=
  [⟨"MUL", 0xFE00707F#32, 0x02000033#32, false, fun w => .mul (fieldRd w) (fieldRs1 w) (fieldRs2 w)⟩,
   ⟨"MULH", 0xFE00707F#32, 0x02001033#32, false, fun w => .mulh (fieldRd w) (fieldRs1 w) (fieldRs2 w)⟩,
   ⟨"MULHSU", 0xFE00707F#32, 0x02002033#32, false, fun w => .mulhsu (fieldRd w) (fieldRs1 w) (fieldRs2 w)⟩,
   ⟨"MULHU", 0xFE00707F#32, 0x02003033#32, false, fun w => .mulhu (fieldRd w) (fieldRs1 w) (fieldRs2 w)⟩,
   ⟨"DIV", 0xFE00707F#32, 0x02004033#32, false, fun w => .div (fieldRd w) (fieldRs1 w) (fieldRs2 w)⟩,
   ⟨"DIVU", 0xFE00707F#32, 0x02005033#32, false, fun w => .divu (fieldRd w) (fieldRs1 w) (fieldRs2 w)⟩,
   ⟨"REM", 0xFE00707F#32, 0x02006033#32, false, fun w => .rem (fieldRd w) (fieldRs1 w) (fieldRs2 w)⟩,
   ⟨"REMU", 0xFE00707F#32, 0x02007033#32, false, fun w => .remu (fieldRd w) (fieldRs1 w) (fieldRs2 w)⟩]

/-- Rows of spec/opcode_table.json: fence and operand-less system words. -/
def rowsSystem : List Row :=
  [⟨"FENCE", 0x0000707F#32, 0x0000000F#32, false, fun w => .fence (fieldFm w) (fieldPred w) (fieldSucc w) (fieldRs1 w) (fieldRd w)⟩,
   ⟨"ECALL", 0xFFFFFFFF#32, 0x00000073#32, false, fun _ => .ecall⟩,
   ⟨"EBREAK", 0xFFFFFFFF#32, 0x00100073#32, false, fun _ => .ebreak⟩,
   ⟨"MRET", 0xFFFFFFFF#32, 0x30200073#32, false, fun _ => .mret⟩]

/-- Rows of spec/opcode_table.json: CSR instructions. -/
def rowsCsr : List Row :=
  [⟨"CSRRW", 0x0000707F#32, 0x00001073#32, false, fun w => .csrrw (fieldRd w) (fieldCsr w) (fieldRs1 w)⟩,
   ⟨"CSRRS", 0x0000707F#32, 0x00002073#32, false, fun w => .csrrs (fieldRd w) (fieldCsr w) (fieldRs1 w)⟩,
   ⟨"CSRRC", 0x0000707F#32, 0x00003073#32, true, fun w => .csrrc (fieldRd w) (fieldCsr w) (fieldRs1 w)⟩,
   ⟨"CSRRWI", 0x0000707F#32, 0x00005073#32, true, fun w => .csrrwi (fieldRd w) (fieldCsr w) (fieldUimm w)⟩,
   ⟨"CSRRSI", 0x0000707F#32, 0x00006073#32, true, fun w => .csrrsi (fieldRd w) (fieldCsr w) (fieldUimm w)⟩,
   ⟨"CSRRCI", 0x0000707F#32, 0x00007073#32, true, fun w => .csrrci (fieldRd w) (fieldCsr w) (fieldUimm w)⟩]

/-- Rows of spec/opcode_table.json: the universal wildcard, last. -/
def rowsInv : List Row :=
  [⟨"INV", 0x00000000#32, 0x00000000#32, false, fun w => .inv w⟩]

/-- The table of spec/opcode_table.json in its row order, INV last (R93). -/
def opcodeTable : List Row :=
  rowsUJ ++ rowsBranch ++ rowsLoad ++ rowsStore ++ rowsOpImm ++ rowsOp ++ rowsMulDiv ++ rowsSystem ++ rowsCsr ++ rowsInv

/-- Does the row take the word, with `ext` the parameter `CSR_EXT_OPS`? -/
def Row.takes (ext : Bool) (r : Row) (w : Word) : Bool := (!r.optional || ext) && w &&& r.mask == r.pattern

/-- "patterns are tested in table order and the first match wins" (R93); a word that no row takes is INV (R96). -/
def firstMatch (ext : Bool) (w : Word) : List Row → Instr
  | [] => .inv w
  | r :: rows => if r.takes ext w then r.build w else firstMatch ext w rows

/-- The instruction a word spells, with `ext` the parameter `CSR_EXT_OPS`; total on every word (R93, R96, R99). -/
def decodeWord (ext : Bool) (w : Word) : Instr := firstMatch ext w opcodeTable

/-- The 32-bit value of four bytes, the first at the lowest address, little-endian (20_memory.md R56, R60). -/
def wordOfBytes (b0 b1 b2 b3 : Byte) : Word := b3 ++ b2 ++ b1 ++ b0

/-- The four bytes of a word as memory holds them, lowest address first (20_memory.md R54, R56). -/
def bytesOfWord (w : Word) : List Byte :=
  [w.extractLsb' 0 8, w.extractLsb' 8 8, w.extractLsb' 16 8, w.extractLsb' 24 8]

/-- Why a list of bytes is not decoded. -/
inductive DecodeError where
  /-- Fewer bytes are left than the four of an instruction (R80). -/
  | truncated (available : Nat)
  deriving DecidableEq, Repr

/-- Decode one instruction from bytes, with the bytes after it: total on any bytes. Four bytes always decode (a word no
row spells is INV, R96); fewer are refused by name. -/
def decode (ext : Bool) : List Byte → Except DecodeError (Instr × List Byte)
  | b0 :: b1 :: b2 :: b3 :: rest => .ok (decodeWord ext (wordOfBytes b0 b1 b2 b3), rest)
  | short => .error (.truncated short.length)

/-- The decoder on a table word: the low `nbits` bits of `w` (the rest of the 32 are 0) laid out in bytes as memory
holds them, and decoded with every row of the table present (`CSR_EXT_OPS` = true, log 7). -/
def decodeTableWord (nbits w : Nat) : Option Instr :=
  match decode true (bytesOfWord (BitVec.ofNat 32 (w % 2 ^ nbits))) with
  | .ok (i, _) => some i
  | .error _ => none

/-! ### The encoder (R82) -/

/-- R format: funct7, rs2, rs1, funct3, rd, opcode. -/
def wordR (funct7 : BitVec 7) (rs2 rs1 : RegNum) (funct3 : BitVec 3) (rd : RegNum) (opcode : BitVec 7) : Word :=
  funct7 ++ rs2 ++ rs1 ++ funct3 ++ rd ++ opcode

/-- I format: the 12 bits imm[11:0] (or the CSR number), rs1, funct3, rd, opcode. -/
def wordI (imm : BitVec 12) (rs1 : RegNum) (funct3 : BitVec 3) (rd : RegNum) (opcode : BitVec 7) : Word :=
  imm ++ rs1 ++ funct3 ++ rd ++ opcode

/-- S format: imm[11:5], rs2, rs1, funct3, imm[4:0], opcode. -/
def wordS (imm : Word) (rs2 rs1 : RegNum) (funct3 : BitVec 3) (opcode : BitVec 7) : Word :=
  imm.extractLsb' 5 7 ++ rs2 ++ rs1 ++ funct3 ++ imm.extractLsb' 0 5 ++ opcode

/-- B format: imm[12], imm[10:5], rs2, rs1, funct3, imm[4:1], imm[11], opcode. -/
def wordB (imm : Word) (rs2 rs1 : RegNum) (funct3 : BitVec 3) (opcode : BitVec 7) : Word :=
  imm.extractLsb' 12 1 ++ imm.extractLsb' 5 6 ++ rs2 ++ rs1 ++ funct3 ++ imm.extractLsb' 1 4 ++ imm.extractLsb' 11 1
    ++ opcode

/-- U format: imm[31:12], rd, opcode. -/
def wordU (imm : Word) (rd : RegNum) (opcode : BitVec 7) : Word := imm.extractLsb' 12 20 ++ rd ++ opcode

/-- J format: imm[20], imm[10:1], imm[11], imm[19:12], rd, opcode. -/
def wordJ (imm : Word) (rd : RegNum) (opcode : BitVec 7) : Word :=
  imm.extractLsb' 20 1 ++ imm.extractLsb' 1 10 ++ imm.extractLsb' 11 1 ++ imm.extractLsb' 12 8 ++ rd ++ opcode

/-- The word that spells an instruction (R82, R83, R95). -/
def encode : Instr → Word
  | .lui rd imm => wordU imm rd 0b0110111#7
  | .auipc rd imm => wordU imm rd 0b0010111#7
  | .jal rd imm => wordJ imm rd 0b1101111#7
  | .jalr rd rs1 imm => wordI (imm.setWidth 12) rs1 0b000#3 rd 0b1100111#7
  | .beq rs1 rs2 imm => wordB imm rs2 rs1 0b000#3 0b1100011#7
  | .bne rs1 rs2 imm => wordB imm rs2 rs1 0b001#3 0b1100011#7
  | .blt rs1 rs2 imm => wordB imm rs2 rs1 0b100#3 0b1100011#7
  | .bge rs1 rs2 imm => wordB imm rs2 rs1 0b101#3 0b1100011#7
  | .bltu rs1 rs2 imm => wordB imm rs2 rs1 0b110#3 0b1100011#7
  | .bgeu rs1 rs2 imm => wordB imm rs2 rs1 0b111#3 0b1100011#7
  | .lb rd rs1 imm => wordI (imm.setWidth 12) rs1 0b000#3 rd 0b0000011#7
  | .lh rd rs1 imm => wordI (imm.setWidth 12) rs1 0b001#3 rd 0b0000011#7
  | .lw rd rs1 imm => wordI (imm.setWidth 12) rs1 0b010#3 rd 0b0000011#7
  | .lbu rd rs1 imm => wordI (imm.setWidth 12) rs1 0b100#3 rd 0b0000011#7
  | .lhu rd rs1 imm => wordI (imm.setWidth 12) rs1 0b101#3 rd 0b0000011#7
  | .sb rs1 rs2 imm => wordS imm rs2 rs1 0b000#3 0b0100011#7
  | .sh rs1 rs2 imm => wordS imm rs2 rs1 0b001#3 0b0100011#7
  | .sw rs1 rs2 imm => wordS imm rs2 rs1 0b010#3 0b0100011#7
  | .addi rd rs1 imm => wordI (imm.setWidth 12) rs1 0b000#3 rd 0b0010011#7
  | .slti rd rs1 imm => wordI (imm.setWidth 12) rs1 0b010#3 rd 0b0010011#7
  | .sltiu rd rs1 imm => wordI (imm.setWidth 12) rs1 0b011#3 rd 0b0010011#7
  | .xori rd rs1 imm => wordI (imm.setWidth 12) rs1 0b100#3 rd 0b0010011#7
  | .ori rd rs1 imm => wordI (imm.setWidth 12) rs1 0b110#3 rd 0b0010011#7
  | .andi rd rs1 imm => wordI (imm.setWidth 12) rs1 0b111#3 rd 0b0010011#7
  | .slli rd rs1 shamt => wordR 0b0000000#7 shamt rs1 0b001#3 rd 0b0010011#7
  | .srli rd rs1 shamt => wordR 0b0000000#7 shamt rs1 0b101#3 rd 0b0010011#7
  | .srai rd rs1 shamt => wordR 0b0100000#7 shamt rs1 0b101#3 rd 0b0010011#7
  | .add rd rs1 rs2 => wordR 0b0000000#7 rs2 rs1 0b000#3 rd 0b0110011#7
  | .sub rd rs1 rs2 => wordR 0b0100000#7 rs2 rs1 0b000#3 rd 0b0110011#7
  | .sll rd rs1 rs2 => wordR 0b0000000#7 rs2 rs1 0b001#3 rd 0b0110011#7
  | .slt rd rs1 rs2 => wordR 0b0000000#7 rs2 rs1 0b010#3 rd 0b0110011#7
  | .sltu rd rs1 rs2 => wordR 0b0000000#7 rs2 rs1 0b011#3 rd 0b0110011#7
  | .xor rd rs1 rs2 => wordR 0b0000000#7 rs2 rs1 0b100#3 rd 0b0110011#7
  | .srl rd rs1 rs2 => wordR 0b0000000#7 rs2 rs1 0b101#3 rd 0b0110011#7
  | .sra rd rs1 rs2 => wordR 0b0100000#7 rs2 rs1 0b101#3 rd 0b0110011#7
  | .or rd rs1 rs2 => wordR 0b0000000#7 rs2 rs1 0b110#3 rd 0b0110011#7
  | .and rd rs1 rs2 => wordR 0b0000000#7 rs2 rs1 0b111#3 rd 0b0110011#7
  | .mul rd rs1 rs2 => wordR 0b0000001#7 rs2 rs1 0b000#3 rd 0b0110011#7
  | .mulh rd rs1 rs2 => wordR 0b0000001#7 rs2 rs1 0b001#3 rd 0b0110011#7
  | .mulhsu rd rs1 rs2 => wordR 0b0000001#7 rs2 rs1 0b010#3 rd 0b0110011#7
  | .mulhu rd rs1 rs2 => wordR 0b0000001#7 rs2 rs1 0b011#3 rd 0b0110011#7
  | .div rd rs1 rs2 => wordR 0b0000001#7 rs2 rs1 0b100#3 rd 0b0110011#7
  | .divu rd rs1 rs2 => wordR 0b0000001#7 rs2 rs1 0b101#3 rd 0b0110011#7
  | .rem rd rs1 rs2 => wordR 0b0000001#7 rs2 rs1 0b110#3 rd 0b0110011#7
  | .remu rd rs1 rs2 => wordR 0b0000001#7 rs2 rs1 0b111#3 rd 0b0110011#7
  | .fence fm pred succ rs1 rd => wordI (fm ++ pred ++ succ) rs1 0b000#3 rd 0b0001111#7
  | .ecall => 0x00000073#32
  | .ebreak => 0x00100073#32
  | .mret => 0x30200073#32
  | .csrrw rd csr rs1 => wordI csr rs1 0b001#3 rd 0b1110011#7
  | .csrrs rd csr rs1 => wordI csr rs1 0b010#3 rd 0b1110011#7
  | .csrrc rd csr rs1 => wordI csr rs1 0b011#3 rd 0b1110011#7
  | .csrrwi rd csr uimm => wordI csr uimm 0b101#3 rd 0b1110011#7
  | .csrrsi rd csr uimm => wordI csr uimm 0b110#3 rd 0b1110011#7
  | .csrrci rd csr uimm => wordI csr uimm 0b111#3 rd 0b1110011#7
  | .inv raw => raw

end Sys2Proof
end

