-- ==== Sys2Proof/Config.lean ====
section
/-! DEFINITION. The implementation parameters of 00_scope.md R10. "A model takes each as an argument": here they are
one record, held in `State.cfg`, which no instruction changes, so that a statement about every state is a statement
about every configuration (log 1). The launch parameters `GPR_INIT`, `CSR_RESET` and `MEM_INIT` are not here: they are
initial contents of State (`Launch` in Machine/State.lean). `XLEN`, `NREG` and `ILEN` are the types' own widths.
`DIV_CORNER` has the one value `riscv` in the spec and so carries no field (log 14). `WP_CAPACITY` is host-side only.
The model has no free value: the spec leaves no result of an instruction open (30_encoding.md R99). -/

namespace Sys2Proof

/-- The parameters of 00_scope.md R10, each under the name R10 gives it. -/
structure Config where
  /-- `MEM_BASE`, the lowest Guest Memory address. -/
  memBase : Word
  /-- `MEM_SIZE`, Guest Memory's size in bytes: a count, not a word. -/
  memSize : Nat
  /-- `RESET_PC`. -/
  resetPc : Word
  /-- `MSTATUS_RESET`. -/
  mstatusReset : Word
  /-- `ECALL_CAUSE`, the cause code ECALL writes. -/
  ecallCause : Word
  /-- `YIELD_REG`, the register whose value selects Yield. -/
  yieldReg : RegNum
  /-- `YIELD_SENTINEL`, the value that selects Yield. -/
  yieldSentinel : Word
  /-- `EXIT_REG`, the register holding the EBREAK exit status. -/
  exitReg : RegNum
  /-- `RA_REG`, the conventional return-address register (the tracer's classification only). -/
  raReg : RegNum
  /-- `CSR_EXT_OPS`: CSRRC, CSRRWI, CSRRSI and CSRRCI decode as instructions. -/
  csrExtOps : Bool
  /-- `ALIGN_CHECK`: misaligned data accesses fault. -/
  alignCheck : Bool
  deriving DecidableEq, Repr

/-- The reference configuration: the "value" column of 00_scope.md R10. -/
def Config.reference : Config where
  memBase := 0x80000000#32
  memSize := 0x08000000
  resetPc := 0x80000000#32
  mstatusReset := 0x00001800#32
  ecallCause := 0x0000000B#32
  yieldReg := 17#5
  yieldSentinel := 0xFFFFFFFF#32
  exitReg := 10#5
  raReg := 1#5
  csrExtOps := false
  alignCheck := false

end Sys2Proof
end

