-- ==== Sys2Proof/Machine/State.lean ====
section
/-! DEFINITION. The machine's state (10_state.md), the reasons a step stops, the launch parameters, and reset
(70_reset_and_hazards.md R300, 10_state.md R40). State is plain data and holds everything INVENTORY.md's '## State'
lists. -/

namespace Sys2Proof.Machine

/-- The widths of the memory interface: 1, 2 or 4 bytes (20_memory.md R58). -/
inductive Width where
  | byte
  | half
  | word
  deriving DecidableEq, Repr

/-- The four CSRs (10_state.md R29, R30). -/
inductive Csr where
  | mstatus
  | mtvec
  | mepc
  | mcause
  deriving DecidableEq, Repr

/-- The reason of an abort (10_state.md R37, 60_exceptions.md R260). -/
inductive AbortReason where
  /-- The word matches only INV, or a CSR instruction names an unimplemented CSR (60_exceptions.md R261). -/
  | invalidInstruction
  /-- A fetch, load or store outside Guest Memory (60_exceptions.md R262). -/
  | accessFault (addr : Word)
  /-- With `ALIGN_CHECK`, a misaligned halfword or word data access (60_exceptions.md R262, 20_memory.md R57). -/
  | misalignedAccess (addr : Word)
  deriving DecidableEq, Repr

/-- The run state (10_state.md R37). -/
inductive RunState where
  /-- Steps are accepted. -/
  | running
  /-- EBREAK ended the run: its exit status and its pc (44_system.md R232). -/
  | halted (code haltPc : Word)
  /-- A fatal fault ended the run: its reason and the pc of the faulting instruction (60_exceptions.md R261, R262). -/
  | aborted (reason : AbortReason) (haltPc : Word)
  deriving DecidableEq, Repr

/-- Guest Memory's contents (20_memory.md R50): the listed bytes, addresses strictly rising, none equal to what an
unlisted address reads as (`Memory.wf` in Machine/Ops.lean). The keys are the plain numbers `u(a)` (log 16). -/
abbrev Memory := List Host.Cell

/-- Everything the spec gives the machine. -/
structure State where
  /-- `x0` .. `x31` (R20), by number; the slot of `x0` is cleared at every retirement (R24). -/
  regs : Vector Word 32
  /-- The program counter (R25). -/
  pc : Word
  /-- `mstatus`, all 32 bits stored (R30, R31). -/
  mstatus : Word
  /-- `mtvec`, the trap-vector base (R34). -/
  mtvec : Word
  /-- `mepc`, the exception-return address (R32). -/
  mepc : Word
  /-- `mcause`, the exception-cause code (R33). -/
  mcause : Word
  /-- The run state (R37). -/
  run : RunState
  /-- Guest Memory (20_memory.md R50). -/
  mem : Memory
  /-- The parameters of 00_scope.md R10, fixed for the run (log 1). -/
  cfg : Config
  deriving DecidableEq, Repr

/-- Why the machine stops: only because a step is asked of a run that has ended. "A step is defined only in Running";
"A step call when run is Halted or Aborted executes nothing" (10_state.md R37, 60_exceptions.md R291). What the block
owes the host at the end of a run (R294) is what the fault carries. No instruction raises a Fault: a fatal fault of the
spec is TAKEN, as a next state whose `run` is `aborted` (log 5). -/
inductive Fault where
  /-- Raised by `step` in a state whose run EBREAK has ended. Safe: the machine stops where the block does nothing. -/
  | runHalted (code haltPc : Word)
  /-- Raised by `step` in a state whose run a fatal fault has ended. Safe: the machine stops where the block does
  nothing. -/
  | runAborted (reason : AbortReason) (haltPc : Word)
  deriving DecidableEq, Repr

/-- Why an instruction is given no meaning. -/
inductive Refusal where
  /-- An instruction of the table that the model does not give a meaning yet, raised by `exec`'s arm of that
  instruction. Safe. No arm raises it: every row has its meaning. -/
  | notModelled (mnemonic : String)
  deriving DecidableEq, Repr

/-- What a meaning and a step answer. -/
abbrev Result := Host.Outcome State Fault Refusal

/-- The launch parameters (00_scope.md R10): what is in the registers, the CSRs and Guest Memory when a run starts,
under no law (70_reset_and_hazards.md R302). -/
structure Launch where
  /-- `GPR_INIT`, by register number; its entry 0 is not used. -/
  gprInit : Vector Word 32
  /-- `CSR_RESET.mepc`. -/
  mepc : Word
  /-- `CSR_RESET.mcause`. -/
  mcause : Word
  /-- `CSR_RESET.mtvec`. -/
  mtvec : Word
  /-- `MEM_INIT`, the bytes of Guest Memory before the image is copied in, as a `Memory` (log 19). -/
  memInit : Memory
  deriving DecidableEq, Repr

/-- The reference launch: every register, CSR and listed-nowhere byte at the reference value 0 (00_scope.md R10; for
`MEM_INIT`, 95_test_vectors.md's instance). DESIGN CHOICE, unsafe for a claim that starts from it and relies on a value
of it: log 2, 3, 4. -/
def Launch.reference : Launch where
  gprInit := Vector.replicate 32 0#32
  mepc := 0#32
  mcause := 0#32
  mtvec := 0#32
  memInit := []

/-- The state a reset leaves, before an image is copied in (10_state.md R40, 70_reset_and_hazards.md R300). -/
def State.launch (cfg : Config) (l : Launch) : State where
  regs := l.gprInit.set 0 0#32
  pc := cfg.resetPc
  mstatus := cfg.mstatusReset
  mtvec := l.mtvec
  mepc := l.mepc
  mcause := l.mcause
  run := .running
  mem := l.memInit
  cfg := cfg

/-- The machine right after reset: the reference configuration and the reference launch, with no image loaded (R40;
how a program comes to run is log 11). -/
def State.reset : State := State.launch Config.reference Launch.reference

end Sys2Proof.Machine
end

