-- ==== Sys2Proof/Machine/Flags.lean ====
section
/-! DEFINITION. The machine has no flags (10_state.md R35). What stands in their place: the comparisons that write a
register or decide a branch (R35, 00_scope.md R11), and the fields of `mstatus` with MRET's transformation of them
(10_state.md R31, 44_system.md R233). -/

namespace Sys2Proof.Machine

/-- `s(a) < s(b)` (00_scope.md R11). -/
def ltSigned (a b : Word) : Bool := decide (a.toInt < b.toInt)

/-- `u(a) < u(b)` (00_scope.md R11). -/
def ltUnsigned (a b : Word) : Bool := decide (a.toNat < b.toNat)

/-- What a comparison writes: 1 or 0 (40_integer.md R120). -/
def truth (b : Bool) : Word := if b then 1#32 else 0#32

/-- `w[i] <- b`. -/
def setBit (w : Word) (i : Nat) (b : Bool) : Word :=
  if b then w ||| (1#32 <<< i) else w &&& ~~~(1#32 <<< i)

/-- `mstatus` bit 3, the global interrupt enable: storage only (10_state.md R31). -/
def mieOf (mstatus : Word) : Bool := mstatus.getLsbD 3

/-- `mstatus` bit 7, the previous interrupt enable: storage only (10_state.md R31). -/
def mpieOf (mstatus : Word) : Bool := mstatus.getLsbD 7

/-- `mstatus` bits 12:11, the previous privilege mode: storage only (10_state.md R31). -/
def mppOf (mstatus : Word) : BitVec 2 := mstatus.extractLsb' 11 2

/-- MRET's transformation of `mstatus`, the source's four steps in order (44_system.md R233): clear MIE, copy MPIE into
MIE, set MPIE, clear MPP. -/
def mretStatus (st : Word) : Word :=
  let st1 := setBit st 3 false
  let st2 := setBit st1 3 (mpieOf st1)
  let st3 := setBit st2 7 true
  setBit (setBit st3 11 false) 12 false

end Sys2Proof.Machine
end

