-- ==== Sys2Proof/Machine/Ops.lean ====
section
/-! DEFINITION. The named operations over registers, memory, CSRs and the run: every read and write of State goes
through one of these. The trap and the return from it stand here once (60_exceptions.md R265, R272), and so does a
fatal fault (R261, R262). -/

namespace Sys2Proof.Machine

/-! ### Registers -/

/-- `x[r]` (00_scope.md R12): register 0 "is wired to the constant zero" (10_state.md R23). -/
def State.reg (s : State) (r : RegNum) : Word :=
  if r = 0#5 then 0#32 else s.regs[r.toNat]'r.isLt

/-- `x[r] <- v` (00_scope.md R12). A write to `x0` is undone at retirement (10_state.md R24). -/
def State.setReg (s : State) (r : RegNum) (v : Word) : State := { s with regs := s.regs.set r.toNat v r.isLt }

/-- `snpc`, the sequential next pc: `pc + 4` modulo 2^32 (10_state.md R26, R27). -/
def State.snpc (s : State) : Word := s.pc + 4#32

/-- Retirement: "the last write of every retiring step is x[0] <- 0" (10_state.md R24), and `pc <- dnpc`
(30_encoding.md R98). -/
def State.retire (s : State) (dnpc : Word) : State := { s with regs := s.regs.set 0 0#32, pc := dnpc }

/-- The instruction writes one register and goes on at `pc + 4`. -/
def writeResult (rd : RegNum) (v : Word) (s : State) : Result := .next ((s.setReg rd v).retire s.snpc)

/-! ### The end of a run -/

/-- A fatal fault: nothing of the step takes effect, pc included, and `run <- Aborted(reason, halt_pc = pc)`
(60_exceptions.md R261, R262; 30_encoding.md R98). -/
def State.abort (s : State) (reason : AbortReason) : State := { s with run := .aborted reason s.pc }

/-- `halt(code)`: the instruction retires and then `run <- Halted(code, halt_pc)`, with `halt_pc` its own pc
(44_system.md R232, 30_encoding.md R98). -/
def State.halt (s : State) (code : Word) : State := { s.retire s.snpc with run := .halted code s.pc }

/-! ### Memory -/

/-- How many bytes an access moves (20_memory.md R58). -/
def Width.bytes : Width → Nat
  | .byte => 1
  | .half => 2
  | .word => 4

/-- What an address that the memory does not list reads as: one instance of the launch parameter `MEM_INIT`, the one
of 95_test_vectors.md. DESIGN CHOICE (log 4): unsafe only for a claim about State.reset that relies on it, since any
launch content is a `Memory` too. -/
def unlistedByte : Byte := 0#8

/-- The byte at an address. -/
def Memory.byte : Memory → Nat → Byte
  | [], _ => unlistedByte
  | (b, w) :: m, a => if a = b then w else Memory.byte m a

/-- Write one byte, keeping the canonical form. -/
def Memory.setByte : Memory → Nat → Byte → Memory
  | [], a, v => if v = unlistedByte then [] else [(a, v)]
  | (b, w) :: m, a, v =>
    if a < b then (if v = unlistedByte then (b, w) :: m else (a, v) :: (b, w) :: m)
    else if a = b then (if v = unlistedByte then m else (a, v) :: m)
    else (b, w) :: Memory.setByte m a v

/-- Every listed address is at least `lo`, addresses rise strictly, and no entry is the unlisted byte. -/
def Memory.wfFrom : Nat → Memory → Bool
  | _, [] => true
  | lo, (b, w) :: m => decide (lo ≤ b) && !(w == unlistedByte) && Memory.wfFrom (b + 1) m

/-- The canonical form: equal memories are equal lists. -/
def Memory.wf (m : Memory) : Bool := Memory.wfFrom 0 m

/-- Every listed address lies in [lo, hi). -/
def Memory.within (m : Memory) (lo hi : Nat) : Bool := m.all fun c => decide (lo ≤ c.1) && decide (c.1 < hi)

/-- The `n` bytes at `a` as a little-endian value zero-extended to a word: "the byte at the lowest address is the least
significant" (20_memory.md R53, R56). -/
def Memory.readLE (m : Memory) (a : Nat) : Width → Word
  | .byte => (m.byte a).setWidth 32
  | .half => (m.byte (a + 1) ++ m.byte a).setWidth 32
  | .word => m.byte (a + 3) ++ m.byte (a + 2) ++ m.byte (a + 1) ++ m.byte a

/-- `M[a+k] <- v[8k+7:8k]` for k = 0 .. n-1 (20_memory.md R54). -/
def Memory.writeBytes (m : Memory) (a : Nat) (v : Word) : Nat → Memory
  | 0 => m
  | n + 1 => (Memory.writeBytes m a v n).setByte (a + n) (v.extractLsb' (8 * n) 8)

/-- The in-range predicate, over unbounded integers (20_memory.md R52). -/
def inGuestMemory (cfg : Config) (a : Word) (n : Nat) : Bool :=
  decide (cfg.memBase.toNat ≤ a.toNat) && decide (a.toNat + n ≤ cfg.memBase.toNat + cfg.memSize)

/-- `MemRead(a, n)` (20_memory.md R53). -/
def State.memRead (s : State) (a : Word) (n : Width) : Except AbortReason Word :=
  if inGuestMemory s.cfg a n.bytes then .ok (s.mem.readLE a.toNat n) else .error (.accessFault a)

/-- `MemWrite(a, n, v)` (20_memory.md R54): an out-of-range access writes no byte. -/
def State.memWrite (s : State) (a : Word) (n : Width) (v : Word) : Except AbortReason State :=
  if inGuestMemory s.cfg a n.bytes then .ok { s with mem := s.mem.writeBytes a.toNat v n.bytes }
  else .error (.accessFault a)

/-- Is a data access of this width at this address misaligned? (20_memory.md R57) -/
def misaligned (a : Word) (n : Width) : Bool := a.toNat % n.bytes != 0

/-- With `ALIGN_CHECK`, does the data access fault for its alignment? (20_memory.md R57) -/
def State.alignFault (s : State) (a : Word) (n : Width) : Bool := s.cfg.alignCheck && misaligned a n

/-- A load's read: MisalignedAccess is checked first, then AccessFault (60_exceptions.md R271). -/
def State.dataRead (s : State) (a : Word) (n : Width) : Except AbortReason Word :=
  if s.alignFault a n then .error (.misalignedAccess a) else s.memRead a n

/-- A store's write, with the same checks in the same order (60_exceptions.md R271). -/
def State.dataWrite (s : State) (a : Word) (n : Width) (v : Word) : Except AbortReason State :=
  if s.alignFault a n then .error (.misalignedAccess a) else s.memWrite a n v

/-- Instruction fetch: `MemRead(pc, 4)`, never alignment-checked (20_memory.md R60). -/
def State.fetch (s : State) : Except AbortReason Word := s.memRead s.pc .word

/-- A load: the access, then `x[rd]` from what was read; a faulting load writes no register (42_loadstore.md). -/
def load (rd : RegNum) (ea : Word) (n : Width) (extend : Word → Word) (s : State) : Result :=
  match s.dataRead ea n with
  | .ok v => writeResult rd (extend v) s
  | .error reason => .next (s.abort reason)

/-- A store: a faulting store writes no byte (42_loadstore.md). -/
def store (ea : Word) (n : Width) (v : Word) (s : State) : Result :=
  match s.dataWrite ea n v with
  | .ok t => .next (t.retire s.snpc)
  | .error reason => .next (s.abort reason)

/-! ### CSRs -/

/-- The CSR a number names, if it is implemented (10_state.md R30; 44_system.md R240). -/
def csrOfNumber (n : CsrNum) : Option Csr :=
  if n = 0x300#12 then some .mstatus
  else if n = 0x305#12 then some .mtvec
  else if n = 0x341#12 then some .mepc
  else if n = 0x342#12 then some .mcause
  else none

/-- `CSR[c]`: all 32 bits (10_state.md R30). -/
def State.readCsr (s : State) : Csr → Word
  | .mstatus => s.mstatus
  | .mtvec => s.mtvec
  | .mepc => s.mepc
  | .mcause => s.mcause

/-- `CSR[c] <- v`: all 32 bits, stored as written (10_state.md R30). -/
def State.writeCsr (s : State) (c : Csr) (v : Word) : State :=
  match c with
  | .mstatus => { s with mstatus := v }
  | .mtvec => { s with mtvec := v }
  | .mepc => { s with mepc := v }
  | .mcause => { s with mcause := v }

/-- A CSR instruction (44_system.md section 4): the number is checked first, the old value is read, the new one
written, and `x[rd] <- old`. -/
def csrAccess (rd : RegNum) (csr : CsrNum) (new : Word → Word) (s : State) : Result :=
  match csrOfNumber csr with
  | some c => .next (((s.writeCsr c (new (s.readCsr c))).setReg rd (s.readCsr c)).retire s.snpc)
  | none => .next (s.abort .invalidInstruction)

/-- A CSR instruction that is present only with `CSR_EXT_OPS`, and otherwise invalid (44_system.md R236). -/
def csrAccessOptional (rd : RegNum) (csr : CsrNum) (new : Word → Word) (s : State) : Result :=
  if s.cfg.csrExtOps then csrAccess rd csr new s else .next (s.abort .invalidInstruction)

/-! ### The trap and its return -/

/-- Trap entry (60_exceptions.md R265): `mepc` and `mcause` are written, the step retires at the whole word of `mtvec`.
`mstatus` is not written (R267). -/
def State.trapEntry (s : State) (cause epc : Word) : State := { s with mepc := epc, mcause := cause }.retire s.mtvec

/-- Is this ECALL a cooperative yield? `x[YIELD_REG] == YIELD_SENTINEL` (44_system.md R231). -/
def State.yields (s : State) : Bool := s.reg s.cfg.yieldReg == s.cfg.yieldSentinel

/-- The return address an ECALL records: `pc + 4` for a yield, else `pc` (60_exceptions.md R266). -/
def State.ecallReturn (s : State) : Word := if s.yields then s.snpc else s.pc

/-- Trap return (60_exceptions.md R272): the transformed `mstatus`, and `pc <- mepc` unmodified. -/
def State.trapReturn (s : State) : State := { s with mstatus := mretStatus s.mstatus }.retire s.mepc

end Sys2Proof.Machine
end

