-- ==== Sys2Proof/Machine/Operands.lean ====
section
/-! DEFINITION. The operand values of a step (30_encoding.md R86, R92): the `decoded_fields` of the Decode Context
(10_state.md R27), populated as each row's format says and read before the action writes anything (00_scope.md R13). An
unpopulated `src1`, `src2` or `imm` holds 0 and no action reads it (R92); `rd` holds inst[11:7] in EVERY format (R86).
Every meaning that reads operands reads them from `operandsOf`. -/

namespace Sys2Proof.Machine

/-- `decoded_fields`: `rd`, `src1`, `src2`, `imm` (10_state.md R27). -/
structure Operands where
  rd : RegNum
  src1 : Word
  src2 : Word
  imm : Word
  deriving DecidableEq, Repr

/-- R format: `src1`, `src2`. -/
def operandsR (rd rs1 rs2 : RegNum) (s : State) : Operands :=
  { rd := rd, src1 := s.reg rs1, src2 := s.reg rs2, imm := 0#32 }

/-- I format: `src1`, `imm`. -/
def operandsI (rd rs1 : RegNum) (imm : Word) (s : State) : Operands :=
  { rd := rd, src1 := s.reg rs1, src2 := 0#32, imm := imm }

/-- S format: `src1`, `src2`, `imm`. The `rd` bits inst[11:7] are imm[4:0] here, extracted and not used (R86). -/
def operandsS (rs1 rs2 : RegNum) (imm : Word) (s : State) : Operands :=
  { rd := imm.extractLsb' 0 5, src1 := s.reg rs1, src2 := s.reg rs2, imm := imm }

/-- B format: `src1`, `src2`, `imm`. The `rd` bits inst[11:7] are imm[4:1], imm[11] here, extracted and not used (R86). -/
def operandsB (rs1 rs2 : RegNum) (imm : Word) (s : State) : Operands :=
  { rd := imm.extractLsb' 1 4 ++ imm.extractLsb' 11 1, src1 := s.reg rs1, src2 := s.reg rs2, imm := imm }

/-- U and J formats: `imm`. -/
def operandsUJ (rd : RegNum) (imm : Word) : Operands :=
  { rd := rd, src1 := 0#32, src2 := 0#32, imm := imm }

/-- What the `imm` slot of a shift-immediate form holds: it is an I immediate whose bits 11:5 are the row's funct7 and
whose bits 4:0 are the amount (30_encoding.md R84, R87), so `0x400 | shamt` for SRAI (40_integer.md R131). -/
def shiftSlot (funct7 : BitVec 7) (shamt : BitVec 5) : Word := (funct7 ++ shamt).signExtend 32

/-- Shift-immediate forms: I format. The `imm` slot "must not be used as the amount" (40_integer.md R131). -/
def operandsShift (funct7 : BitVec 7) (rd rs1 : RegNum) (shamt : BitVec 5) (s : State) : Operands :=
  operandsI rd rs1 (shiftSlot funct7 shamt) s

/-- CSR forms: I format, so `src1` is the register that the rs1 bits name, `uimm`'s bits included, and `imm` is the
sign-extended CSR number; no rule reads that `imm`, and the immediate forms do not use `src1` (30_encoding.md R85,
44_system.md R237). -/
def operandsCsr (rd : RegNum) (csr : CsrNum) (rs1 : RegNum) (s : State) : Operands :=
  operandsI rd rs1 (csr.signExtend 32) s

/-- INV's row has no format: nothing is populated, and no action reads a slot (44_system.md R241; log 10). -/
def operandsInv (raw : Word) : Operands :=
  { rd := fieldRd raw, src1 := 0#32, src2 := 0#32, imm := 0#32 }

/-- `(rd, src1, src2, imm) <- decode(k.format, inst)` (30_encoding.md R98, R86). The words of ECALL, EBREAK and MRET are
whole, and so are their slots, which are never read (R83). -/
def operandsOf (i : Instr) (s : State) : Operands :=
  match i with
  | .lui rd imm => operandsUJ rd imm
  | .auipc rd imm => operandsUJ rd imm
  | .jal rd imm => operandsUJ rd imm
  | .jalr rd rs1 imm => operandsI rd rs1 imm s
  | .beq rs1 rs2 imm => operandsB rs1 rs2 imm s
  | .bne rs1 rs2 imm => operandsB rs1 rs2 imm s
  | .blt rs1 rs2 imm => operandsB rs1 rs2 imm s
  | .bge rs1 rs2 imm => operandsB rs1 rs2 imm s
  | .bltu rs1 rs2 imm => operandsB rs1 rs2 imm s
  | .bgeu rs1 rs2 imm => operandsB rs1 rs2 imm s
  | .lb rd rs1 imm => operandsI rd rs1 imm s
  | .lh rd rs1 imm => operandsI rd rs1 imm s
  | .lw rd rs1 imm => operandsI rd rs1 imm s
  | .lbu rd rs1 imm => operandsI rd rs1 imm s
  | .lhu rd rs1 imm => operandsI rd rs1 imm s
  | .sb rs1 rs2 imm => operandsS rs1 rs2 imm s
  | .sh rs1 rs2 imm => operandsS rs1 rs2 imm s
  | .sw rs1 rs2 imm => operandsS rs1 rs2 imm s
  | .addi rd rs1 imm => operandsI rd rs1 imm s
  | .slti rd rs1 imm => operandsI rd rs1 imm s
  | .sltiu rd rs1 imm => operandsI rd rs1 imm s
  | .xori rd rs1 imm => operandsI rd rs1 imm s
  | .ori rd rs1 imm => operandsI rd rs1 imm s
  | .andi rd rs1 imm => operandsI rd rs1 imm s
  | .slli rd rs1 shamt => operandsShift 0b0000000#7 rd rs1 shamt s
  | .srli rd rs1 shamt => operandsShift 0b0000000#7 rd rs1 shamt s
  | .srai rd rs1 shamt => operandsShift 0b0100000#7 rd rs1 shamt s
  | .add rd rs1 rs2 => operandsR rd rs1 rs2 s
  | .sub rd rs1 rs2 => operandsR rd rs1 rs2 s
  | .sll rd rs1 rs2 => operandsR rd rs1 rs2 s
  | .slt rd rs1 rs2 => operandsR rd rs1 rs2 s
  | .sltu rd rs1 rs2 => operandsR rd rs1 rs2 s
  | .xor rd rs1 rs2 => operandsR rd rs1 rs2 s
  | .srl rd rs1 rs2 => operandsR rd rs1 rs2 s
  | .sra rd rs1 rs2 => operandsR rd rs1 rs2 s
  | .or rd rs1 rs2 => operandsR rd rs1 rs2 s
  | .and rd rs1 rs2 => operandsR rd rs1 rs2 s
  | .mul rd rs1 rs2 => operandsR rd rs1 rs2 s
  | .mulh rd rs1 rs2 => operandsR rd rs1 rs2 s
  | .mulhsu rd rs1 rs2 => operandsR rd rs1 rs2 s
  | .mulhu rd rs1 rs2 => operandsR rd rs1 rs2 s
  | .div rd rs1 rs2 => operandsR rd rs1 rs2 s
  | .divu rd rs1 rs2 => operandsR rd rs1 rs2 s
  | .rem rd rs1 rs2 => operandsR rd rs1 rs2 s
  | .remu rd rs1 rs2 => operandsR rd rs1 rs2 s
  | .fence fm pred succ rs1 rd => operandsI rd rs1 ((fm ++ pred ++ succ).signExtend 32) s
  | .ecall => operandsI 0#5 0#5 0#32 s
  | .ebreak => operandsI 0#5 0#5 1#32 s
  | .mret => operandsI 0#5 0#5 0x302#32 s
  | .csrrw rd csr rs1 => operandsCsr rd csr rs1 s
  | .csrrs rd csr rs1 => operandsCsr rd csr rs1 s
  | .csrrc rd csr rs1 => operandsCsr rd csr rs1 s
  | .csrrwi rd csr uimm => operandsCsr rd csr uimm s
  | .csrrsi rd csr uimm => operandsCsr rd csr uimm s
  | .csrrci rd csr uimm => operandsCsr rd csr uimm s
  | .inv raw => operandsInv raw
/-- The shift amount of a register form: `src2[4:0]` (40_integer.md R120). -/
def shiftAmount (src2 : Word) : Nat := (src2.extractLsb' 0 5).toNat

/-- `uimm`, zero-extended (30_encoding.md R85). -/
def uimmWord (uimm : BitVec 5) : Word := uimm.setWidth 32

/-- Base plus signed displacement, modulo 2^32: the only addressing mode (42_loadstore.md R180). -/
def effectiveAddress (o : Operands) : Word := o.src1 + o.imm

/-- A target relative to the instruction's own pc, modulo 2^32 (41_control.md R160). -/
def pcTarget (o : Operands) (s : State) : Word := s.pc + o.imm

/-- The target of JALR: the sum with bit 0 cleared (41_control.md R162). -/
def jalrTarget (o : Operands) : Word := (o.src1 + o.imm) &&& 0xFFFFFFFE#32

end Sys2Proof.Machine
end

