-- ==== Sys2Proof/Machine/Control.lean ====
section
/-! DEFINITION. Control transfer (41_control.md): targets modulo 2^32 and never checked, no delay slot, no exception. -/

namespace Sys2Proof.Machine

/-- `x[rd] <- pc + 4; dnpc <- target` (R160). -/
def jumpAndLink (rd : RegNum) (target : Word) (s : State) : Result := .next ((s.setReg rd s.snpc).retire target)

/-- "if cond(src1, src2) then dnpc <- pc + imm"; a branch not taken goes on at `pc + 4` (R160). -/
def branch (cond : Word → Word → Bool) (o : Operands) (s : State) : Result :=
  .next (s.retire (if cond o.src1 o.src2 then pcTarget o s else s.snpc))

/-- R161 -/
def execJal (rd : RegNum) (imm : Word) (s : State) : Result :=
  let o := operandsOf (.jal rd imm) s
  jumpAndLink o.rd (pcTarget o s) s

/-- R162: the target uses the old `src1`. -/
def execJalr (rd rs1 : RegNum) (imm : Word) (s : State) : Result :=
  let o := operandsOf (.jalr rd rs1 imm) s
  jumpAndLink o.rd (jalrTarget o) s

/-- R163 -/
def execBeq (rs1 rs2 : RegNum) (imm : Word) (s : State) : Result :=
  branch (fun a b => a == b) (operandsOf (.beq rs1 rs2 imm) s) s

/-- R164 -/
def execBne (rs1 rs2 : RegNum) (imm : Word) (s : State) : Result :=
  branch (fun a b => a != b) (operandsOf (.bne rs1 rs2 imm) s) s

/-- R165 -/
def execBlt (rs1 rs2 : RegNum) (imm : Word) (s : State) : Result :=
  branch ltSigned (operandsOf (.blt rs1 rs2 imm) s) s

/-- R166 -/
def execBge (rs1 rs2 : RegNum) (imm : Word) (s : State) : Result :=
  branch (fun a b => !ltSigned a b) (operandsOf (.bge rs1 rs2 imm) s) s

/-- R167 -/
def execBltu (rs1 rs2 : RegNum) (imm : Word) (s : State) : Result :=
  branch ltUnsigned (operandsOf (.bltu rs1 rs2 imm) s) s

/-- R168 -/
def execBgeu (rs1 rs2 : RegNum) (imm : Word) (s : State) : Result :=
  branch (fun a b => !ltUnsigned a b) (operandsOf (.bgeu rs1 rs2 imm) s) s

end Sys2Proof.Machine
end

