-- ==== Sys2Proof/Machine/Integer.lean ====
section
/-! DEFINITION. The integer computational instructions (40_integer.md): words modulo 2^32, no flag, no exception, and
`pc <- pc + 4`. -/

namespace Sys2Proof.Machine

/-- `x[rd] <- f(src1, imm)`. -/
def opImm (f : Word → Word → Word) (o : Operands) (s : State) : Result := writeResult o.rd (f o.src1 o.imm) s

/-- `x[rd] <- f(src1, shamt)`, `shamt` the 5-bit field and not the `imm` slot (30_encoding.md R84, 40_integer.md R131). -/
def opShift (f : Word → Nat → Word) (shamt : BitVec 5) (o : Operands) (s : State) : Result :=
  writeResult o.rd (f o.src1 shamt.toNat) s

/-- `x[rd] <- f(src1, src2)`. -/
def opReg (f : Word → Word → Word) (o : Operands) (s : State) : Result := writeResult o.rd (f o.src1 o.src2) s

/-- `a >>s n`: bit 31 copied into the vacated bits (00_scope.md R11). -/
def shiftRightArith (a : Word) (n : Nat) : Word := a.sshiftRight n

/-- R121 -/
def execLui (rd : RegNum) (imm : Word) (s : State) : Result :=
  let o := operandsOf (.lui rd imm) s
  writeResult o.rd o.imm s

/-- R122 -/
def execAuipc (rd : RegNum) (imm : Word) (s : State) : Result :=
  let o := operandsOf (.auipc rd imm) s
  writeResult o.rd (s.pc + o.imm) s

/-- R123 -/
def execAddi (rd rs1 : RegNum) (imm : Word) (s : State) : Result := opImm (· + ·) (operandsOf (.addi rd rs1 imm) s) s

/-- R124 -/
def execSlti (rd rs1 : RegNum) (imm : Word) (s : State) : Result :=
  opImm (fun a b => truth (ltSigned a b)) (operandsOf (.slti rd rs1 imm) s) s

/-- R125: the immediate is sign-extended first, then compared unsigned. -/
def execSltiu (rd rs1 : RegNum) (imm : Word) (s : State) : Result :=
  opImm (fun a b => truth (ltUnsigned a b)) (operandsOf (.sltiu rd rs1 imm) s) s

/-- R126 -/
def execXori (rd rs1 : RegNum) (imm : Word) (s : State) : Result :=
  opImm (· ^^^ ·) (operandsOf (.xori rd rs1 imm) s) s

/-- R127 -/
def execOri (rd rs1 : RegNum) (imm : Word) (s : State) : Result := opImm (· ||| ·) (operandsOf (.ori rd rs1 imm) s) s

/-- R128 -/
def execAndi (rd rs1 : RegNum) (imm : Word) (s : State) : Result :=
  opImm (· &&& ·) (operandsOf (.andi rd rs1 imm) s) s

/-- R129 -/
def execSlli (rd rs1 : RegNum) (shamt : BitVec 5) (s : State) : Result :=
  opShift (fun a n => a <<< n) shamt (operandsOf (.slli rd rs1 shamt) s) s

/-- R130 -/
def execSrli (rd rs1 : RegNum) (shamt : BitVec 5) (s : State) : Result :=
  opShift (fun a n => a >>> n) shamt (operandsOf (.srli rd rs1 shamt) s) s

/-- R131 -/
def execSrai (rd rs1 : RegNum) (shamt : BitVec 5) (s : State) : Result :=
  opShift shiftRightArith shamt (operandsOf (.srai rd rs1 shamt) s) s

/-- R132 -/
def execAdd (rd rs1 rs2 : RegNum) (s : State) : Result := opReg (· + ·) (operandsOf (.add rd rs1 rs2) s) s

/-- R133 -/
def execSub (rd rs1 rs2 : RegNum) (s : State) : Result := opReg (· - ·) (operandsOf (.sub rd rs1 rs2) s) s

/-- R134 -/
def execSll (rd rs1 rs2 : RegNum) (s : State) : Result :=
  opReg (fun a b => a <<< shiftAmount b) (operandsOf (.sll rd rs1 rs2) s) s

/-- R135 -/
def execSlt (rd rs1 rs2 : RegNum) (s : State) : Result :=
  opReg (fun a b => truth (ltSigned a b)) (operandsOf (.slt rd rs1 rs2) s) s

/-- R136 -/
def execSltu (rd rs1 rs2 : RegNum) (s : State) : Result :=
  opReg (fun a b => truth (ltUnsigned a b)) (operandsOf (.sltu rd rs1 rs2) s) s

/-- R137 -/
def execXor (rd rs1 rs2 : RegNum) (s : State) : Result := opReg (· ^^^ ·) (operandsOf (.xor rd rs1 rs2) s) s

/-- R138 -/
def execSrl (rd rs1 rs2 : RegNum) (s : State) : Result :=
  opReg (fun a b => a >>> shiftAmount b) (operandsOf (.srl rd rs1 rs2) s) s

/-- R139 -/
def execSra (rd rs1 rs2 : RegNum) (s : State) : Result :=
  opReg (fun a b => shiftRightArith a (shiftAmount b)) (operandsOf (.sra rd rs1 rs2) s) s

/-- R140 -/
def execOr (rd rs1 rs2 : RegNum) (s : State) : Result := opReg (· ||| ·) (operandsOf (.or rd rs1 rs2) s) s

/-- R141 -/
def execAnd (rd rs1 rs2 : RegNum) (s : State) : Result := opReg (· &&& ·) (operandsOf (.and rd rs1 rs2) s) s

end Sys2Proof.Machine
end

