-- ==== Sys2Proof/Machine/LoadStore.lean ====
section
/-! DEFINITION. Loads and stores (42_loadstore.md): base plus displacement, little-endian, the access checked before
anything is written. -/

namespace Sys2Proof.Machine

/-- `sext_8` of the low byte (00_scope.md R11). -/
def sext8 (v : Word) : Word := (v.setWidth 8).signExtend 32

/-- `sext_16` of the low halfword (00_scope.md R11). -/
def sext16 (v : Word) : Word := (v.setWidth 16).signExtend 32

/-- A load at `src1 + imm` (R180). -/
def loadAt (n : Width) (extend : Word → Word) (o : Operands) (s : State) : Result :=
  load o.rd (effectiveAddress o) n extend s

/-- A store of `src2` at `src1 + imm` (R180). -/
def storeAt (n : Width) (o : Operands) (s : State) : Result :=
  store (effectiveAddress o) n o.src2 s

/-- R181 -/
def execLb (rd rs1 : RegNum) (imm : Word) (s : State) : Result := loadAt .byte sext8 (operandsOf (.lb rd rs1 imm) s) s

/-- R182 -/
def execLh (rd rs1 : RegNum) (imm : Word) (s : State) : Result :=
  loadAt .half sext16 (operandsOf (.lh rd rs1 imm) s) s

/-- R183 -/
def execLw (rd rs1 : RegNum) (imm : Word) (s : State) : Result := loadAt .word id (operandsOf (.lw rd rs1 imm) s) s

/-- R184: what MemRead answers is zero-extended already (20_memory.md R53). -/
def execLbu (rd rs1 : RegNum) (imm : Word) (s : State) : Result := loadAt .byte id (operandsOf (.lbu rd rs1 imm) s) s

/-- R185: what MemRead answers is zero-extended already (20_memory.md R53). -/
def execLhu (rd rs1 : RegNum) (imm : Word) (s : State) : Result := loadAt .half id (operandsOf (.lhu rd rs1 imm) s) s

/-- R186 -/
def execSb (rs1 rs2 : RegNum) (imm : Word) (s : State) : Result := storeAt .byte (operandsOf (.sb rs1 rs2 imm) s) s

/-- R187 -/
def execSh (rs1 rs2 : RegNum) (imm : Word) (s : State) : Result := storeAt .half (operandsOf (.sh rs1 rs2 imm) s) s

/-- R188 -/
def execSw (rs1 rs2 : RegNum) (imm : Word) (s : State) : Result := storeAt .word (operandsOf (.sw rs1 rs2 imm) s) s

end Sys2Proof.Machine
end

