-- ==== Sys2Proof/Machine/MulDiv.lean ====
section
/-! DEFINITION. Multiply and divide (43_muldiv.md): exact products of which one half is written (R200), and division
with the corner results of `DIV_CORNER` = `riscv`, never a trap (R205 to R208; log 14). -/

namespace Sys2Proof.Machine

/-- An exact product as a 64-bit two's-complement value (R200). -/
def product (p : Int) : BitVec 64 := BitVec.ofInt 64 p

/-- Bits 31:0 of a product. -/
def lowHalf (p : BitVec 64) : Word := p.extractLsb' 0 32

/-- Bits 63:32 of a product. -/
def highHalf (p : BitVec 64) : Word := p.extractLsb' 32 32

/-- `trunc(s(a) / s(b))` with its two special rows (R205). -/
def divSigned (a b : Word) : Word :=
  if b = 0#32 then 0xFFFFFFFF#32
  else if a = 0x80000000#32 ∧ b = 0xFFFFFFFF#32 then 0x80000000#32
  else BitVec.ofInt 32 (Int.tdiv a.toInt b.toInt)

/-- `floor(u(a) / u(b))`, all ones for a zero divisor (R206). -/
def divUnsigned (a b : Word) : Word :=
  if b = 0#32 then 0xFFFFFFFF#32 else BitVec.ofNat 32 (a.toNat / b.toNat)

/-- `s(a) - s(b) * trunc(s(a) / s(b))` with its two special rows (R207). -/
def remSigned (a b : Word) : Word :=
  if b = 0#32 then a
  else if a = 0x80000000#32 ∧ b = 0xFFFFFFFF#32 then 0#32
  else BitVec.ofInt 32 (a.toInt - b.toInt * Int.tdiv a.toInt b.toInt)

/-- `u(a) mod u(b)`, the dividend for a zero divisor (R208). -/
def remUnsigned (a b : Word) : Word :=
  if b = 0#32 then a else BitVec.ofNat 32 (a.toNat % b.toNat)

/-- R201 -/
def execMul (rd rs1 rs2 : RegNum) (s : State) : Result :=
  opReg (fun a b => lowHalf (product (a.toInt * b.toInt))) (operandsOf (.mul rd rs1 rs2) s) s

/-- R202: signed by signed. -/
def execMulh (rd rs1 rs2 : RegNum) (s : State) : Result :=
  opReg (fun a b => highHalf (product (a.toInt * b.toInt))) (operandsOf (.mulh rd rs1 rs2) s) s

/-- R203: signed `src1` by unsigned `src2`. -/
def execMulhsu (rd rs1 rs2 : RegNum) (s : State) : Result :=
  opReg (fun a b => highHalf (product (a.toInt * (b.toNat : Int)))) (operandsOf (.mulhsu rd rs1 rs2) s) s

/-- R204: unsigned by unsigned. -/
def execMulhu (rd rs1 rs2 : RegNum) (s : State) : Result :=
  opReg (fun a b => highHalf (product ((a.toNat : Int) * (b.toNat : Int)))) (operandsOf (.mulhu rd rs1 rs2) s) s

/-- R205 -/
def execDiv (rd rs1 rs2 : RegNum) (s : State) : Result := opReg divSigned (operandsOf (.div rd rs1 rs2) s) s

/-- R206 -/
def execDivu (rd rs1 rs2 : RegNum) (s : State) : Result := opReg divUnsigned (operandsOf (.divu rd rs1 rs2) s) s

/-- R207 -/
def execRem (rd rs1 rs2 : RegNum) (s : State) : Result := opReg remSigned (operandsOf (.rem rd rs1 rs2) s) s

/-- R208 -/
def execRemu (rd rs1 rs2 : RegNum) (s : State) : Result := opReg remUnsigned (operandsOf (.remu rd rs1 rs2) s) s

end Sys2Proof.Machine
end

