-- ==== Sys2Proof/Machine/System.lean ====
section
/-! DEFINITION. Fence, system, CSR and invalid instructions (44_system.md). There is one mode, so no privilege check
(10_state.md R39). -/

namespace Sys2Proof.Machine

/-- R221: no operation, whatever its fields. -/
def execFence (_fm _pred _succ : BitVec 4) (_rs1 _rd : RegNum) (s : State) : Result := .next (s.retire s.snpc)

/-- R231: the trap, with cause `ECALL_CAUSE` and the return address of R266. -/
def execEcall (s : State) : Result := .next (s.trapEntry s.cfg.ecallCause s.ecallReturn)

/-- R232: retires, then the run halts with the exit status in `x[EXIT_REG]`. -/
def execEbreak (s : State) : Result := .next (s.halt (s.reg s.cfg.exitReg))

/-- R233: the trap's return. -/
def execMret (s : State) : Result := .next s.trapReturn

/-- R234 -/
def execCsrrw (rd : RegNum) (csr : CsrNum) (rs1 : RegNum) (s : State) : Result :=
  let o := operandsOf (.csrrw rd csr rs1) s
  csrAccess o.rd csr (fun _ => o.src1) s

/-- R235 -/
def execCsrrs (rd : RegNum) (csr : CsrNum) (rs1 : RegNum) (s : State) : Result :=
  let o := operandsOf (.csrrs rd csr rs1) s
  csrAccess o.rd csr (fun old => old ||| o.src1) s

/-- R236 -/
def execCsrrc (rd : RegNum) (csr : CsrNum) (rs1 : RegNum) (s : State) : Result :=
  let o := operandsOf (.csrrc rd csr rs1) s
  csrAccessOptional o.rd csr (fun old => old &&& ~~~o.src1) s

/-- R237 -/
def execCsrrwi (rd : RegNum) (csr : CsrNum) (uimm : BitVec 5) (s : State) : Result :=
  let o := operandsOf (.csrrwi rd csr uimm) s
  csrAccessOptional o.rd csr (fun _ => uimmWord uimm) s

/-- R238 -/
def execCsrrsi (rd : RegNum) (csr : CsrNum) (uimm : BitVec 5) (s : State) : Result :=
  let o := operandsOf (.csrrsi rd csr uimm) s
  csrAccessOptional o.rd csr (fun old => old ||| uimmWord uimm) s

/-- R239 -/
def execCsrrci (rd : RegNum) (csr : CsrNum) (uimm : BitVec 5) (s : State) : Result :=
  let o := operandsOf (.csrrci rd csr uimm) s
  csrAccessOptional o.rd csr (fun old => old &&& ~~~(uimmWord uimm)) s

/-- R241: InvalidInstruction, always. -/
def execInv (_raw : Word) (s : State) : Result := .next (s.abort .invalidInstruction)

end Sys2Proof.Machine
end

