-- ==== Sys2Proof/Machine/Step.lean ====
section
/-! DEFINITION. One step: the instruction cycle of 30_encoding.md R98. Fetch, decode, perform the action; a fetch fault
comes before anything else (60_exceptions.md R271). A step of a run that has ended executes nothing: it answers the
machine's Fault (R291; log 5). -/

namespace Sys2Proof.Machine

def step (s : State) : Host.Outcome State Fault Refusal :=
  match s.run with
  | .running =>
    match s.fetch with
    | .ok w => exec (decodeWord s.cfg.csrExtOps w) s
    | .error reason => .next (s.abort reason)
  | .halted code haltPc => .fault (.runHalted code haltPc)
  | .aborted reason haltPc => .fault (.runAborted reason haltPc)

/-- The state with a table word stored where the next step fetches, at `pc`, and the run set to Running, so that the
very next step runs it; it stands for the load of a one-word image at the pc (log 11). A pc that Guest Memory does not
hold fetches nothing, and then memory is left as it is. -/
def State.withFetchWord (s : State) (nbits w : Nat) : State :=
  match s.memWrite s.pc .word (BitVec.ofNat 32 (w % 2 ^ nbits)) with
  | .ok t => { t with run := .running }
  | .error _ => { s with run := .running }

end Sys2Proof.Machine
end

