-- ==== Sys2Proof/Machine/Pseudo.lean ====
section
/-! DEFINITION. The pseudo-instructions and their expansions (30_encoding.md R102). A label or symbol is its offset from
the pseudo-instruction's own address (R101, "offset = label - pc"; log 17). -/

namespace Sys2Proof.Machine

inductive Pseudo where
  | nop
  | li (rd : RegNum) (imm : Word)
  | mv (rd rs : RegNum)
  | not (rd rs : RegNum)
  | neg (rd rs : RegNum)
  | seqz (rd rs : RegNum)
  | snez (rd rs : RegNum)
  | sltz (rd rs : RegNum)
  | sgtz (rd rs : RegNum)
  | beqz (rs : RegNum) (offset : Word)
  | bnez (rs : RegNum) (offset : Word)
  | blez (rs : RegNum) (offset : Word)
  | bgez (rs : RegNum) (offset : Word)
  | bltz (rs : RegNum) (offset : Word)
  | bgtz (rs : RegNum) (offset : Word)
  | bgt (a b : RegNum) (offset : Word)
  | ble (a b : RegNum) (offset : Word)
  | bgtu (a b : RegNum) (offset : Word)
  | bleu (a b : RegNum) (offset : Word)
  | j (offset : Word)
  | jal (offset : Word)
  | jr (rs : RegNum)
  | jalr (rs : RegNum)
  | ret
  | callFar (offset : Word)
  | callNear (offset : Word)
  | tailFar (offset : Word)
  | tailNear (offset : Word)
  | la (rd : RegNum) (offset : Word)
  | csrr (rd : RegNum) (csr : CsrNum)
  | csrw (csr : CsrNum) (rs : RegNum)
  | csrs (csr : CsrNum) (rs : RegNum)
  | csrc (csr : CsrNum) (rs : RegNum)
  | csrwi (csr : CsrNum) (uimm : BitVec 5)
  | csrsi (csr : CsrNum) (uimm : BitVec 5)
  | csrci (csr : CsrNum) (uimm : BitVec 5)
  | fence
  | unimp
  deriving DecidableEq, Repr

/-- `lo = sext_12(v[11:0])`. -/
def lowPart (v : Word) : Word := (v.setWidth 12).signExtend 32

/-- `hi`, as the U immediate it becomes: `v - lo`, whose low 12 bits are 0. -/
def highPart (v : Word) : Word := v - lowPart v

/-- The instructions a pseudo-instruction stands for (30_encoding.md R102). -/
def Pseudo.expand : Pseudo → List Instr
  | .nop => [.addi 0#5 0#5 0#32]
  | .li rd imm =>
    if lowPart imm = imm then [.addi rd 0#5 imm] else [.lui rd (highPart imm), .addi rd rd (lowPart imm)]
  | .mv rd rs => [.addi rd rs 0#32]
  | .not rd rs => [.xori rd rs 0xFFFFFFFF#32]
  | .neg rd rs => [.sub rd 0#5 rs]
  | .seqz rd rs => [.sltiu rd rs 1#32]
  | .snez rd rs => [.sltu rd 0#5 rs]
  | .sltz rd rs => [.slt rd rs 0#5]
  | .sgtz rd rs => [.slt rd 0#5 rs]
  | .beqz rs offset => [.beq rs 0#5 offset]
  | .bnez rs offset => [.bne rs 0#5 offset]
  | .blez rs offset => [.bge 0#5 rs offset]
  | .bgez rs offset => [.bge rs 0#5 offset]
  | .bltz rs offset => [.blt rs 0#5 offset]
  | .bgtz rs offset => [.blt 0#5 rs offset]
  | .bgt a b offset => [.blt b a offset]
  | .ble a b offset => [.bge b a offset]
  | .bgtu a b offset => [.bltu b a offset]
  | .bleu a b offset => [.bgeu b a offset]
  | .j offset => [.jal 0#5 offset]
  | .jal offset => [.jal 1#5 offset]
  | .jr rs => [.jalr 0#5 rs 0#32]
  | .jalr rs => [.jalr 1#5 rs 0#32]
  | .ret => [.jalr 0#5 1#5 0#32]
  | .callFar offset => [.auipc 1#5 (highPart offset), .jalr 1#5 1#5 (lowPart offset)]
  | .callNear offset => [.jal 1#5 offset]
  | .tailFar offset => [.auipc 6#5 (highPart offset), .jalr 0#5 6#5 (lowPart offset)]
  | .tailNear offset => [.jal 0#5 offset]
  | .la rd offset => [.auipc rd (highPart offset), .addi rd rd (lowPart offset)]
  | .csrr rd csr => [.csrrs rd csr 0#5]
  | .csrw csr rs => [.csrrw 0#5 csr rs]
  | .csrs csr rs => [.csrrs 0#5 csr rs]
  | .csrc csr rs => [.csrrc 0#5 csr rs]
  | .csrwi csr uimm => [.csrrwi 0#5 csr uimm]
  | .csrsi csr uimm => [.csrrsi 0#5 csr uimm]
  | .csrci csr uimm => [.csrrci 0#5 csr uimm]
  | .fence => [.fence 0#4 0b1111#4 0b1111#4 0#5 0#5]
  | .unimp => [.csrrw 0#5 0xC00#12 0#5]

end Sys2Proof.Machine
end

