-- ==== Sys2Proof/Machine/Outputs.lean ====
section
/-! DEFINITION. The outputs of one step (10_state.md R38): the Trap Event (60_exceptions.md R268) and the
control-transfer classification of a JAL or JALR for the tracer (R297). They are valid for the step only and are not
stored state, so they are functions of the state the step starts from (log 9). No execution depends on them (R295,
R297). -/

namespace Sys2Proof.Machine

/-- The Trap Event (60_exceptions.md R268). -/
inductive TrapEvent where
  | none
  | yield
  | syscall
  | error (cause : Word)
  deriving DecidableEq, Repr

/-- Classify a cause code and the value of `YIELD_REG` (60_exceptions.md R268). `error` is for a handler that classifies
an `mcause` software changed; the block never outputs it (R269). -/
def classifyTrap (cfg : Config) (cause v : Word) : TrapEvent :=
  if cause = cfg.ecallCause ∧ v = cfg.yieldSentinel then .yield
  else if cause = cfg.ecallCause then .syscall
  else .error cause

/-- The Trap Event of a step that executes `i` in `s`: none unless it is ECALL (60_exceptions.md R268). -/
def trapEventOf (i : Instr) (s : State) : TrapEvent :=
  if i = .ecall then classifyTrap s.cfg s.cfg.ecallCause (s.reg s.cfg.yieldReg) else .none

/-- The tracer's classes of a jump (60_exceptions.md R297). -/
inductive JumpClass where
  | call (site target : Word) (tail : Bool)
  | ret (site target : Word)
  | plain
  deriving DecidableEq, Repr

/-- The classification, its clauses in the order of 60_exceptions.md R297: a call by its destination register, then
(JALR only) a return, then a tail call. -/
def classifyJump (raReg : RegNum) (isJalr : Bool) (rd rs1 : RegNum) (imm site target : Word) : JumpClass :=
  if rd = raReg then .call site target false
  else if isJalr ∧ rs1 = raReg ∧ imm = 0#32 then .ret site target
  else if isJalr ∧ rd = 0#5 ∧ imm = 0#32 then .call site target true
  else .plain

/-- The classification of a step that executes `i` in `s`: output for each JAL or JALR step only. -/
def jumpClassOf (i : Instr) (s : State) : Option JumpClass :=
  match i with
  | .jal rd imm => some (classifyJump s.cfg.raReg false rd 0#5 imm s.pc (pcTarget (operandsOf i s) s))
  | .jalr rd rs1 imm => some (classifyJump s.cfg.raReg true rd rs1 imm s.pc (jalrTarget (operandsOf i s)))
  | .lui _ _ | .auipc _ _ => none
  | .beq _ _ _ | .bne _ _ _ | .blt _ _ _ | .bge _ _ _ | .bltu _ _ _ | .bgeu _ _ _ => none
  | .lb _ _ _ | .lh _ _ _ | .lw _ _ _ | .lbu _ _ _ | .lhu _ _ _ => none
  | .sb _ _ _ | .sh _ _ _ | .sw _ _ _ => none
  | .addi _ _ _ | .slti _ _ _ | .sltiu _ _ _ | .xori _ _ _ | .ori _ _ _ | .andi _ _ _ => none
  | .slli _ _ _ | .srli _ _ _ | .srai _ _ _ => none
  | .add _ _ _ | .sub _ _ _ | .sll _ _ _ | .slt _ _ _ | .sltu _ _ _ | .xor _ _ _ | .srl _ _ _ | .sra _ _ _
  | .or _ _ _ | .and _ _ _ => none
  | .mul _ _ _ | .mulh _ _ _ | .mulhsu _ _ _ | .mulhu _ _ _ | .div _ _ _ | .divu _ _ _ | .rem _ _ _
  | .remu _ _ _ => none
  | .fence _ _ _ _ _ | .ecall | .ebreak | .mret | .inv _ => none
  | .csrrw _ _ _ | .csrrs _ _ _ | .csrrc _ _ _ | .csrrwi _ _ _ | .csrrsi _ _ _ | .csrrci _ _ _ => none

/-- What one step outputs. -/
structure StepOutput where
  trapEvent : TrapEvent
  jump : Option JumpClass
  deriving DecidableEq, Repr

/-- The outputs of the step taken in `s`. A step that faults at fetch outputs `none`, and so does no step at all. -/
def stepOutput (s : State) : StepOutput :=
  match s.run, s.fetch with
  | .running, .ok w => ⟨trapEventOf (decodeWord s.cfg.csrExtOps w) s, jumpClassOf (decodeWord s.cfg.csrExtOps w) s⟩
  | _, _ => ⟨.none, none⟩

end Sys2Proof.Machine
end

