-- ==== Sys2Proof/Machine/Monitor.lean ====
section
/-! DEFINITION. The host's operations on the block (60_exceptions.md R290): reset, step(n), and the reads. There is no
other, and none but reset changes guest state outside a step (R293). -/

namespace Sys2Proof.Machine

/-- Copy an image into Guest Memory from an address up (70_reset_and_hazards.md R300). -/
def loadImage (m : Memory) (a : Nat) : List Byte → Memory
  | [] => m
  | b :: image => loadImage (m.setByte a b) (a + 1) image

/-- `reset(image, load_addr)`, the load address being `RESET_PC` where none is given (R290; 70_reset_and_hazards.md
R300). An image that Guest Memory does not hold whole is
not loaded: there is no state then (DESIGN CHOICE, log 11). -/
def hostReset (cfg : Config) (l : Launch) (image : List Byte) (loadAddr : Option Word) : Option State :=
  let a := loadAddr.getD cfg.resetPc
  if inGuestMemory cfg a image.length then
    some { State.launch cfg l with mem := loadImage l.memInit a.toNat image }
  else none

/-- `step(n)`: at most `n` steps, while `run` is Running (R291). -/
def stepN : Nat → State → State
  | 0, s => s
  | n + 1, s =>
    match step s with
    | .next t => stepN n t
    | .fault _ => s
    | .refused _ => s

/-- What `step(n)` gives the host per step, in order (R290, R268, R297). -/
def stepOutputs : Nat → State → List StepOutput
  | 0, _ => []
  | n + 1, s =>
    match step s with
    | .next t => stepOutput s :: stepOutputs n t
    | .fault _ => []
    | .refused _ => []

/-- `read_reg(i)`. -/
def hostReadReg (s : State) (r : RegNum) : Word := s.reg r

/-- `read_pc()`. -/
def hostReadPc (s : State) : Word := s.pc

/-- `read_csr(c)` with `c` a number: nothing for a number that names no CSR (log 20). -/
def hostReadCsr (s : State) (n : CsrNum) : Option Word := (csrOfNumber n).map s.readCsr

/-- The CSR name table (10_state.md R30). -/
def csrNames : List (String × Csr) :=
  [("mstatus", .mstatus), ("mtvec", .mtvec), ("mepc", .mepc), ("mcause", .mcause)]

/-- `read_csr(c)` with `c` a name (R290, 10_state.md R30): nothing for a name that names no CSR (log 20). -/
def hostReadCsrName (s : State) (name : String) : Option Word := (csrNames.lookup name).map s.readCsr

/-- `read_mem(a, w)`: its failure is reported to the host, not to the run (R290, R296). -/
def hostReadMem (s : State) (a : Word) (n : Width) : Except AbortReason Word := s.memRead a n

/-- The register name table (10_state.md R21). -/
def registerNames : List (String × RegNum) :=
  [("zero", 0#5), ("$0", 0#5), ("ra", 1#5), ("sp", 2#5), ("gp", 3#5), ("tp", 4#5), ("t0", 5#5), ("t1", 6#5), ("t2", 7#5)]
  ++ [("s0", 8#5), ("fp", 8#5), ("s1", 9#5), ("a0", 10#5), ("a1", 11#5), ("a2", 12#5), ("a3", 13#5), ("a4", 14#5)]
  ++ [("a5", 15#5), ("a6", 16#5), ("a7", 17#5), ("s2", 18#5), ("s3", 19#5), ("s4", 20#5), ("s5", 21#5), ("s6", 22#5)]
  ++ [("s7", 23#5), ("s8", 24#5), ("s9", 25#5), ("s10", 26#5), ("s11", 27#5), ("t3", 28#5), ("t4", 29#5), ("t5", 30#5)]
  ++ [("t6", 31#5)]

/-- A register by name: "by exact name match against a fixed name table; one name is special-cased to mean the program
counter", with the two spellings R21 gives it (10_state.md R21; log 13). -/
def hostReadName (s : State) (name : String) : Option Word :=
  if name = "pc" ∨ name = "$pc" then some s.pc else (registerNames.lookup name).map s.reg

end Sys2Proof.Machine
end

