-- ==== Sys2Proof/Safety.lean ====
section
/-! DEFINITION. The invariant of the machine, and what a run is in the terms claims use (60_exceptions.md R291, R298).
A run is safe when no fatal fault ends it (R260). -/

namespace Sys2Proof.Machine

/-- Every listed byte lies in Guest Memory: "No address outside that range holds a byte" (20_memory.md R50). -/
def State.memInRange (s : State) : Bool :=
  s.mem.within s.cfg.memBase.toNat (s.cfg.memBase.toNat + s.cfg.memSize)

/-- The invariant: memory is in its canonical form and lies in Guest Memory, and the slot of `x0` holds 0 (10_state.md
R23, R24). Every step keeps it, and every reset has it. -/
def State.inv (s : State) : Bool := s.mem.wf && s.memInRange && s.regs[0] == 0#32

/-- `t` is a state of the run that starts in `s`. -/
inductive Reaches : State → State → Prop where
  | refl (s : State) : Reaches s s
  | step {s t u : State} : Reaches s t → step t = .next u → Reaches s u

/-- A run ends when `run` is Halted or Aborted (60_exceptions.md R298). -/
def State.ended (s : State) : Bool :=
  match s.run with
  | .running => false
  | .halted _ _ => true
  | .aborted _ _ => true

/-- A fatal fault ended the run. -/
def State.isAborted (s : State) : Bool :=
  match s.run with
  | .running => false
  | .halted _ _ => false
  | .aborted _ _ => true

/-- The run from `s` ends in `t` (60_exceptions.md R298). -/
def RunEndsIn (s t : State) : Prop := (∃ n, stepN n s = t) ∧ t.ended = true

/-- No fatal fault ever ends the run from `s`. -/
def SafeRun (s : State) : Prop := ∀ n, (stepN n s).isAborted = false

end Sys2Proof.Machine
end

