-- ==== Sys2Proof/WellFormed.lean ====
section
/-! DEFINITION. Which terms of `Instr` an instruction word can spell: each immediate is one its format can assemble
(30_encoding.md R87 to R91), the four optional CSR instructions are present (R99), and an INV's word is one that no
other row spells. The last check is read off the opcode MAP of R95, not off the decoder's table of masks, so that the
agreement of the two is a theorem and not a definition. -/

namespace Sys2Proof

/-- I and S immediates: -2048 .. 2047, sign-extended from 12 bits (30_encoding.md R87, R88). -/
def fitsImm12 (imm : Word) : Bool := (imm.setWidth 12).signExtend 32 == imm

/-- B immediates: even, -4096 .. 4094 (30_encoding.md R89). -/
def fitsImmB (imm : Word) : Bool := (imm.setWidth 13).signExtend 32 == imm && !imm.getLsbD 0

/-- U immediates: the low 12 bits are zero (30_encoding.md R90). -/
def fitsImmU (imm : Word) : Bool := imm.setWidth 12 == 0#12

/-- J immediates: even, -1048576 .. 1048574 (30_encoding.md R91). -/
def fitsImmJ (imm : Word) : Bool := (imm.setWidth 21).signExtend 32 == imm && !imm.getLsbD 0

/-- Does the word spell an instruction other than INV? The major and minor opcode map of 30_encoding.md R95, with
`ext` the parameter `CSR_EXT_OPS`. -/
def implementedWord (ext : Bool) (w : Word) : Bool :=
  let funct3 := w.extractLsb' 12 3
  let funct7 := w.extractLsb' 25 7
  match w.extractLsb' 0 7 with
  | 0b0110111#7 => true                                             -- LUI
  | 0b0010111#7 => true                                             -- AUIPC
  | 0b1101111#7 => true                                             -- JAL
  | 0b1100111#7 => funct3 == 0b000#3                                -- JALR
  | 0b1100011#7 => !(funct3 == 0b010#3 || funct3 == 0b011#3)        -- BRANCH
  | 0b0000011#7 => !(funct3 == 0b011#3 || funct3 == 0b110#3 || funct3 == 0b111#3)   -- LOAD
  | 0b0100011#7 => funct3 == 0b000#3 || funct3 == 0b001#3 || funct3 == 0b010#3      -- STORE
  | 0b0010011#7 =>                                                  -- OP-IMM
    if funct3 == 0b001#3 then funct7 == 0b0000000#7
    else if funct3 == 0b101#3 then funct7 == 0b0000000#7 || funct7 == 0b0100000#7
    else true
  | 0b0110011#7 =>                                                  -- OP
    funct7 == 0b0000000#7 || funct7 == 0b0000001#7
      || (funct7 == 0b0100000#7 && (funct3 == 0b000#3 || funct3 == 0b101#3))
  | 0b0001111#7 => funct3 == 0b000#3                                -- MISC-MEM
  | 0b1110011#7 =>                                                  -- SYSTEM
    w == 0x00000073#32 || w == 0x00100073#32 || w == 0x30200073#32
      || funct3 == 0b001#3 || funct3 == 0b010#3
      || (ext && (funct3 == 0b011#3 || funct3 == 0b101#3 || funct3 == 0b110#3 || funct3 == 0b111#3))
  | _ => false

/-- The instruction is one that a word of a machine with `CSR_EXT_OPS` = `ext` spells. -/
def Instr.wf (ext : Bool) : Instr → Bool
  | .lui _ imm | .auipc _ imm => fitsImmU imm
  | .jal _ imm => fitsImmJ imm
  | .jalr _ _ imm => fitsImm12 imm
  | .beq _ _ imm | .bne _ _ imm | .blt _ _ imm | .bge _ _ imm | .bltu _ _ imm | .bgeu _ _ imm => fitsImmB imm
  | .lb _ _ imm | .lh _ _ imm | .lw _ _ imm | .lbu _ _ imm | .lhu _ _ imm => fitsImm12 imm
  | .sb _ _ imm | .sh _ _ imm | .sw _ _ imm => fitsImm12 imm
  | .addi _ _ imm | .slti _ _ imm | .sltiu _ _ imm | .xori _ _ imm | .ori _ _ imm | .andi _ _ imm => fitsImm12 imm
  | .slli _ _ _ | .srli _ _ _ | .srai _ _ _ => true
  | .add _ _ _ | .sub _ _ _ | .sll _ _ _ | .slt _ _ _ | .sltu _ _ _ | .xor _ _ _ | .srl _ _ _ | .sra _ _ _
  | .or _ _ _ | .and _ _ _ => true
  | .mul _ _ _ | .mulh _ _ _ | .mulhsu _ _ _ | .mulhu _ _ _ | .div _ _ _ | .divu _ _ _ | .rem _ _ _
  | .remu _ _ _ => true
  | .fence _ _ _ _ _ | .ecall | .ebreak | .mret => true
  | .csrrw _ _ _ | .csrrs _ _ _ => true
  | .csrrc _ _ _ | .csrrwi _ _ _ | .csrrsi _ _ _ | .csrrci _ _ _ => ext
  | .inv raw => !implementedWord ext raw

end Sys2Proof
end

