-- ==== Sys2Proof/Certificates/Slice0/Obligations.lean ====
section
/-! DEFINITION. The statements for the provers, and above them the few predicates they are written in. Nothing is proved
here. -/

namespace Sys2Proof.Machine

/-! ### What the statements say of two states, and of an outcome -/

/-- Every general register reads the same. -/
def SameRegs (s t : State) : Prop := ∀ r, t.reg r = s.reg r

/-- The four CSRs are the same. -/
def SameCsrs (s t : State) : Prop :=
  t.mstatus = s.mstatus ∧ t.mtvec = s.mtvec ∧ t.mepc = s.mepc ∧ t.mcause = s.mcause

/-- Every byte of memory reads the same. -/
def SameMemory (s t : State) : Prop := ∀ a, t.mem.byte a = s.mem.byte a

/-- The outcome is a next state in which `rd` reads `v` (`x0` still 0), the pc is `pc'`, and nothing else differs. -/
def WritesRegister (o : Result) (s : State) (rd : RegNum) (v pc' : Word) : Prop :=
  ∃ t, o = .next t ∧ (∀ r, t.reg r = if r = 0#5 then 0#32 else if r = rd then v else s.reg r) ∧ t.pc = pc'
    ∧ SameCsrs s t ∧ SameMemory s t ∧ t.run = s.run ∧ t.cfg = s.cfg

/-- The outcome is a next state in which only the pc may differ: it is `pc'`. -/
def ChangesOnlyPc (o : Result) (s : State) (pc' : Word) : Prop :=
  ∃ t, o = .next t ∧ SameRegs s t ∧ t.pc = pc' ∧ SameCsrs s t ∧ SameMemory s t ∧ t.run = s.run ∧ t.cfg = s.cfg

/-- The outcome is the next state of a fatal fault: the state as it was, pc included, and `run` Aborted with the reason
and the pc. -/
def AbortsWith (o : Result) (s : State) (reason : AbortReason) : Prop :=
  o = .next { s with run := .aborted reason s.pc }

/-- The outcome is a next state in which the `n` bytes from `ea` up hold the low bytes of `v`, little-endian, every other
byte reads as before, the pc is `pc + 4`, and nothing else differs. -/
def StoresBytes (o : Result) (s : State) (ea : Word) (n : Nat) (v : Word) : Prop :=
  ∃ t, o = .next t
    ∧ (∀ k, k < n → t.mem.byte (ea.toNat + k) = v.extractLsb' (8 * k) 8)
    ∧ (∀ a, a < ea.toNat ∨ ea.toNat + n ≤ a → t.mem.byte a = s.mem.byte a)
    ∧ SameRegs s t ∧ t.pc = s.pc + 4#32 ∧ SameCsrs s t ∧ t.run = s.run ∧ t.cfg = s.cfg

/-- The `n`-byte data access at `ea` is allowed: in Guest Memory, and aligned where `ALIGN_CHECK` asks. -/
def AccessAllowed (s : State) (ea : Word) (n : Nat) : Prop :=
  s.cfg.memBase.toNat ≤ ea.toNat ∧ ea.toNat + n ≤ s.cfg.memBase.toNat + s.cfg.memSize
    ∧ (s.cfg.alignCheck = true → ea.toNat % n = 0)

/-- What an `n`-byte data access that is not allowed does: MisalignedAccess first, then AccessFault. -/
def AccessFaults (o : Result) (s : State) (ea : Word) (n : Nat) : Prop :=
  (s.cfg.alignCheck = true → ea.toNat % n ≠ 0 → AbortsWith o s (.misalignedAccess ea)) ∧
  ((s.cfg.alignCheck = true → ea.toNat % n = 0) →
    ea.toNat < s.cfg.memBase.toNat ∨ s.cfg.memBase.toNat + s.cfg.memSize < ea.toNat + n →
    AbortsWith o s (.accessFault ea))

/-! ### What the statements say of words -/

/-- Every word with this opcode spells the instruction `i w`, whatever `CSR_EXT_OPS` is. -/
def SpelledByOpcode (opcode : BitVec 7) (i : Word → Instr) : Prop :=
  ∀ ext w, w.extractLsb' 0 7 = opcode → decodeWord ext w = i w

/-- Every word with this opcode and funct3 spells the instruction `i w`, whatever `CSR_EXT_OPS` is. -/
def SpelledByFunct3 (opcode : BitVec 7) (funct3 : BitVec 3) (i : Word → Instr) : Prop :=
  ∀ ext w, w.extractLsb' 0 7 = opcode → w.extractLsb' 12 3 = funct3 → decodeWord ext w = i w

/-- Every word with this opcode, funct3 and funct7 spells the instruction `i w`, whatever `CSR_EXT_OPS` is. -/
def SpelledByFunct7 (opcode : BitVec 7) (funct3 : BitVec 3) (funct7 : BitVec 7) (i : Word → Instr) : Prop :=
  ∀ ext w, w.extractLsb' 0 7 = opcode → w.extractLsb' 12 3 = funct3 → w.extractLsb' 25 7 = funct7 →
    decodeWord ext w = i w

/-- Every word with the SYSTEM opcode and this funct3 spells the instruction `i w` when `CSR_EXT_OPS` is true, and is
INV when it is false. -/
def SpelledWithExtOps (funct3 : BitVec 3) (i : Word → Instr) : Prop :=
  ∀ w, w.extractLsb' 0 7 = 0b1110011#7 → w.extractLsb' 12 3 = funct3 →
    decodeWord true w = i w ∧ decodeWord false w = .inv w

/-! ### What the statements say of an instruction -/

/-- The register a rule writes, if its rule writes one (10_state.md R22). -/
def destOf : Instr → Option RegNum
  | .lui rd _ | .auipc rd _ | .jal rd _ | .jalr rd _ _ => some rd
  | .beq _ _ _ | .bne _ _ _ | .blt _ _ _ | .bge _ _ _ | .bltu _ _ _ | .bgeu _ _ _ => none
  | .lb rd _ _ | .lh rd _ _ | .lw rd _ _ | .lbu rd _ _ | .lhu rd _ _ => some rd
  | .sb _ _ _ | .sh _ _ _ | .sw _ _ _ => none
  | .addi rd _ _ | .slti rd _ _ | .sltiu rd _ _ | .xori rd _ _ | .ori rd _ _ | .andi rd _ _ => some rd
  | .slli rd _ _ | .srli rd _ _ | .srai rd _ _ => some rd
  | .add rd _ _ | .sub rd _ _ | .sll rd _ _ | .slt rd _ _ | .sltu rd _ _ | .xor rd _ _ | .srl rd _ _ | .sra rd _ _
  | .or rd _ _ | .and rd _ _ => some rd
  | .mul rd _ _ | .mulh rd _ _ | .mulhsu rd _ _ | .mulhu rd _ _ | .div rd _ _ | .divu rd _ _ | .rem rd _ _
  | .remu rd _ _ => some rd
  | .fence _ _ _ _ _ | .ecall | .ebreak | .mret | .inv _ => none
  | .csrrw rd _ _ | .csrrs rd _ _ | .csrrc rd _ _ | .csrrwi rd _ _ | .csrrsi rd _ _ | .csrrci rd _ _ => some rd

/-- The instructions whose action may write `dnpc` (30_encoding.md R97). -/
def redirects : Instr → Bool
  | .lui _ _ | .auipc _ _ => false
  | .jal _ _ | .jalr _ _ _ => true
  | .beq _ _ _ | .bne _ _ _ | .blt _ _ _ | .bge _ _ _ | .bltu _ _ _ | .bgeu _ _ _ => true
  | .lb _ _ _ | .lh _ _ _ | .lw _ _ _ | .lbu _ _ _ | .lhu _ _ _ => false
  | .sb _ _ _ | .sh _ _ _ | .sw _ _ _ => false
  | .addi _ _ _ | .slti _ _ _ | .sltiu _ _ _ | .xori _ _ _ | .ori _ _ _ | .andi _ _ _ => false
  | .slli _ _ _ | .srli _ _ _ | .srai _ _ _ => false
  | .add _ _ _ | .sub _ _ _ | .sll _ _ _ | .slt _ _ _ | .sltu _ _ _ | .xor _ _ _ | .srl _ _ _ | .sra _ _ _
  | .or _ _ _ | .and _ _ _ => false
  | .mul _ _ _ | .mulh _ _ _ | .mulhsu _ _ _ | .mulhu _ _ _ | .div _ _ _ | .divu _ _ _ | .rem _ _ _
  | .remu _ _ _ => false
  | .ecall | .mret => true
  | .fence _ _ _ _ _ | .ebreak | .inv _ => false
  | .csrrw _ _ _ | .csrrs _ _ _ | .csrrc _ _ _ | .csrrwi _ _ _ | .csrrsi _ _ _ | .csrrci _ _ _ => false

/-- The stores. -/
def isStore : Instr → Bool
  | .lui _ _ | .auipc _ _ | .jal _ _ | .jalr _ _ _ => false
  | .beq _ _ _ | .bne _ _ _ | .blt _ _ _ | .bge _ _ _ | .bltu _ _ _ | .bgeu _ _ _ => false
  | .lb _ _ _ | .lh _ _ _ | .lw _ _ _ | .lbu _ _ _ | .lhu _ _ _ => false
  | .sb _ _ _ | .sh _ _ _ | .sw _ _ _ => true
  | .addi _ _ _ | .slti _ _ _ | .sltiu _ _ _ | .xori _ _ _ | .ori _ _ _ | .andi _ _ _ => false
  | .slli _ _ _ | .srli _ _ _ | .srai _ _ _ => false
  | .add _ _ _ | .sub _ _ _ | .sll _ _ _ | .slt _ _ _ | .sltu _ _ _ | .xor _ _ _ | .srl _ _ _ | .sra _ _ _
  | .or _ _ _ | .and _ _ _ => false
  | .mul _ _ _ | .mulh _ _ _ | .mulhsu _ _ _ | .mulhu _ _ _ | .div _ _ _ | .divu _ _ _ | .rem _ _ _
  | .remu _ _ _ => false
  | .fence _ _ _ _ _ | .ecall | .ebreak | .mret | .inv _ => false
  | .csrrw _ _ _ | .csrrs _ _ _ | .csrrc _ _ _ | .csrrwi _ _ _ | .csrrsi _ _ _ | .csrrci _ _ _ => false

/-- The instructions whose rule names an exception that aborts the run: the loads, the stores, the CSR instructions and
INV (42_loadstore.md R181 to R188, 44_system.md R240, R241). -/
def mayAbort : Instr → Bool
  | .lui _ _ | .auipc _ _ | .jal _ _ | .jalr _ _ _ => false
  | .beq _ _ _ | .bne _ _ _ | .blt _ _ _ | .bge _ _ _ | .bltu _ _ _ | .bgeu _ _ _ => false
  | .lb _ _ _ | .lh _ _ _ | .lw _ _ _ | .lbu _ _ _ | .lhu _ _ _ | .sb _ _ _ | .sh _ _ _ | .sw _ _ _ => true
  | .addi _ _ _ | .slti _ _ _ | .sltiu _ _ _ | .xori _ _ _ | .ori _ _ _ | .andi _ _ _ => false
  | .slli _ _ _ | .srli _ _ _ | .srai _ _ _ => false
  | .add _ _ _ | .sub _ _ _ | .sll _ _ _ | .slt _ _ _ | .sltu _ _ _ | .xor _ _ _ | .srl _ _ _ | .sra _ _ _
  | .or _ _ _ | .and _ _ _ => false
  | .mul _ _ _ | .mulh _ _ _ | .mulhsu _ _ _ | .mulhu _ _ _ | .div _ _ _ | .divu _ _ _ | .rem _ _ _
  | .remu _ _ _ => false
  | .fence _ _ _ _ _ | .ecall | .ebreak | .mret => false
  | .inv _ => true
  | .csrrw _ _ _ | .csrrs _ _ _ | .csrrc _ _ _ | .csrrwi _ _ _ | .csrrsi _ _ _ | .csrrci _ _ _ => true

/-- The CSR number an instruction names. -/
def csrNumberOf : Instr → Option CsrNum
  | .lui _ _ | .auipc _ _ | .jal _ _ | .jalr _ _ _ => none
  | .beq _ _ _ | .bne _ _ _ | .blt _ _ _ | .bge _ _ _ | .bltu _ _ _ | .bgeu _ _ _ => none
  | .lb _ _ _ | .lh _ _ _ | .lw _ _ _ | .lbu _ _ _ | .lhu _ _ _ | .sb _ _ _ | .sh _ _ _ | .sw _ _ _ => none
  | .addi _ _ _ | .slti _ _ _ | .sltiu _ _ _ | .xori _ _ _ | .ori _ _ _ | .andi _ _ _ => none
  | .slli _ _ _ | .srli _ _ _ | .srai _ _ _ => none
  | .add _ _ _ | .sub _ _ _ | .sll _ _ _ | .slt _ _ _ | .sltu _ _ _ | .xor _ _ _ | .srl _ _ _ | .sra _ _ _
  | .or _ _ _ | .and _ _ _ => none
  | .mul _ _ _ | .mulh _ _ _ | .mulhsu _ _ _ | .mulhu _ _ _ | .div _ _ _ | .divu _ _ _ | .rem _ _ _
  | .remu _ _ _ => none
  | .fence _ _ _ _ _ | .ecall | .ebreak | .mret | .inv _ => none
  | .csrrw _ csr _ | .csrrs _ csr _ | .csrrc _ csr _ | .csrrwi _ csr _ | .csrrsi _ csr _ | .csrrci _ csr _ => some csr

/-- A CSR instruction that reads `old` and writes `new old`: `rd` reads the old value, the named CSR holds the new one,
the pc is `pc + 4`, and nothing else differs. -/
def AccessesCsr (o : Result) (s : State) (rd : RegNum) (csr : CsrNum) (new : Word → Word) : Prop :=
  ∀ old, (csr = 0x300#12 ∧ old = s.mstatus) ∨ (csr = 0x305#12 ∧ old = s.mtvec) ∨ (csr = 0x341#12 ∧ old = s.mepc)
      ∨ (csr = 0x342#12 ∧ old = s.mcause) →
    ∃ t, o = .next t ∧ (∀ r, t.reg r = if r = 0#5 then 0#32 else if r = rd then old else s.reg r)
      ∧ t.pc = s.pc + 4#32
      ∧ t.mstatus = (if csr = 0x300#12 then new old else s.mstatus)
      ∧ t.mtvec = (if csr = 0x305#12 then new old else s.mtvec)
      ∧ t.mepc = (if csr = 0x341#12 then new old else s.mepc)
      ∧ t.mcause = (if csr = 0x342#12 then new old else s.mcause)
      ∧ SameMemory s t ∧ t.run = s.run ∧ t.cfg = s.cfg

/-- The `decoded_fields` of a word by the table of 30_encoding.md R86, its immediates by R87 to R91, an unpopulated slot
0 (R92), and `rd` inst[11:7] for every format. -/
def fieldsByFormat (f : Format) (w : Word) (s : State) : Operands :=
  let src1 := s.reg (w.extractLsb' 15 5)
  let src2 := s.reg (w.extractLsb' 20 5)
  match f with
  | .r => { rd := w.extractLsb' 7 5, src1 := src1, src2 := src2, imm := 0#32 }
  | .i => { rd := w.extractLsb' 7 5, src1 := src1, src2 := 0#32, imm := immI w }
  | .s => { rd := w.extractLsb' 7 5, src1 := src1, src2 := src2, imm := immS w }
  | .b => { rd := w.extractLsb' 7 5, src1 := src1, src2 := src2, imm := immB w }
  | .u => { rd := w.extractLsb' 7 5, src1 := 0#32, src2 := 0#32, imm := immU w }
  | .j => { rd := w.extractLsb' 7 5, src1 := 0#32, src2 := 0#32, imm := immJ w }
  | .none => { rd := w.extractLsb' 7 5, src1 := 0#32, src2 := 0#32, imm := 0#32 }

/-- The CSR number is one of the four implemented ones. -/
def ImplementedCsr (csr : CsrNum) : Prop := csr = 0x300#12 ∨ csr = 0x305#12 ∨ csr = 0x341#12 ∨ csr = 0x342#12

/-- Run a list of instructions one after the other from a state, each by `exec`. -/
def execAll : List Instr → State → Result
  | [], s => .next s
  | i :: is, s =>
    match exec i s with
    | .next t => execAll is t
    | .fault f => .fault f
    | .refused r => .refused r

end Sys2Proof.Machine

open Sys2Proof Sys2Proof.Machine

/-! ### Reset and the host interface -/

/-- 70_reset_and_hazards.md R300, 10_state.md R40: what a reset leaves, for every configuration, launch parameter, image
and load address; an image that Guest Memory holds is loaded, at `RESET_PC` where no address is given. -/
def Obligations.HostResetSetsEveryPieceOfState : Prop :=
  (∀ (cfg : Config) (l : Launch) (image : List Byte),
    hostReset cfg l image none = hostReset cfg l image (some cfg.resetPc))
  ∧ ∀ (cfg : Config) (l : Launch) (image : List Byte) (a : Word), l.memInit.wf = true →
    cfg.memBase.toNat ≤ a.toNat → a.toNat + image.length ≤ cfg.memBase.toNat + cfg.memSize →
    ∃ s, hostReset cfg l image (some a) = some s
      ∧ s.reg 0#5 = 0#32 ∧ (∀ r : RegNum, r ≠ 0#5 → s.reg r = l.gprInit[r.toNat]'r.isLt)
      ∧ s.pc = cfg.resetPc ∧ s.mstatus = cfg.mstatusReset
      ∧ s.mepc = l.mepc ∧ s.mcause = l.mcause ∧ s.mtvec = l.mtvec
      ∧ s.run = .running ∧ s.cfg = cfg
      ∧ (∀ k (h : k < image.length), s.mem.byte (a.toNat + k) = image[k])
      ∧ (∀ b, b < a.toNat ∨ a.toNat + image.length ≤ b → s.mem.byte b = l.memInit.byte b)
      ∧ (cfg = Config.reference → s.pc = 0x80000000#32 ∧ s.mstatus = 0x00001800#32)

/-- State.reset is the reference instance of the launch parameters (the model's choice of it: log 2, 3 and 4) with no
image loaded. -/
def Obligations.ResetIsTheReferenceLaunch : Prop :=
  State.reset.pc = 0x80000000#32 ∧ State.reset.mstatus = 0x00001800#32 ∧ State.reset.run = .running
    ∧ (∀ r, State.reset.reg r = 0#32)
    ∧ State.reset.mepc = 0#32 ∧ State.reset.mcause = 0#32 ∧ State.reset.mtvec = 0#32
    ∧ (∀ a, State.reset.mem.byte a = 0#8) ∧ State.reset.cfg = Config.reference

/-- The invariant holds after every reset: State.reset, and every launch whose memory is a canonical one in Guest
Memory. -/
def Obligations.ResetHasTheInvariant : Prop :=
  State.reset.inv = true ∧
  ∀ (cfg : Config) (l : Launch) (image : List Byte) (a : Option Word) (s : State), l.memInit.wf = true →
    l.memInit.within cfg.memBase.toNat (cfg.memBase.toNat + cfg.memSize) = true →
    hostReset cfg l image a = some s → s.inv = true

/-- The invariant is inductive: the canonical form of memory, memory inside Guest Memory, the slot of `x0` at 0. -/
def Obligations.StepKeepsTheInvariant : Prop :=
  ∀ s t : State, s.inv = true → step s = .next t → t.inv = true

/-- 60_exceptions.md R291: a step call when the run has ended executes nothing; the machine's own step then answers a
Fault, which is this model's way to say it (log 5). -/
def Obligations.EndedRunExecutesNothing : Prop :=
  ∀ (s : State) (n : Nat), s.ended = true →
    stepN n s = s ∧ stepOutputs n s = [] ∧ ∃ f, step s = .fault f

/-- 60_exceptions.md R291: step(n) takes at most n steps, one after the other, and returns early when the run leaves
Running; a step call when the run is Halted or Aborted executes nothing; a call that stopped changes nothing by
stopping, and a later call continues from there. -/
def Obligations.StepCallTakesUpToNSteps : Prop :=
  (∀ s, stepN 0 s = s ∧ stepOutputs 0 s = [])
  ∧ (∀ (n : Nat) (s : State), s.run = .running → ∃ t, step s = .next t ∧ stepN (n + 1) s = stepN n t
      ∧ stepOutputs (n + 1) s = stepOutput s :: stepOutputs n t)
  ∧ (∀ (n : Nat) (s : State), s.ended = true → stepN n s = s ∧ stepOutputs n s = [])
  ∧ ∀ (m n : Nat) (s : State), stepN (m + n) s = stepN n (stepN m s)
      ∧ stepOutputs (m + n) s = stepOutputs m s ++ stepOutputs n (stepN m s)

/-- 60_exceptions.md R290: what the host's reads answer: every register by its number, the pc, the four CSRs by number
and by name (10_state.md R30), and 1, 2 or 4 bytes of Guest Memory, or a failure to the host outside it. The register
names are those of the table of 10_state.md R21, which the model presumes as the spec does (log 13). No other CSR exists (10_state.md R29, R30); that a read of another number
answers nothing is the model's choice (log 20). -/
def Obligations.HostReadsAnswerTheState : Prop :=
  ∀ (s : State), hostReadPc s = s.pc
    ∧ (∀ r : RegNum, hostReadReg s r = if r = 0#5 then 0#32 else s.regs[r.toNat]'r.isLt)
    ∧ hostReadName s "pc" = some s.pc ∧ hostReadName s "$pc" = some s.pc
    ∧ (∀ (name : String) (r : RegNum), (name, r) ∈
        [("zero", 0#5), ("$0", 0#5), ("ra", 1#5), ("sp", 2#5), ("gp", 3#5), ("tp", 4#5), ("t0", 5#5), ("t1", 6#5)]
        ++ [("t2", 7#5), ("s0", 8#5), ("fp", 8#5), ("s1", 9#5), ("a0", 10#5), ("a1", 11#5), ("a2", 12#5), ("a3", 13#5)]
        ++ [("a4", 14#5), ("a5", 15#5), ("a6", 16#5), ("a7", 17#5), ("s2", 18#5), ("s3", 19#5), ("s4", 20#5)]
        ++ [("s5", 21#5), ("s6", 22#5), ("s7", 23#5), ("s8", 24#5), ("s9", 25#5), ("s10", 26#5), ("s11", 27#5)]
        ++ [("t3", 28#5), ("t4", 29#5), ("t5", 30#5), ("t6", 31#5)] →
        hostReadName s name = some (hostReadReg s r))
    ∧ hostReadCsr s 0x300#12 = some s.mstatus ∧ hostReadCsr s 0x305#12 = some s.mtvec
    ∧ hostReadCsr s 0x341#12 = some s.mepc ∧ hostReadCsr s 0x342#12 = some s.mcause
    ∧ (∀ n, ¬ ImplementedCsr n → hostReadCsr s n = none)
    ∧ hostReadCsrName s "mstatus" = some s.mstatus ∧ hostReadCsrName s "mtvec" = some s.mtvec
    ∧ hostReadCsrName s "mepc" = some s.mepc ∧ hostReadCsrName s "mcause" = some s.mcause
    ∧ (∀ (a : Word) (n : Width), hostReadMem s a n =
        if s.cfg.memBase.toNat ≤ a.toNat ∧ a.toNat + n.bytes ≤ s.cfg.memBase.toNat + s.cfg.memSize
        then .ok (s.mem.readLE a.toNat n) else .error (.accessFault a))

/-! ### Encoding -/

/-- 30_encoding.md R103: decode of encode is the instruction, with every field at every value its encoding admits, for
every instruction of the table and both values of `CSR_EXT_OPS`. -/
def Obligations.DecodeOfEncodeIsTheInstruction : Prop :=
  ∀ (ext : Bool) (i : Instr), i.wf ext = true → decodeWord ext (encode i) = i

/-- Every word has one meaning: it is the encoding of the well-formed instruction it decodes to. -/
def Obligations.EncodeOfDecodeIsTheWord : Prop :=
  ∀ (ext : Bool) (w : Word), encode (decodeWord ext w) = w ∧ (decodeWord ext w).wf ext = true

/-- 30_encoding.md R93, R94: the rows other than INV are pairwise disjoint, and INV, which every word matches, is last. -/
def Obligations.TableRowsAreDisjoint : Prop :=
  opcodeTable.dropLast.Pairwise (fun a b => (a.pattern ^^^ b.pattern) &&& a.mask &&& b.mask ≠ 0#32)
    ∧ opcodeTable.length = 56 ∧ ∀ w, (opcodeTable[55]?.map fun r => (r.mnemonic, r.takes false w)) = some ("INV", true)

/-- 30_encoding.md R95, R96, R99: with no row but INV matching (by the opcode map of R95) the word is INV, and only then. -/
def Obligations.WordIsInvIffTheOpcodeMapSaysSo : Prop :=
  ∀ (ext : Bool) (w : Word), decodeWord ext w = .inv w ↔ implementedWord ext w = false

/-- 30_encoding.md R87 to R91: every bit of the five assembled immediates. -/
def Obligations.ImmediatesAreAssembledBitByBit : Prop :=
  ∀ (w : Word) (k : Nat), k < 32 →
    (immI w).getLsbD k = (if k < 11 then w.getLsbD (k + 20) else w.getLsbD 31)
    ∧ (immS w).getLsbD k = (if k < 5 then w.getLsbD (k + 7) else if k < 11 then w.getLsbD (k + 20) else w.getLsbD 31)
    ∧ (immB w).getLsbD k = (if k = 0 then false else if k < 5 then w.getLsbD (k + 7)
        else if k < 11 then w.getLsbD (k + 20) else if k = 11 then w.getLsbD 7 else w.getLsbD 31)
    ∧ (immU w).getLsbD k = (if k < 12 then false else w.getLsbD k)
    ∧ (immJ w).getLsbD k = (if k = 0 then false else if k < 11 then w.getLsbD (k + 20)
        else if k = 11 then w.getLsbD 20 else if k < 20 then w.getLsbD k else w.getLsbD 31)

/-- Thirteen words written out from the spec's encodings decode to the instructions they stand for, one or more of each
family, from 95_test_vectors.md section 2 (30_encoding.md R103); the last of them, CSRRWI's, is INV without
`CSR_EXT_OPS` (R99). -/
def Obligations.WrittenOutWordsDecode : Prop :=
  decodeWord false 0x123452B7#32 = .lui 5#5 0x12345000#32
  ∧ decodeWord false 0x001000EF#32 = .jal 1#5 2048#32
  ∧ decodeWord false 0xFFC302E7#32 = .jalr 5#5 6#5 (-4#32)
  ∧ decodeWord false 0xFE731CE3#32 = .bne 6#5 7#5 (-8#32)
  ∧ decodeWord false 0xFFC31283#32 = .lh 5#5 6#5 (-4#32)
  ∧ decodeWord false 0xFE731E23#32 = .sh 6#5 7#5 (-4#32)
  ∧ decodeWord false 0x40335293#32 = .srai 5#5 6#5 3#5
  ∧ decodeWord false 0x407302B3#32 = .sub 5#5 6#5 7#5
  ∧ decodeWord false 0x027362B3#32 = .rem 5#5 6#5 7#5
  ∧ decodeWord false 0x0FF0000F#32 = .fence 0b0000#4 0b1111#4 0b1111#4 0#5 0#5
  ∧ decodeWord false 0x30200073#32 = .mret
  ∧ decodeWord false 0x300322F3#32 = .csrrs 5#5 0x300#12 6#5
  ∧ decodeWord true 0x300352F3#32 = .csrrwi 5#5 0x300#12 6#5
  ∧ decodeWord false 0x300352F3#32 = .inv 0x300352F3#32

/-- 30_encoding.md R80, 20_memory.md R56: decoding from bytes takes the four bytes of a word as memory holds them and
leaves the rest; fewer than four bytes are refused (the model's choice: log 18). -/
def Obligations.DecodeTakesFourBytesLittleEndian : Prop :=
  ∀ (ext : Bool) (w : Word) (rest short : List Byte), short.length < 4 →
    decode ext (bytesOfWord w ++ rest) = .ok (decodeWord ext w, rest)
    ∧ decode ext short = .error (.truncated short.length)

/-! ### The instruction cycle -/

/-- 30_encoding.md R98, 20_memory.md R60: a step of a running machine fetches the four bytes at the pc, little-endian and
with no alignment check, and runs the instruction they decode to. Nothing is added around `exec`. -/
def Obligations.StepRunsTheFetchedInstruction : Prop :=
  ∀ (s : State) (i : Instr), s.run = .running →
    s.cfg.memBase.toNat ≤ s.pc.toNat → s.pc.toNat + 4 ≤ s.cfg.memBase.toNat + s.cfg.memSize →
    decode s.cfg.csrExtOps [s.mem.byte s.pc.toNat, s.mem.byte (s.pc.toNat + 1), s.mem.byte (s.pc.toNat + 2),
      s.mem.byte (s.pc.toNat + 3)] = .ok (i, []) →
    step s = exec i s

/-- A word placed at the pc is what the very next step runs: for every well-formed instruction, on every state whose
memory is canonical and whose pc Guest Memory holds. -/
def Obligations.PlacedWordIsRunNext : Prop :=
  ∀ (s : State) (i : Instr), s.mem.wf = true → i.wf s.cfg.csrExtOps = true →
    s.cfg.memBase.toNat ≤ s.pc.toNat → s.pc.toNat + 4 ≤ s.cfg.memBase.toNat + s.cfg.memSize →
    step (s.withFetchWord 32 (encode i).toNat) = exec i (s.withFetchWord 32 (encode i).toNat)

/-- 20_memory.md R60: every step reads the four bytes at the pc, little-endian, whatever the pc's alignment and
`ALIGN_CHECK`; a fetch that touches a byte outside Guest Memory aborts with AccessFault(pc), before decode, and changes
nothing else. -/
def Obligations.EveryStepFetchesFourBytesAtThePc : Prop :=
  ∀ s : State, s.run = .running →
    (s.cfg.memBase.toNat ≤ s.pc.toNat → s.pc.toNat + 4 ≤ s.cfg.memBase.toNat + s.cfg.memSize →
      step s = exec (decodeWord s.cfg.csrExtOps (s.mem.byte (s.pc.toNat + 3) ++ s.mem.byte (s.pc.toNat + 2)
        ++ s.mem.byte (s.pc.toNat + 1) ++ s.mem.byte s.pc.toNat)) s)
    ∧ (s.pc.toNat < s.cfg.memBase.toNat ∨ s.cfg.memBase.toNat + s.cfg.memSize < s.pc.toNat + 4 →
      AbortsWith (step s) s (.accessFault s.pc))

/-- 30_encoding.md R96, 60_exceptions.md R261: a word that no row but INV matches (by the opcode map of R95), and a CSR
instruction naming an unimplemented CSR, are fatal: nothing of the step takes effect, no CSR records it, and the run is
Aborted with InvalidInstruction and the faulting pc. -/
def Obligations.InvalidInstructionAborts : Prop :=
  ∀ (s : State) (w : Word), s.run = .running → s.fetch = .ok w →
    (implementedWord s.cfg.csrExtOps w = false → AbortsWith (step s) s .invalidInstruction)
    ∧ ∀ csr, csrNumberOf (decodeWord s.cfg.csrExtOps w) = some csr → ¬ ImplementedCsr csr →
        AbortsWith (step s) s .invalidInstruction

/-- 93_implementation_defined.md section 1: every step in Running either retires or aborts; no step is stuck. -/
def Obligations.EveryRunningStepGivesANextState : Prop :=
  ∀ s : State, s.run = .running → ∃ t, step s = .next t ∧ t.cfg = s.cfg
    ∧ ((t.run = .running) ∨ (∃ code, t.run = .halted code s.pc) ∨ (∃ reason, t.run = .aborted reason s.pc))

/-- 60_exceptions.md R261, R262, R264: whatever fatal fault a step takes, the state is exactly as it was before, but for
`run`, whose halt_pc is the pc of the faulting instruction. -/
def Obligations.FatalFaultCommitsNothing : Prop :=
  ∀ s t : State, s.run = .running → step s = .next t → t.isAborted = true →
    ∃ reason, t = { s with run := .aborted reason s.pc }

/-- 30_encoding.md R97: the instructions that may redirect are exactly JAL, JALR, the branches, ECALL and MRET; every
other instruction that retires leaves the pc at pc + 4. -/
def Obligations.OnlyControlTransfersRedirect : Prop :=
  ∀ (i : Instr) (s t : State), s.run = .running → exec i s = .next t → t.isAborted = false → redirects i = false →
    t.pc = s.pc + 4#32

/-- 10_state.md R22: no instruction writes a general register other than its `rd`. -/
def Obligations.OnlyTheDestinationRegisterChanges : Prop :=
  ∀ (i : Instr) (s t : State) (r : RegNum), exec i s = .next t → t.reg r ≠ s.reg r → destOf i = some r

/-- 10_state.md R24: the last write of every retiring step is x[0] <- 0, whatever the slot held before. -/
def Obligations.RetiringStepClearsRegisterZero : Prop :=
  ∀ s t : State, s.run = .running → step s = .next t → t.isAborted = false → t.regs[0] = 0#32 ∧ t.reg 0#5 = 0#32

/-- 20_memory.md R59: Guest Memory is changed by store instructions only. -/
def Obligations.OnlyStoresChangeMemory : Prop :=
  ∀ (i : Instr) (s t : State), exec i s = .next t → isStore i = false → t.mem = s.mem

/-- 10_state.md R30, R31, 60_exceptions.md R263, R267: which instructions write which CSR. Hardware writes `mstatus` by
MRET only, `mepc` and `mcause` by ECALL only, `mtvec` never; a CSR instruction writes only the CSR it names. -/
def Obligations.EachCsrHasItsWriters : Prop :=
  ∀ (i : Instr) (s t : State), exec i s = .next t →
    (t.mstatus ≠ s.mstatus → i = .mret ∨ csrNumberOf i = some 0x300#12)
    ∧ (t.mtvec ≠ s.mtvec → csrNumberOf i = some 0x305#12)
    ∧ (t.mepc ≠ s.mepc → i = .ecall ∨ csrNumberOf i = some 0x341#12)
    ∧ (t.mcause ≠ s.mcause → i = .ecall ∨ csrNumberOf i = some 0x342#12)

/-- 10_state.md R37: Halted is entered by EBREAK, with code x[EXIT_REG] and its own pc, and by nothing else. -/
def Obligations.OnlyEbreakHalts : Prop :=
  ∀ (i : Instr) (s t : State) (code haltPc : Word), s.run = .running → exec i s = .next t →
    t.run = .halted code haltPc → i = .ebreak ∧ code = s.reg s.cfg.exitReg ∧ haltPc = s.pc

/-- 60_exceptions.md R270: `mstatus` gates nothing. But for MRET and a CSR instruction that names it, an instruction does
the same whatever `mstatus` holds, and leaves it as it is. -/
def Obligations.StatusWordInfluencesNothingElse : Prop :=
  ∀ (i : Instr) (s t : State) (m : Word), i ≠ .mret → csrNumberOf i ≠ some 0x300#12 → exec i s = .next t →
    exec i { s with mstatus := m } = .next { t with mstatus := m }

/-- 20_memory.md R57: with `ALIGN_CHECK` false no step raises MisalignedAccess. -/
def Obligations.NoMisalignedAccessWithoutAlignCheck : Prop :=
  ∀ (s t : State) (a haltPc : Word), s.run = .running → s.cfg.alignCheck = false → step s = .next t →
    t.run ≠ .aborted (.misalignedAccess a) haltPc

/-! ### Integer computational instructions -/

/-- 40_integer.md R121, R122. -/
def Obligations.UpperImmediateInstructions : Prop :=
  (∀ rd imm s, WritesRegister (exec (.lui rd imm) s) s rd imm (s.pc + 4#32))
  ∧ (∀ rd imm s, WritesRegister (exec (.auipc rd imm) s) s rd (s.pc + imm) (s.pc + 4#32))
  ∧ SpelledByOpcode 0b0110111#7 (fun w => .lui (fieldRd w) (immU w))
  ∧ SpelledByOpcode 0b0010111#7 (fun w => .auipc (fieldRd w) (immU w))

/-- 40_integer.md R123 to R128. -/
def Obligations.ImmediateArithmeticInstructions : Prop :=
  (∀ (rd rs1 : RegNum) (imm : Word) (s : State),
    WritesRegister (exec (.addi rd rs1 imm) s) s rd (s.reg rs1 + imm) (s.pc + 4#32)
    ∧ WritesRegister (exec (.slti rd rs1 imm) s) s rd (if (s.reg rs1).toInt < imm.toInt then 1#32 else 0#32)
        (s.pc + 4#32)
    ∧ WritesRegister (exec (.sltiu rd rs1 imm) s) s rd (if (s.reg rs1).toNat < imm.toNat then 1#32 else 0#32)
        (s.pc + 4#32)
    ∧ WritesRegister (exec (.xori rd rs1 imm) s) s rd (s.reg rs1 ^^^ imm) (s.pc + 4#32)
    ∧ WritesRegister (exec (.ori rd rs1 imm) s) s rd (s.reg rs1 ||| imm) (s.pc + 4#32)
    ∧ WritesRegister (exec (.andi rd rs1 imm) s) s rd (s.reg rs1 &&& imm) (s.pc + 4#32))
  ∧ SpelledByFunct3 0b0010011#7 0b000#3 (fun w => .addi (fieldRd w) (fieldRs1 w) (immI w))
  ∧ SpelledByFunct3 0b0010011#7 0b010#3 (fun w => .slti (fieldRd w) (fieldRs1 w) (immI w))
  ∧ SpelledByFunct3 0b0010011#7 0b011#3 (fun w => .sltiu (fieldRd w) (fieldRs1 w) (immI w))
  ∧ SpelledByFunct3 0b0010011#7 0b100#3 (fun w => .xori (fieldRd w) (fieldRs1 w) (immI w))
  ∧ SpelledByFunct3 0b0010011#7 0b110#3 (fun w => .ori (fieldRd w) (fieldRs1 w) (immI w))
  ∧ SpelledByFunct3 0b0010011#7 0b111#3 (fun w => .andi (fieldRd w) (fieldRs1 w) (immI w))

/-- 40_integer.md R129 to R131: the amount is the 5-bit shamt. The arithmetic shift is the floor of division by a power
of two. The `imm` slot of a shift, which is not the amount, holds `shamt`, for SRAI `0x400 | shamt`. -/
def Obligations.ImmediateShiftInstructions : Prop :=
  (∀ (rd rs1 : RegNum) (shamt : BitVec 5) (s : State),
    WritesRegister (exec (.slli rd rs1 shamt) s) s rd (BitVec.ofNat 32 ((s.reg rs1).toNat * 2 ^ shamt.toNat))
        (s.pc + 4#32)
    ∧ WritesRegister (exec (.srli rd rs1 shamt) s) s rd (BitVec.ofNat 32 ((s.reg rs1).toNat / 2 ^ shamt.toNat))
        (s.pc + 4#32)
    ∧ WritesRegister (exec (.srai rd rs1 shamt) s) s rd (BitVec.ofInt 32 ((s.reg rs1).toInt / 2 ^ shamt.toNat))
        (s.pc + 4#32))
  ∧ (∀ (rd rs1 : RegNum) (shamt : BitVec 5) (s : State),
    (operandsOf (.srai rd rs1 shamt) s).imm = 0x400#32 ||| shamt.zeroExtend 32
    ∧ (operandsOf (.slli rd rs1 shamt) s).imm = shamt.zeroExtend 32
    ∧ (operandsOf (.srli rd rs1 shamt) s).imm = shamt.zeroExtend 32)
  ∧ SpelledByFunct7 0b0010011#7 0b001#3 0b0000000#7 (fun w => .slli (fieldRd w) (fieldRs1 w) (fieldShamt w))
  ∧ SpelledByFunct7 0b0010011#7 0b101#3 0b0000000#7 (fun w => .srli (fieldRd w) (fieldRs1 w) (fieldShamt w))
  ∧ SpelledByFunct7 0b0010011#7 0b101#3 0b0100000#7 (fun w => .srai (fieldRd w) (fieldRs1 w) (fieldShamt w))

/-- 40_integer.md R132, R133, R135 to R137, R140, R141. -/
def Obligations.RegisterArithmeticInstructions : Prop :=
  (∀ (rd rs1 rs2 : RegNum) (s : State),
    WritesRegister (exec (.add rd rs1 rs2) s) s rd (s.reg rs1 + s.reg rs2) (s.pc + 4#32)
    ∧ WritesRegister (exec (.sub rd rs1 rs2) s) s rd (s.reg rs1 - s.reg rs2) (s.pc + 4#32)
    ∧ WritesRegister (exec (.slt rd rs1 rs2) s) s rd (if (s.reg rs1).toInt < (s.reg rs2).toInt then 1#32 else 0#32)
        (s.pc + 4#32)
    ∧ WritesRegister (exec (.sltu rd rs1 rs2) s) s rd (if (s.reg rs1).toNat < (s.reg rs2).toNat then 1#32 else 0#32)
        (s.pc + 4#32)
    ∧ WritesRegister (exec (.xor rd rs1 rs2) s) s rd (s.reg rs1 ^^^ s.reg rs2) (s.pc + 4#32)
    ∧ WritesRegister (exec (.or rd rs1 rs2) s) s rd (s.reg rs1 ||| s.reg rs2) (s.pc + 4#32)
    ∧ WritesRegister (exec (.and rd rs1 rs2) s) s rd (s.reg rs1 &&& s.reg rs2) (s.pc + 4#32))
  ∧ SpelledByFunct7 0b0110011#7 0b000#3 0b0000000#7 (fun w => .add (fieldRd w) (fieldRs1 w) (fieldRs2 w))
  ∧ SpelledByFunct7 0b0110011#7 0b000#3 0b0100000#7 (fun w => .sub (fieldRd w) (fieldRs1 w) (fieldRs2 w))
  ∧ SpelledByFunct7 0b0110011#7 0b010#3 0b0000000#7 (fun w => .slt (fieldRd w) (fieldRs1 w) (fieldRs2 w))
  ∧ SpelledByFunct7 0b0110011#7 0b011#3 0b0000000#7 (fun w => .sltu (fieldRd w) (fieldRs1 w) (fieldRs2 w))
  ∧ SpelledByFunct7 0b0110011#7 0b100#3 0b0000000#7 (fun w => .xor (fieldRd w) (fieldRs1 w) (fieldRs2 w))
  ∧ SpelledByFunct7 0b0110011#7 0b110#3 0b0000000#7 (fun w => .or (fieldRd w) (fieldRs1 w) (fieldRs2 w))
  ∧ SpelledByFunct7 0b0110011#7 0b111#3 0b0000000#7 (fun w => .and (fieldRd w) (fieldRs1 w) (fieldRs2 w))

/-- 40_integer.md R134, R138, R139: the amount is src2[4:0]. -/
def Obligations.RegisterShiftInstructions : Prop :=
  (∀ (rd rs1 rs2 : RegNum) (s : State),
    WritesRegister (exec (.sll rd rs1 rs2) s) s rd
        (BitVec.ofNat 32 ((s.reg rs1).toNat * 2 ^ ((s.reg rs2).toNat % 32))) (s.pc + 4#32)
    ∧ WritesRegister (exec (.srl rd rs1 rs2) s) s rd
        (BitVec.ofNat 32 ((s.reg rs1).toNat / 2 ^ ((s.reg rs2).toNat % 32))) (s.pc + 4#32)
    ∧ WritesRegister (exec (.sra rd rs1 rs2) s) s rd
        (BitVec.ofInt 32 ((s.reg rs1).toInt / 2 ^ ((s.reg rs2).toNat % 32))) (s.pc + 4#32))
  ∧ SpelledByFunct7 0b0110011#7 0b001#3 0b0000000#7 (fun w => .sll (fieldRd w) (fieldRs1 w) (fieldRs2 w))
  ∧ SpelledByFunct7 0b0110011#7 0b101#3 0b0000000#7 (fun w => .srl (fieldRd w) (fieldRs1 w) (fieldRs2 w))
  ∧ SpelledByFunct7 0b0110011#7 0b101#3 0b0100000#7 (fun w => .sra (fieldRd w) (fieldRs1 w) (fieldRs2 w))

/-! ### Multiply and divide -/

/-- 43_muldiv.md R200 to R204: MUL is the product of the words modulo 2^32, and the high half of an exact product is its
floor divided by 2^32, modulo 2^32. -/
def Obligations.MultiplyInstructions : Prop :=
  (∀ (rd rs1 rs2 : RegNum) (s : State),
    WritesRegister (exec (.mul rd rs1 rs2) s) s rd (s.reg rs1 * s.reg rs2) (s.pc + 4#32)
    ∧ WritesRegister (exec (.mulh rd rs1 rs2) s) s rd
        (BitVec.ofInt 32 ((s.reg rs1).toInt * (s.reg rs2).toInt / 2 ^ 32)) (s.pc + 4#32)
    ∧ WritesRegister (exec (.mulhsu rd rs1 rs2) s) s rd
        (BitVec.ofInt 32 ((s.reg rs1).toInt * ((s.reg rs2).toNat : Int) / 2 ^ 32)) (s.pc + 4#32)
    ∧ WritesRegister (exec (.mulhu rd rs1 rs2) s) s rd
        (BitVec.ofNat 32 ((s.reg rs1).toNat * (s.reg rs2).toNat / 2 ^ 32)) (s.pc + 4#32))
  ∧ SpelledByFunct7 0b0110011#7 0b000#3 0b0000001#7 (fun w => .mul (fieldRd w) (fieldRs1 w) (fieldRs2 w))
  ∧ SpelledByFunct7 0b0110011#7 0b001#3 0b0000001#7 (fun w => .mulh (fieldRd w) (fieldRs1 w) (fieldRs2 w))
  ∧ SpelledByFunct7 0b0110011#7 0b010#3 0b0000001#7 (fun w => .mulhsu (fieldRd w) (fieldRs1 w) (fieldRs2 w))
  ∧ SpelledByFunct7 0b0110011#7 0b011#3 0b0000001#7 (fun w => .mulhu (fieldRd w) (fieldRs1 w) (fieldRs2 w))

/-- 43_muldiv.md R205 to R208, the corner rows included; division never traps. Remainders are by the quotient that
rounds toward zero, so they have the dividend's sign. -/
def Obligations.DivideInstructions : Prop :=
  (∀ (rd rs1 rs2 : RegNum) (s : State),
    WritesRegister (exec (.div rd rs1 rs2) s) s rd
        (if s.reg rs2 = 0#32 then 0xFFFFFFFF#32
          else if s.reg rs1 = 0x80000000#32 ∧ s.reg rs2 = 0xFFFFFFFF#32 then 0x80000000#32
          else BitVec.ofInt 32 ((s.reg rs1).toInt.tdiv (s.reg rs2).toInt)) (s.pc + 4#32)
    ∧ WritesRegister (exec (.divu rd rs1 rs2) s) s rd
        (if s.reg rs2 = 0#32 then 0xFFFFFFFF#32 else s.reg rs1 / s.reg rs2) (s.pc + 4#32)
    ∧ WritesRegister (exec (.rem rd rs1 rs2) s) s rd
        (if s.reg rs2 = 0#32 then s.reg rs1
          else if s.reg rs1 = 0x80000000#32 ∧ s.reg rs2 = 0xFFFFFFFF#32 then 0#32
          else BitVec.ofInt 32 ((s.reg rs1).toInt.tmod (s.reg rs2).toInt)) (s.pc + 4#32)
    ∧ WritesRegister (exec (.remu rd rs1 rs2) s) s rd
        (if s.reg rs2 = 0#32 then s.reg rs1 else s.reg rs1 % s.reg rs2) (s.pc + 4#32))
  ∧ SpelledByFunct7 0b0110011#7 0b100#3 0b0000001#7 (fun w => .div (fieldRd w) (fieldRs1 w) (fieldRs2 w))
  ∧ SpelledByFunct7 0b0110011#7 0b101#3 0b0000001#7 (fun w => .divu (fieldRd w) (fieldRs1 w) (fieldRs2 w))
  ∧ SpelledByFunct7 0b0110011#7 0b110#3 0b0000001#7 (fun w => .rem (fieldRd w) (fieldRs1 w) (fieldRs2 w))
  ∧ SpelledByFunct7 0b0110011#7 0b111#3 0b0000001#7 (fun w => .remu (fieldRd w) (fieldRs1 w) (fieldRs2 w))

/-- 43_muldiv.md R209: what DIV and REM, and DIVU and REMU, write satisfies src1 = src2 * q + r modulo 2^32 for ALL
operands, the corner rows included. -/
def Obligations.QuotientAndRemainderRebuildTheDividend : Prop :=
  ∀ (rd rs1 rs2 : RegNum) (s q r q' r' : State), rd ≠ 0#5 →
    exec (.div rd rs1 rs2) s = .next q → exec (.rem rd rs1 rs2) s = .next r →
    exec (.divu rd rs1 rs2) s = .next q' → exec (.remu rd rs1 rs2) s = .next r' →
    s.reg rs1 = s.reg rs2 * q.reg rd + r.reg rd ∧ s.reg rs1 = s.reg rs2 * q'.reg rd + r'.reg rd

/-! ### Control transfer -/

/-- 41_control.md R161, R162: the link is pc + 4, the target is from the jump's own pc or the old source, JALR's with
bit 0 cleared and every other bit the sum's; no check, so no exception. -/
def Obligations.JumpInstructions : Prop :=
  (∀ rd imm s, WritesRegister (exec (.jal rd imm) s) s rd (s.pc + 4#32) (s.pc + imm))
  ∧ (∀ (rd rs1 : RegNum) (imm : Word) (s : State), ∃ target,
      target.getLsbD 0 = false ∧ (∀ k, 0 < k → target.getLsbD k = (s.reg rs1 + imm).getLsbD k)
      ∧ WritesRegister (exec (.jalr rd rs1 imm) s) s rd (s.pc + 4#32) target)
  ∧ SpelledByOpcode 0b1101111#7 (fun w => .jal (fieldRd w) (immJ w))
  ∧ SpelledByFunct3 0b1100111#7 0b000#3 (fun w => .jalr (fieldRd w) (fieldRs1 w) (immI w))

/-- 41_control.md R163 to R168: taken or not, a branch changes the pc alone. -/
def Obligations.BranchInstructions : Prop :=
  (∀ (rs1 rs2 : RegNum) (imm : Word) (s : State),
    ChangesOnlyPc (exec (.beq rs1 rs2 imm) s) s (if s.reg rs1 = s.reg rs2 then s.pc + imm else s.pc + 4#32)
    ∧ ChangesOnlyPc (exec (.bne rs1 rs2 imm) s) s (if s.reg rs1 ≠ s.reg rs2 then s.pc + imm else s.pc + 4#32)
    ∧ ChangesOnlyPc (exec (.blt rs1 rs2 imm) s) s
        (if (s.reg rs1).toInt < (s.reg rs2).toInt then s.pc + imm else s.pc + 4#32)
    ∧ ChangesOnlyPc (exec (.bge rs1 rs2 imm) s) s
        (if (s.reg rs1).toInt ≥ (s.reg rs2).toInt then s.pc + imm else s.pc + 4#32)
    ∧ ChangesOnlyPc (exec (.bltu rs1 rs2 imm) s) s
        (if (s.reg rs1).toNat < (s.reg rs2).toNat then s.pc + imm else s.pc + 4#32)
    ∧ ChangesOnlyPc (exec (.bgeu rs1 rs2 imm) s) s
        (if (s.reg rs1).toNat ≥ (s.reg rs2).toNat then s.pc + imm else s.pc + 4#32))
  ∧ SpelledByFunct3 0b1100011#7 0b000#3 (fun w => .beq (fieldRs1 w) (fieldRs2 w) (immB w))
  ∧ SpelledByFunct3 0b1100011#7 0b001#3 (fun w => .bne (fieldRs1 w) (fieldRs2 w) (immB w))
  ∧ SpelledByFunct3 0b1100011#7 0b100#3 (fun w => .blt (fieldRs1 w) (fieldRs2 w) (immB w))
  ∧ SpelledByFunct3 0b1100011#7 0b101#3 (fun w => .bge (fieldRs1 w) (fieldRs2 w) (immB w))
  ∧ SpelledByFunct3 0b1100011#7 0b110#3 (fun w => .bltu (fieldRs1 w) (fieldRs2 w) (immB w))
  ∧ SpelledByFunct3 0b1100011#7 0b111#3 (fun w => .bgeu (fieldRs1 w) (fieldRs2 w) (immB w))

/-! ### Loads and stores -/

/-- 42_loadstore.md R181, R184: byte loads, from the byte at src1 + imm, and where they abort. -/
def Obligations.ByteLoadInstructions : Prop :=
  (∀ (rd rs1 : RegNum) (imm : Word) (s : State), AccessAllowed s (s.reg rs1 + imm) 1 →
    WritesRegister (exec (.lb rd rs1 imm) s) s rd ((s.mem.byte (s.reg rs1 + imm).toNat).signExtend 32) (s.pc + 4#32)
    ∧ WritesRegister (exec (.lbu rd rs1 imm) s) s rd ((s.mem.byte (s.reg rs1 + imm).toNat).zeroExtend 32)
        (s.pc + 4#32))
  ∧ (∀ (rd rs1 : RegNum) (imm : Word) (s : State),
    AccessFaults (exec (.lb rd rs1 imm) s) s (s.reg rs1 + imm) 1
    ∧ AccessFaults (exec (.lbu rd rs1 imm) s) s (s.reg rs1 + imm) 1)
  ∧ SpelledByFunct3 0b0000011#7 0b000#3 (fun w => .lb (fieldRd w) (fieldRs1 w) (immI w))
  ∧ SpelledByFunct3 0b0000011#7 0b100#3 (fun w => .lbu (fieldRd w) (fieldRs1 w) (immI w))

/-- 42_loadstore.md R182, R185: halfword loads, little-endian, and where they abort. -/
def Obligations.HalfwordLoadInstructions : Prop :=
  (∀ (rd rs1 : RegNum) (imm : Word) (s : State), AccessAllowed s (s.reg rs1 + imm) 2 →
    WritesRegister (exec (.lh rd rs1 imm) s) s rd
        ((s.mem.byte ((s.reg rs1 + imm).toNat + 1) ++ s.mem.byte (s.reg rs1 + imm).toNat).signExtend 32) (s.pc + 4#32)
    ∧ WritesRegister (exec (.lhu rd rs1 imm) s) s rd
        ((s.mem.byte ((s.reg rs1 + imm).toNat + 1) ++ s.mem.byte (s.reg rs1 + imm).toNat).zeroExtend 32)
        (s.pc + 4#32))
  ∧ (∀ (rd rs1 : RegNum) (imm : Word) (s : State),
    AccessFaults (exec (.lh rd rs1 imm) s) s (s.reg rs1 + imm) 2
    ∧ AccessFaults (exec (.lhu rd rs1 imm) s) s (s.reg rs1 + imm) 2)
  ∧ SpelledByFunct3 0b0000011#7 0b001#3 (fun w => .lh (fieldRd w) (fieldRs1 w) (immI w))
  ∧ SpelledByFunct3 0b0000011#7 0b101#3 (fun w => .lhu (fieldRd w) (fieldRs1 w) (immI w))

/-- 42_loadstore.md R183: the word load, little-endian, and where it aborts. -/
def Obligations.WordLoadInstruction : Prop :=
  (∀ (rd rs1 : RegNum) (imm : Word) (s : State), AccessAllowed s (s.reg rs1 + imm) 4 →
    WritesRegister (exec (.lw rd rs1 imm) s) s rd
        (s.mem.byte ((s.reg rs1 + imm).toNat + 3) ++ s.mem.byte ((s.reg rs1 + imm).toNat + 2)
          ++ s.mem.byte ((s.reg rs1 + imm).toNat + 1) ++ s.mem.byte (s.reg rs1 + imm).toNat) (s.pc + 4#32))
  ∧ (∀ (rd rs1 : RegNum) (imm : Word) (s : State), AccessFaults (exec (.lw rd rs1 imm) s) s (s.reg rs1 + imm) 4)
  ∧ SpelledByFunct3 0b0000011#7 0b010#3 (fun w => .lw (fieldRd w) (fieldRs1 w) (immI w))

/-- 42_loadstore.md R186 to R188: the stores write their bytes at src1 + imm and no other byte, on every state whose
memory is canonical (an invariant, StepKeepsTheInvariant), and where they abort. -/
def Obligations.StoreInstructions : Prop :=
  (∀ (rs1 rs2 : RegNum) (imm : Word) (s : State), s.mem.wf = true →
    (AccessAllowed s (s.reg rs1 + imm) 1 →
      StoresBytes (exec (.sb rs1 rs2 imm) s) s (s.reg rs1 + imm) 1 (s.reg rs2))
    ∧ (AccessAllowed s (s.reg rs1 + imm) 2 →
      StoresBytes (exec (.sh rs1 rs2 imm) s) s (s.reg rs1 + imm) 2 (s.reg rs2))
    ∧ (AccessAllowed s (s.reg rs1 + imm) 4 →
      StoresBytes (exec (.sw rs1 rs2 imm) s) s (s.reg rs1 + imm) 4 (s.reg rs2)))
  ∧ (∀ (rs1 rs2 : RegNum) (imm : Word) (s : State),
    AccessFaults (exec (.sb rs1 rs2 imm) s) s (s.reg rs1 + imm) 1
    ∧ AccessFaults (exec (.sh rs1 rs2 imm) s) s (s.reg rs1 + imm) 2
    ∧ AccessFaults (exec (.sw rs1 rs2 imm) s) s (s.reg rs1 + imm) 4)
  ∧ SpelledByFunct3 0b0100011#7 0b000#3 (fun w => .sb (fieldRs1 w) (fieldRs2 w) (immS w))
  ∧ SpelledByFunct3 0b0100011#7 0b001#3 (fun w => .sh (fieldRs1 w) (fieldRs2 w) (immS w))
  ∧ SpelledByFunct3 0b0100011#7 0b010#3 (fun w => .sw (fieldRs1 w) (fieldRs2 w) (immS w))

/-- 20_memory.md R53, R54: MemRead and MemWrite of 1, 2 and 4 bytes, bit by bit and byte by byte, on every state whose
memory is canonical (an invariant, StepKeepsTheInvariant), and their AccessFault, with no byte written. -/
def Obligations.MemoryPrimitives : Prop :=
  ∀ (s : State) (a : Word) (n : Width), s.mem.wf = true →
    (s.cfg.memBase.toNat ≤ a.toNat → a.toNat + n.bytes ≤ s.cfg.memBase.toNat + s.cfg.memSize →
      (∃ v, s.memRead a n = .ok v ∧ ∀ k, v.getLsbD k =
        if k < 8 * n.bytes then (s.mem.byte (a.toNat + k / 8)).getLsbD (k % 8) else false)
      ∧ ∀ v, ∃ t, s.memWrite a n v = .ok t
        ∧ (∀ k, k < n.bytes → t.mem.byte (a.toNat + k) = v.extractLsb' (8 * k) 8)
        ∧ (∀ b, b < a.toNat ∨ a.toNat + n.bytes ≤ b → t.mem.byte b = s.mem.byte b)
        ∧ SameRegs s t ∧ t.pc = s.pc ∧ SameCsrs s t ∧ t.run = s.run ∧ t.cfg = s.cfg)
    ∧ (a.toNat < s.cfg.memBase.toNat ∨ s.cfg.memBase.toNat + s.cfg.memSize < a.toNat + n.bytes →
      s.memRead a n = .error (.accessFault a) ∧ ∀ v, s.memWrite a n v = .error (.accessFault a))

/-- 20_memory.md R56: a mixed-width access sees the same bytes, for every word and every address whose four bytes are in
Guest Memory. -/
def Obligations.MixedWidthAccessesSeeTheSameBytes : Prop :=
  ∀ (s : State) (a v : Word), s.mem.wf = true →
    s.cfg.memBase.toNat ≤ a.toNat → a.toNat + 4 ≤ s.cfg.memBase.toNat + s.cfg.memSize → a.toNat + 4 ≤ 2 ^ 32 →
    ∃ t, s.memWrite a .word v = .ok t
      ∧ t.memRead a .word = .ok v
      ∧ t.memRead a .byte = .ok (v &&& 0xFF#32)
      ∧ t.memRead (a + 1#32) .byte = .ok ((v >>> 8) &&& 0xFF#32)
      ∧ t.memRead (a + 2#32) .byte = .ok ((v >>> 16) &&& 0xFF#32)
      ∧ t.memRead (a + 3#32) .byte = .ok (v >>> 24)
      ∧ t.memRead a .half = .ok (v &&& 0xFFFF#32)
      ∧ t.memRead (a + 2#32) .half = .ok (v >>> 16)

/-- 20_memory.md R68: a word stored by SW is what a later fetch at that address reads, with no fence, as long as memory
has not changed in between. -/
def Obligations.StoredWordIsFetched : Prop :=
  ∀ (rs1 rs2 : RegNum) (imm : Word) (s t u : State), s.mem.wf = true → s.run = .running →
    exec (.sw rs1 rs2 imm) s = .next t → t.run = .running →
    u.mem = t.mem → u.cfg = t.cfg → u.run = .running → u.pc = s.reg rs1 + imm →
    step u = exec (decodeWord u.cfg.csrExtOps (s.reg rs2)) u

/-! ### Fence, system and CSR instructions -/

/-- 44_system.md R221: FENCE, whatever its fields, only advances the pc. -/
def Obligations.FenceInstruction : Prop :=
  (∀ fm pred succ rs1 rd s, ChangesOnlyPc (exec (.fence fm pred succ rs1 rd) s) s (s.pc + 4#32))
  ∧ SpelledByFunct3 0b0001111#7 0b000#3
      (fun w => .fence (w.extractLsb' 28 4) (w.extractLsb' 24 4) (w.extractLsb' 20 4) (fieldRs1 w) (fieldRd w))

/-- 44_system.md R231, 60_exceptions.md R265 to R267: ECALL. The trap entry, and nothing else: no general register, no
`mstatus`, no `mtvec`, no memory. Its Trap Event is Yield or Syscall. The last clause gives the reference configuration's numbers. -/
def Obligations.EcallInstruction : Prop :=
  (∀ s : State, ∃ t, exec .ecall s = .next t
    ∧ t.mepc = (if s.reg s.cfg.yieldReg = s.cfg.yieldSentinel then s.pc + 4#32 else s.pc)
    ∧ t.mcause = s.cfg.ecallCause ∧ t.pc = s.mtvec
    ∧ t.mstatus = s.mstatus ∧ t.mtvec = s.mtvec ∧ SameRegs s t ∧ t.regs[0] = 0#32 ∧ SameMemory s t
    ∧ t.run = s.run ∧ t.cfg = s.cfg
    ∧ trapEventOf .ecall s = (if s.reg s.cfg.yieldReg = s.cfg.yieldSentinel then .yield else .syscall)
    ∧ (s.cfg = Config.reference → t.mcause = 11#32
        ∧ t.mepc = (if s.reg 17#5 = 0xFFFFFFFF#32 then s.pc + 4#32 else s.pc)))
  ∧ ∀ ext, decodeWord ext 0x00000073#32 = .ecall

/-- 44_system.md R232: EBREAK retires, pc + 4, and the run is Halted with the whole of a0 and its own pc. -/
def Obligations.EbreakInstruction : Prop :=
  (∀ s : State, ∃ t, exec .ebreak s = .next t
    ∧ t.run = .halted (s.reg s.cfg.exitReg) s.pc ∧ t.pc = s.pc + 4#32
    ∧ SameRegs s t ∧ SameCsrs s t ∧ SameMemory s t ∧ t.cfg = s.cfg
    ∧ (s.cfg = Config.reference → t.run = .halted (s.reg 10#5) s.pc))
  ∧ ∀ ext, decodeWord ext 0x00100073#32 = .ebreak

/-- 44_system.md R233, 60_exceptions.md R272: MRET. `mstatus` by the closed form, and bit by bit; `pc <- mepc`
unmodified; nothing else. -/
def Obligations.MretInstruction : Prop :=
  (∀ s : State, ∃ t, exec .mret s = .next t
    ∧ t.mstatus = (s.mstatus &&& ~~~0x00001888#32) ||| ((s.mstatus >>> 4) &&& 0x00000008#32) ||| 0x00000080#32
    ∧ t.mstatus.getLsbD 3 = s.mstatus.getLsbD 7 ∧ t.mstatus.getLsbD 7 = true
    ∧ t.mstatus.getLsbD 11 = false ∧ t.mstatus.getLsbD 12 = false
    ∧ (∀ k, k ≠ 3 → k ≠ 7 → k ≠ 11 → k ≠ 12 → t.mstatus.getLsbD k = s.mstatus.getLsbD k)
    ∧ t.pc = s.mepc ∧ t.mepc = s.mepc ∧ t.mcause = s.mcause ∧ t.mtvec = s.mtvec
    ∧ SameRegs s t ∧ SameMemory s t ∧ t.run = s.run ∧ t.cfg = s.cfg)
  ∧ ∀ ext, decodeWord ext 0x30200073#32 = .mret

/-- 60_exceptions.md R266, R272: an MRET taken after an ECALL, the handler having left `mepc` and `mstatus` alone,
resumes after the ECALL for a yield and at the ECALL otherwise, with every register and byte as the handler left it. -/
def Obligations.MretReturnsFromEcall : Prop :=
  ∀ s t u : State, exec .ecall s = .next t → u.mepc = t.mepc → u.mstatus = t.mstatus →
    ∃ v, exec .mret u = .next v
      ∧ v.pc = (if s.reg s.cfg.yieldReg = s.cfg.yieldSentinel then s.pc + 4#32 else s.pc)
      ∧ v.mstatus.getLsbD 3 = s.mstatus.getLsbD 7 ∧ SameRegs u v ∧ SameMemory u v

/-- 44_system.md R234, R235: CSRRW and CSRRS on each of the four CSRs. -/
def Obligations.CsrReadWriteInstructions : Prop :=
  (∀ (rd rs1 : RegNum) (csr : CsrNum) (s : State),
    AccessesCsr (exec (.csrrw rd csr rs1) s) s rd csr (fun _ => s.reg rs1)
    ∧ AccessesCsr (exec (.csrrs rd csr rs1) s) s rd csr (fun old => old ||| s.reg rs1)
    ∧ (¬ ImplementedCsr csr → AbortsWith (exec (.csrrw rd csr rs1) s) s .invalidInstruction
        ∧ AbortsWith (exec (.csrrs rd csr rs1) s) s .invalidInstruction))
  ∧ SpelledByFunct3 0b1110011#7 0b001#3 (fun w => .csrrw (fieldRd w) (fieldCsr w) (fieldRs1 w))
  ∧ SpelledByFunct3 0b1110011#7 0b010#3 (fun w => .csrrs (fieldRd w) (fieldCsr w) (fieldRs1 w))

/-- 44_system.md R236 to R239: the four optional CSR instructions, present with `CSR_EXT_OPS` and invalid without it. -/
def Obligations.OptionalCsrInstructions : Prop :=
  (∀ (rd rs1 : RegNum) (csr : CsrNum) (uimm : BitVec 5) (s : State), s.cfg.csrExtOps = true →
    AccessesCsr (exec (.csrrc rd csr rs1) s) s rd csr (fun old => old &&& ~~~(s.reg rs1))
    ∧ AccessesCsr (exec (.csrrwi rd csr uimm) s) s rd csr (fun _ => uimm.zeroExtend 32)
    ∧ AccessesCsr (exec (.csrrsi rd csr uimm) s) s rd csr (fun old => old ||| uimm.zeroExtend 32)
    ∧ AccessesCsr (exec (.csrrci rd csr uimm) s) s rd csr (fun old => old &&& ~~~(uimm.zeroExtend 32)))
  ∧ (∀ (rd rs1 : RegNum) (csr : CsrNum) (uimm : BitVec 5) (s : State),
    s.cfg.csrExtOps = false ∨ ¬ ImplementedCsr csr →
    AbortsWith (exec (.csrrc rd csr rs1) s) s .invalidInstruction
    ∧ AbortsWith (exec (.csrrwi rd csr uimm) s) s .invalidInstruction
    ∧ AbortsWith (exec (.csrrsi rd csr uimm) s) s .invalidInstruction
    ∧ AbortsWith (exec (.csrrci rd csr uimm) s) s .invalidInstruction)
  ∧ SpelledWithExtOps 0b011#3 (fun w => .csrrc (fieldRd w) (fieldCsr w) (fieldRs1 w))
  ∧ SpelledWithExtOps 0b101#3 (fun w => .csrrwi (fieldRd w) (fieldCsr w) (fieldUimm w))
  ∧ SpelledWithExtOps 0b110#3 (fun w => .csrrsi (fieldRd w) (fieldCsr w) (fieldUimm w))
  ∧ SpelledWithExtOps 0b111#3 (fun w => .csrrci (fieldRd w) (fieldCsr w) (fieldUimm w))

/-- 44_system.md R241: INV raises InvalidInstruction(pc), always: whatever its word and in every state, `exec` ANSWERS
the next state that is the one before, Aborted with InvalidInstruction and this pc. That is INV's whole effect: the spec
gives it no other path. It is the last row of the table, with match and mask 0; the all-zero and the all-ones word are
INV. -/
def Obligations.InvInstruction : Prop :=
  (∀ (raw : Word) (s : State), exec (.inv raw) s = .next { s with run := .aborted .invalidInstruction s.pc })
  ∧ (opcodeTable.getLast?.map fun r => (r.mnemonic, r.pattern, r.mask)) = some ("INV", 0#32, 0#32)
  ∧ ∀ ext, decodeWord ext 0x00000000#32 = .inv 0x00000000#32 ∧ decodeWord ext 0xFFFFFFFF#32 = .inv 0xFFFFFFFF#32

/-! ### Outputs of a step -/

/-- 60_exceptions.md R268: `classify`, and the Trap Event of every step of a running machine: of ECALL's cause and the
value of `YIELD_REG` for a step that executes ECALL, and None for every other, a fatal fault or EBREAK included. -/
def Obligations.TrapEventOfEveryStep : Prop :=
  (∀ (cfg : Config) (cause v : Word), classifyTrap cfg cause v =
    if cause = cfg.ecallCause then (if v = cfg.yieldSentinel then .yield else .syscall) else .error cause)
  ∧ ∀ (s : State), s.run = .running →
    (s.fetch = .ok 0x00000073#32 → (stepOutput s).trapEvent =
        if s.reg s.cfg.yieldReg = s.cfg.yieldSentinel then .yield else .syscall)
    ∧ (s.fetch ≠ .ok 0x00000073#32 → (stepOutput s).trapEvent = .none)

/-- 60_exceptions.md R269: the block never outputs Error(cause), in any state. -/
def Obligations.NoStepOutputsTheErrorEvent : Prop :=
  ∀ (s : State) (cause : Word), (stepOutput s).trapEvent ≠ .error cause

/-- 60_exceptions.md R297, 90_conflicts.md C2: the classification of every JAL and JALR step, its clauses in order, with
site the pc and target the pc the step goes to; no other step is classified. -/
def Obligations.JumpClassificationOfEveryStep : Prop :=
  ∀ (s t : State) (w : Word), s.run = .running → s.fetch = .ok w → step s = .next t →
    (∀ rd imm, decodeWord s.cfg.csrExtOps w = .jal rd imm → (stepOutput s).jump =
        some (if rd = s.cfg.raReg then .call s.pc t.pc false else .plain))
    ∧ (∀ rd rs1 imm, decodeWord s.cfg.csrExtOps w = .jalr rd rs1 imm → (stepOutput s).jump =
        some (if rd = s.cfg.raReg then .call s.pc t.pc false
          else if rs1 = s.cfg.raReg ∧ imm = 0#32 then .ret s.pc t.pc
          else if rd = 0#5 ∧ imm = 0#32 then .call s.pc t.pc true
          else .plain))
    ∧ ((∀ rd imm, decodeWord s.cfg.csrExtOps w ≠ .jal rd imm) →
        (∀ rd rs1 imm, decodeWord s.cfg.csrExtOps w ≠ .jalr rd rs1 imm) → (stepOutput s).jump = none)

/-! ### Pseudo-instructions -/

/-- 30_encoding.md R102: the expansions that build a value do build it: `li` any constant, `la` any offset from its own
pc, `call` and `tail` reach it (with bit 0 cleared, as JALR does). A label is its offset (the model's choice: log 17). -/
def Obligations.ExpansionsBuildTheirValues : Prop :=
  ∀ (s : State),
    (∀ rd imm, rd ≠ 0#5 → ∃ t, execAll (Pseudo.li rd imm).expand s = .next t ∧ t.reg rd = imm
      ∧ (∀ r, r ≠ rd → t.reg r = s.reg r) ∧ SameCsrs s t ∧ SameMemory s t)
    ∧ (∀ rd offset, rd ≠ 0#5 → ∃ t, execAll (Pseudo.la rd offset).expand s = .next t ∧ t.reg rd = s.pc + offset
      ∧ (∀ r, r ≠ rd → t.reg r = s.reg r) ∧ t.pc = s.pc + 8#32)
    ∧ (∀ offset, ∃ t, execAll (Pseudo.callFar offset).expand s = .next t ∧ t.reg 1#5 = s.pc + 8#32
      ∧ t.pc = (s.pc + offset) &&& 0xFFFFFFFE#32)
    ∧ (∀ offset, ∃ t, execAll (Pseudo.tailFar offset).expand s = .next t
      ∧ t.pc = (s.pc + offset) &&& 0xFFFFFFFE#32 ∧ t.reg 1#5 = s.reg 1#5)

/-! ### Every instruction answers a next state -/

/-- 30_encoding.md R98, 93_implementation_defined.md section 1: `exec` answers a next state for EVERY instruction and
EVERY state. Either it retires, with `run` as it was or, for EBREAK, Halted; or it aborts, and then nothing but `run`
has changed. INV (44_system.md R241) always aborts, with InvalidInstruction. An instruction that is no load, no store, no
CSR instruction and not INV never aborts. -/
def Obligations.EveryInstructionGivesANextState : Prop :=
  ∀ (i : Instr) (s : State), ∃ t, exec i s = .next t ∧ t.cfg = s.cfg
    ∧ ((t.run = s.run ∧ t.regs[0] = 0#32)
      ∨ (i = .ebreak ∧ t.run = .halted (s.reg s.cfg.exitReg) s.pc ∧ t.regs[0] = 0#32)
      ∨ (mayAbort i = true ∧ ∃ reason, t = { s with run := .aborted reason s.pc }))
    ∧ ∀ raw, i = .inv raw → t = { s with run := .aborted .invalidInstruction s.pc }

/-! ### Operand decoding -/

/-- 30_encoding.md R86, R92, R98: the operand slots that the meaning of a word's instruction reads are the fields of the
word by its format: `rd` inst[11:7] in every format, the populated slots from the registers as they are before the
action, the others 0. (INV's row has no format; that its slots are 0 is the model's choice: log 10.) -/
def Obligations.OperandsAreTheDecodedFields : Prop :=
  ∀ (ext : Bool) (w : Word) (s : State),
    operandsOf (decodeWord ext w) s = fieldsByFormat (formatOf (decodeWord ext w)) w s
end

