-- ==== Sys2Proof/Laws/State.lean ====
section
/-! SUPPORT. What each update of State does to each field: one lemma per field per update, so that no proof unfolds a
record update. Registers are read through `State.reg`. -/

namespace Sys2Proof.Machine

/-! ### Reads of a register -/

@[simp] theorem reg_zero (s : State) : s.reg 0#5 = 0#32 := by simp [State.reg]

theorem reg_of_ne_zero {s : State} {r : RegNum} (h : r ≠ 0#5) : s.reg r = s.regs[r.toNat]'r.isLt := by
  simp [State.reg, h]

theorem reg_congr {s t : State} (h : t.regs = s.regs) (r : RegNum) : t.reg r = s.reg r := by
  simp only [State.reg, h]

@[simp] theorem reg_setReg (s : State) (r r' : RegNum) (v : Word) :
    (s.setReg r v).reg r' = if r' = 0#5 then 0#32 else if r' = r then v else s.reg r' := by
  by_cases h0 : r' = 0#5
  · simp [h0]
  by_cases h : r' = r
  · subst h; simp [State.reg, State.setReg, h0]
  · have h' : r.toNat ≠ r'.toNat := fun e => h (BitVec.eq_of_toNat_eq e.symm)
    simp [State.reg, State.setReg, h0, h, Vector.getElem_set_ne _ _ h']

@[simp] theorem reg_retire (s : State) (d : Word) (r : RegNum) : (s.retire d).reg r = s.reg r := by
  by_cases h0 : r = 0#5
  · simp [h0]
  · have h' : 0 ≠ r.toNat := fun e => h0 (BitVec.eq_of_toNat_eq e.symm)
    simp [State.reg, State.retire, h0, Vector.getElem_set_ne _ _ h']

@[simp] theorem reg_abort (s : State) (e : AbortReason) (r : RegNum) : (s.abort e).reg r = s.reg r := rfl
@[simp] theorem reg_halt (s : State) (c : Word) (r : RegNum) : (s.halt c).reg r = s.reg r :=
  reg_retire s s.snpc r
@[simp] theorem reg_trapEntry (s : State) (c e : Word) (r : RegNum) : (s.trapEntry c e).reg r = s.reg r :=
  reg_retire { s with mepc := e, mcause := c } s.mtvec r
@[simp] theorem reg_trapReturn (s : State) (r : RegNum) : s.trapReturn.reg r = s.reg r :=
  reg_retire { s with mstatus := mretStatus s.mstatus } s.mepc r

/-- A state that differs in memory, in `mstatus` or in the run reads its registers the same. -/
@[simp] theorem reg_with_mem (s : State) (m : Memory) (r : RegNum) : ({ s with mem := m } : State).reg r = s.reg r := rfl
@[simp] theorem reg_with_mstatus (s : State) (v : Word) (r : RegNum) :
    ({ s with mstatus := v } : State).reg r = s.reg r := rfl
@[simp] theorem reg_with_run (s : State) (x : RunState) (r : RegNum) : ({ s with run := x } : State).reg r = s.reg r := rfl

/-! ### The slot of x0 -/

theorem slot0_retire (s : State) (d : Word) : (s.retire d).regs[0] = 0#32 := by simp [State.retire]

/-! ### setReg -/

@[simp] theorem pc_setReg (s : State) (r : RegNum) (v : Word) : (s.setReg r v).pc = s.pc := rfl
@[simp] theorem mstatus_setReg (s : State) (r : RegNum) (v : Word) : (s.setReg r v).mstatus = s.mstatus := rfl
@[simp] theorem mtvec_setReg (s : State) (r : RegNum) (v : Word) : (s.setReg r v).mtvec = s.mtvec := rfl
@[simp] theorem mepc_setReg (s : State) (r : RegNum) (v : Word) : (s.setReg r v).mepc = s.mepc := rfl
@[simp] theorem mcause_setReg (s : State) (r : RegNum) (v : Word) : (s.setReg r v).mcause = s.mcause := rfl
@[simp] theorem run_setReg (s : State) (r : RegNum) (v : Word) : (s.setReg r v).run = s.run := rfl
@[simp] theorem mem_setReg (s : State) (r : RegNum) (v : Word) : (s.setReg r v).mem = s.mem := rfl
@[simp] theorem cfg_setReg (s : State) (r : RegNum) (v : Word) : (s.setReg r v).cfg = s.cfg := rfl

/-! ### retire -/

@[simp] theorem pc_retire (s : State) (d : Word) : (s.retire d).pc = d := rfl
@[simp] theorem mstatus_retire (s : State) (d : Word) : (s.retire d).mstatus = s.mstatus := rfl
@[simp] theorem mtvec_retire (s : State) (d : Word) : (s.retire d).mtvec = s.mtvec := rfl
@[simp] theorem mepc_retire (s : State) (d : Word) : (s.retire d).mepc = s.mepc := rfl
@[simp] theorem mcause_retire (s : State) (d : Word) : (s.retire d).mcause = s.mcause := rfl
@[simp] theorem run_retire (s : State) (d : Word) : (s.retire d).run = s.run := rfl
@[simp] theorem mem_retire (s : State) (d : Word) : (s.retire d).mem = s.mem := rfl
@[simp] theorem cfg_retire (s : State) (d : Word) : (s.retire d).cfg = s.cfg := rfl

/-! ### abort -/

@[simp] theorem pc_abort (s : State) (e : AbortReason) : (s.abort e).pc = s.pc := rfl
@[simp] theorem mstatus_abort (s : State) (e : AbortReason) : (s.abort e).mstatus = s.mstatus := rfl
@[simp] theorem mtvec_abort (s : State) (e : AbortReason) : (s.abort e).mtvec = s.mtvec := rfl
@[simp] theorem mepc_abort (s : State) (e : AbortReason) : (s.abort e).mepc = s.mepc := rfl
@[simp] theorem mcause_abort (s : State) (e : AbortReason) : (s.abort e).mcause = s.mcause := rfl
@[simp] theorem run_abort (s : State) (e : AbortReason) : (s.abort e).run = .aborted e s.pc := rfl
@[simp] theorem mem_abort (s : State) (e : AbortReason) : (s.abort e).mem = s.mem := rfl
@[simp] theorem cfg_abort (s : State) (e : AbortReason) : (s.abort e).cfg = s.cfg := rfl

/-! ### halt -/

@[simp] theorem pc_halt (s : State) (c : Word) : (s.halt c).pc = s.pc + 4#32 := rfl
@[simp] theorem mstatus_halt (s : State) (c : Word) : (s.halt c).mstatus = s.mstatus := rfl
@[simp] theorem mtvec_halt (s : State) (c : Word) : (s.halt c).mtvec = s.mtvec := rfl
@[simp] theorem mepc_halt (s : State) (c : Word) : (s.halt c).mepc = s.mepc := rfl
@[simp] theorem mcause_halt (s : State) (c : Word) : (s.halt c).mcause = s.mcause := rfl
@[simp] theorem run_halt (s : State) (c : Word) : (s.halt c).run = .halted c s.pc := rfl
@[simp] theorem mem_halt (s : State) (c : Word) : (s.halt c).mem = s.mem := rfl
@[simp] theorem cfg_halt (s : State) (c : Word) : (s.halt c).cfg = s.cfg := rfl

/-! ### trapEntry -/

@[simp] theorem pc_trapEntry (s : State) (c e : Word) : (s.trapEntry c e).pc = s.mtvec := rfl
@[simp] theorem mstatus_trapEntry (s : State) (c e : Word) : (s.trapEntry c e).mstatus = s.mstatus := rfl
@[simp] theorem mtvec_trapEntry (s : State) (c e : Word) : (s.trapEntry c e).mtvec = s.mtvec := rfl
@[simp] theorem mepc_trapEntry (s : State) (c e : Word) : (s.trapEntry c e).mepc = e := rfl
@[simp] theorem mcause_trapEntry (s : State) (c e : Word) : (s.trapEntry c e).mcause = c := rfl
@[simp] theorem run_trapEntry (s : State) (c e : Word) : (s.trapEntry c e).run = s.run := rfl
@[simp] theorem mem_trapEntry (s : State) (c e : Word) : (s.trapEntry c e).mem = s.mem := rfl
@[simp] theorem cfg_trapEntry (s : State) (c e : Word) : (s.trapEntry c e).cfg = s.cfg := rfl

/-! ### trapReturn -/

@[simp] theorem pc_trapReturn (s : State) : s.trapReturn.pc = s.mepc := rfl
@[simp] theorem mstatus_trapReturn (s : State) : s.trapReturn.mstatus = mretStatus s.mstatus := rfl
@[simp] theorem mtvec_trapReturn (s : State) : s.trapReturn.mtvec = s.mtvec := rfl
@[simp] theorem mepc_trapReturn (s : State) : s.trapReturn.mepc = s.mepc := rfl
@[simp] theorem mcause_trapReturn (s : State) : s.trapReturn.mcause = s.mcause := rfl
@[simp] theorem run_trapReturn (s : State) : s.trapReturn.run = s.run := rfl
@[simp] theorem mem_trapReturn (s : State) : s.trapReturn.mem = s.mem := rfl
@[simp] theorem cfg_trapReturn (s : State) : s.trapReturn.cfg = s.cfg := rfl

/-! ### writeCsr -/

@[simp] theorem pc_writeCsr (s : State) (c : Csr) (v : Word) : (s.writeCsr c v).pc = s.pc := by cases c <;> rfl
@[simp] theorem run_writeCsr (s : State) (c : Csr) (v : Word) : (s.writeCsr c v).run = s.run := by cases c <;> rfl
@[simp] theorem mem_writeCsr (s : State) (c : Csr) (v : Word) : (s.writeCsr c v).mem = s.mem := by cases c <;> rfl
@[simp] theorem cfg_writeCsr (s : State) (c : Csr) (v : Word) : (s.writeCsr c v).cfg = s.cfg := by cases c <;> rfl
@[simp] theorem reg_writeCsr (s : State) (c : Csr) (v : Word) (r : RegNum) : (s.writeCsr c v).reg r = s.reg r := by
  cases c <;> rfl
@[simp] theorem readCsr_writeCsr (s : State) (c d : Csr) (v : Word) :
    (s.writeCsr c v).readCsr d = if d = c then v else s.readCsr d := by
  cases c <;> cases d <;> rfl
@[simp] theorem mstatus_writeCsr (s : State) (c : Csr) (v : Word) :
    (s.writeCsr c v).mstatus = if c = .mstatus then v else s.mstatus := by cases c <;> rfl
@[simp] theorem mtvec_writeCsr (s : State) (c : Csr) (v : Word) :
    (s.writeCsr c v).mtvec = if c = .mtvec then v else s.mtvec := by cases c <;> rfl
@[simp] theorem mepc_writeCsr (s : State) (c : Csr) (v : Word) :
    (s.writeCsr c v).mepc = if c = .mepc then v else s.mepc := by cases c <;> rfl
@[simp] theorem mcause_writeCsr (s : State) (c : Csr) (v : Word) :
    (s.writeCsr c v).mcause = if c = .mcause then v else s.mcause := by cases c <;> rfl
@[simp] theorem readCsr_mstatus (s : State) : s.readCsr .mstatus = s.mstatus := rfl
@[simp] theorem readCsr_mtvec (s : State) : s.readCsr .mtvec = s.mtvec := rfl
@[simp] theorem readCsr_mepc (s : State) : s.readCsr .mepc = s.mepc := rfl
@[simp] theorem readCsr_mcause (s : State) : s.readCsr .mcause = s.mcause := rfl

@[simp] theorem snpc_eq (s : State) : s.snpc = s.pc + 4#32 := rfl

end Sys2Proof.Machine
end

