-- ==== Sys2Proof/Laws/Arith.lean ====
section
/-! SUPPORT. What the arithmetic of the meanings is, on numbers: shifts and their `imm` slot, products, MRET's word, and the two
parts a value is built from. -/

namespace Sys2Proof.Machine

/-! ### Shifts -/

theorem shiftLeft_eq_ofNat (a : Word) (n : Nat) : a <<< n = BitVec.ofNat 32 (a.toNat * 2 ^ n) := by
  apply BitVec.eq_of_toNat_eq
  simp [BitVec.toNat_shiftLeft, Nat.shiftLeft_eq]

theorem shiftRight_eq_ofNat (a : Word) (n : Nat) : a >>> n = BitVec.ofNat 32 (a.toNat / 2 ^ n) := by
  apply BitVec.eq_of_toNat_eq
  have h1 := Nat.div_le_self a.toNat (2 ^ n)
  have h2 := a.isLt
  rw [BitVec.toNat_ushiftRight, Nat.shiftRight_eq_div_pow, BitVec.toNat_ofNat, Nat.mod_eq_of_lt]
  omega

theorem shiftRightArith_eq_ofInt (a : Word) (n : Nat) :
    shiftRightArith a n = BitVec.ofInt 32 (a.toInt / 2 ^ n) := by
  have h : shiftRightArith a n = BitVec.ofInt 32 (a.toInt >>> n) := rfl
  rw [h, Int.shiftRight_eq_div_pow]
  push_cast
  rfl

/-! ### The `imm` slot of a shift -/

theorem shiftSlot_zero (shamt : BitVec 5) : shiftSlot 0b0000000#7 shamt = shamt.setWidth 32 := by
  revert shamt
  decide

theorem shiftSlot_srai (shamt : BitVec 5) : shiftSlot 0b0100000#7 shamt = 0x400#32 ||| shamt.setWidth 32 := by
  revert shamt
  decide

/-- The slot is the I immediate of the word. -/
theorem immI_eq_shiftSlot (w : Word) : immI w = shiftSlot (w.extractLsb' 25 7) (fieldShamt w) := by
  unfold immI shiftSlot fieldShamt
  congr 1
  ext k hk
  rw [BitVec.getElem_append]
  split
  · simp [BitVec.getElem_extractLsb']
  · simp only [BitVec.getElem_extractLsb']
    congr 1
    omega

/-! ### Products -/

/-- The high half of an exact product is its floor divided by 2^32, modulo 2^32. -/
theorem highHalf_product (p : Int) : highHalf (product p) = BitVec.ofInt 32 (p / 2 ^ 32) := by
  apply BitVec.eq_of_toNat_eq
  simp only [highHalf, product, BitVec.extractLsb'_toNat, BitVec.toNat_ofInt, Nat.shiftRight_eq_div_pow]
  omega

/-- The low half of an exact product is the product modulo 2^32. -/
theorem lowHalf_product (p : Int) : lowHalf (product p) = BitVec.ofInt 32 p := by
  apply BitVec.eq_of_toNat_eq
  simp only [lowHalf, product, BitVec.extractLsb'_toNat, BitVec.toNat_ofInt, Nat.shiftRight_eq_div_pow]
  omega

/-! ### MRET's word -/

theorem getLsbD_mretStatus (w : Word) (k : Nat) : (mretStatus w).getLsbD k =
    if k = 3 then w.getLsbD 7 else if k = 7 then true else if k = 11 then false else if k = 12 then false
    else w.getLsbD k := by
  by_cases hk : k < 32
  · simp only [mretStatus, setBit, mpieOf]
    interval_cases k <;> cases h : w.getLsbD 7 <;> simp_all
  · simp only [BitVec.getLsbD_of_ge _ _ (Nat.le_of_not_lt hk)]
    split_ifs <;> first | omega | rfl

/-! ### The two parts of a value -/

theorem highPart_add_lowPart (v : Word) : highPart v + lowPart v = v := by
  unfold highPart
  rw [BitVec.sub_add_cancel]

end Sys2Proof.Machine
end

