-- ==== Sys2Proof/Laws/Decode.lean ====
section
/-! SUPPORT. What a row's mask and pattern ask of a word, in terms of its fields (30_encoding.md R81, R95), and what the
fields of an encoding are (R82). -/

namespace Sys2Proof

/-! ### Masks are fields -/

theorem and_mask_opcode (w : Word) : w &&& 0x0000007F#32 = 0#25 ++ w.extractLsb' 0 7 := by
  apply BitVec.eq_of_getLsbD_eq
  intro i hi
  show _ = BitVec.getLsbD (w := 25 + 7) (_ ++ _) i
  simp only [BitVec.getLsbD_append]
  interval_cases i <;> simp

theorem and_mask_funct3 (w : Word) :
    w &&& 0x0000707F#32 = 0#17 ++ w.extractLsb' 12 3 ++ 0#5 ++ w.extractLsb' 0 7 := by
  apply BitVec.eq_of_getLsbD_eq
  intro i hi
  show _ = BitVec.getLsbD (w := 17 + 3 + 5 + 7) (_ ++ _) i
  simp only [BitVec.getLsbD_append]
  interval_cases i <;> simp

theorem and_mask_funct7 (w : Word) :
    w &&& 0xFE00707F#32 = w.extractLsb' 25 7 ++ 0#10 ++ w.extractLsb' 12 3 ++ 0#5 ++ w.extractLsb' 0 7 := by
  apply BitVec.eq_of_getLsbD_eq
  intro i hi
  show _ = BitVec.getLsbD (w := 7 + 10 + 3 + 5 + 7) (_ ++ _) i
  simp only [BitVec.getLsbD_append]
  interval_cases i <;> simp

/-- A field that the mask holds whole is the word's. -/
theorem extract_and (w m : Word) (a n : Nat) (hm : m.extractLsb' a n = BitVec.allOnes n) :
    (w &&& m).extractLsb' a n = w.extractLsb' a n := by
  have h : (w &&& m).extractLsb' a n = w.extractLsb' a n &&& m.extractLsb' a n := by
    ext i hi
    simp
  rw [h, hm, BitVec.and_allOnes]

/-- A row with mask 0x7F asks for an opcode. -/
theorem mask_opcode (w p : Word) (hp : p &&& 0x0000007F#32 = p) :
    (w &&& 0x0000007F#32 == p) = (w.extractLsb' 0 7 == p.extractLsb' 0 7) := by
  rw [Bool.eq_iff_iff, beq_iff_eq, beq_iff_eq]
  constructor
  · intro h
    rw [← h, extract_and _ _ _ _ (by decide)]
  · intro h
    rw [← hp, and_mask_opcode, and_mask_opcode, h]

/-- A row with mask 0x707F asks for an opcode and a funct3. -/
theorem mask_funct3 (w p : Word) (hp : p &&& 0x0000707F#32 = p) :
    (w &&& 0x0000707F#32 == p)
      = (w.extractLsb' 0 7 == p.extractLsb' 0 7 && w.extractLsb' 12 3 == p.extractLsb' 12 3) := by
  rw [Bool.eq_iff_iff, beq_iff_eq, Bool.and_eq_true, beq_iff_eq, beq_iff_eq]
  constructor
  · intro h
    rw [← h, extract_and _ _ _ _ (by decide), extract_and _ _ _ _ (by decide)]
    exact ⟨rfl, rfl⟩
  · rintro ⟨h1, h2⟩
    rw [← hp, and_mask_funct3, and_mask_funct3, h1, h2]

/-- A row with mask 0xFE00707F asks for an opcode, a funct3 and a funct7. -/
theorem mask_funct7 (w p : Word) (hp : p &&& 0xFE00707F#32 = p) :
    (w &&& 0xFE00707F#32 == p)
      = (w.extractLsb' 0 7 == p.extractLsb' 0 7 && w.extractLsb' 12 3 == p.extractLsb' 12 3
          && w.extractLsb' 25 7 == p.extractLsb' 25 7) := by
  rw [Bool.eq_iff_iff, beq_iff_eq, Bool.and_eq_true, Bool.and_eq_true, beq_iff_eq, beq_iff_eq, beq_iff_eq]
  constructor
  · intro h
    rw [← h, extract_and _ _ _ _ (by decide), extract_and _ _ _ _ (by decide), extract_and _ _ _ _ (by decide)]
    exact ⟨⟨rfl, rfl⟩, rfl⟩
  · rintro ⟨⟨h1, h2⟩, h3⟩
    rw [← hp, and_mask_funct7, and_mask_funct7, h1, h2, h3]

/-- A row with every bit in its mask asks for one word. -/
theorem mask_all (w p : Word) : (w &&& 0xFFFFFFFF#32 == p) = (w == p) := by
  rw [show 0xFFFFFFFF#32 = BitVec.allOnes 32 from rfl, BitVec.and_allOnes]

/-- A row with an empty mask takes every word. -/
theorem mask_none (w : Word) : (w &&& 0x00000000#32 == 0x00000000#32) = true := by simp

/-! ### First match over disjoint rows (R93, R94) -/

/-- Two rows whose patterns differ where both masks look take no word in common. -/
theorem takes_disjoint {ext : Bool} {a b : Row} {w : Word}
    (h : (a.pattern ^^^ b.pattern) &&& a.mask &&& b.mask ≠ 0#32) (ha : a.takes ext w = true) :
    b.takes ext w = false := by
  rw [← Bool.not_eq_true]
  intro hb
  simp only [Row.takes, Bool.and_eq_true, beq_iff_eq] at ha hb
  apply h
  rw [← ha.2, ← hb.2]
  apply BitVec.eq_of_getLsbD_eq
  intro i hi
  simp only [BitVec.getLsbD_and, BitVec.getLsbD_xor, BitVec.getLsbD_zero]
  cases w.getLsbD i <;> cases a.mask.getLsbD i <;> cases b.mask.getLsbD i <;> rfl

/-- Over disjoint rows the first match is the only one. -/
theorem firstMatch_of_mem {ext : Bool} {w : Word} : ∀ {rows : List Row} (tail : List Row)
    (_ : rows.Pairwise (fun a b => (a.pattern ^^^ b.pattern) &&& a.mask &&& b.mask ≠ 0#32)) {r : Row} (_ : r ∈ rows)
    (_ : r.takes ext w = true), firstMatch ext w (rows ++ tail) = r.build w
  | a :: rows, tail, hp, r, hr, ht => by
    rw [List.pairwise_cons] at hp
    simp only [List.cons_append, firstMatch]
    rcases List.mem_cons.mp hr with rfl | hr
    · simp [ht]
    · have hne : (r.pattern ^^^ a.pattern) &&& r.mask &&& a.mask ≠ 0#32 := by
        have h := hp.1 r hr
        rwa [BitVec.xor_comm, BitVec.and_assoc, BitVec.and_comm r.mask, ← BitVec.and_assoc]
      simp only [takes_disjoint hne ht, Bool.false_eq_true, if_false]
      exact firstMatch_of_mem tail hp.2 hr ht

/-- Rows that do not take the word are passed over. -/
theorem firstMatch_of_none {ext : Bool} {w : Word} : ∀ {rows : List Row} (tail : List Row)
    (_ : ∀ r ∈ rows, r.takes ext w = false), firstMatch ext w (rows ++ tail) = firstMatch ext w tail
  | [], _, _ => rfl
  | a :: rows, tail, h => by
    simp only [List.cons_append, firstMatch, h a (List.mem_cons_self ..), Bool.false_eq_true, if_false]
    exact firstMatch_of_none tail fun r hr => h r (List.mem_cons_of_mem _ hr)

/-! ### The bits of an encoding (R82) -/

section fields
variable (f7 op : BitVec 7) (rs1 rs2 rd : RegNum) (f3 : BitVec 3) (i12 : BitVec 12) (imm : Word) (k : Nat)

theorem getLsbD_wordR : (wordR f7 rs2 rs1 f3 rd op).getLsbD k =
      (if k < 7 then op.getLsbD k
      else if k < 12 then rd.getLsbD (k - 7)
      else if k < 15 then f3.getLsbD (k - 12)
      else if k < 20 then rs1.getLsbD (k - 15)
      else if k < 25 then rs2.getLsbD (k - 20)
      else f7.getLsbD (k - 25)) := by
  show BitVec.getLsbD (w := 7 + 5 + 5 + 3 + 5 + 7) (_ ++ _ ++ _ ++ _ ++ _ ++ _) k = _
  simp only [BitVec.getLsbD_append]
  split_ifs <;> first | rfl | omega

theorem getLsbD_wordI : (wordI i12 rs1 f3 rd op).getLsbD k =
      (if k < 7 then op.getLsbD k
      else if k < 12 then rd.getLsbD (k - 7)
      else if k < 15 then f3.getLsbD (k - 12)
      else if k < 20 then rs1.getLsbD (k - 15)
      else i12.getLsbD (k - 20)) := by
  show BitVec.getLsbD (w := 12 + 5 + 3 + 5 + 7) (_ ++ _ ++ _ ++ _ ++ _) k = _
  simp only [BitVec.getLsbD_append]
  split_ifs <;> first | rfl | omega

theorem getLsbD_wordS : (wordS imm rs2 rs1 f3 op).getLsbD k =
      (if k < 7 then op.getLsbD k
      else if k < 12 then (imm.extractLsb' 0 5).getLsbD (k - 7)
      else if k < 15 then f3.getLsbD (k - 12)
      else if k < 20 then rs1.getLsbD (k - 15)
      else if k < 25 then rs2.getLsbD (k - 20)
      else (imm.extractLsb' 5 7).getLsbD (k - 25)) := by
  show BitVec.getLsbD (w := 7 + 5 + 5 + 3 + 5 + 7) (_ ++ _ ++ _ ++ _ ++ _ ++ _) k = _
  simp only [BitVec.getLsbD_append]
  split_ifs <;> first | rfl | omega

theorem getLsbD_wordB : (wordB imm rs2 rs1 f3 op).getLsbD k =
      (if k < 7 then op.getLsbD k
      else if k < 8 then (imm.extractLsb' 11 1).getLsbD (k - 7)
      else if k < 12 then (imm.extractLsb' 1 4).getLsbD (k - 8)
      else if k < 15 then f3.getLsbD (k - 12)
      else if k < 20 then rs1.getLsbD (k - 15)
      else if k < 25 then rs2.getLsbD (k - 20)
      else if k < 31 then (imm.extractLsb' 5 6).getLsbD (k - 25)
      else (imm.extractLsb' 12 1).getLsbD (k - 31)) := by
  show BitVec.getLsbD (w := 1 + 6 + 5 + 5 + 3 + 4 + 1 + 7) (_ ++ _ ++ _ ++ _ ++ _ ++ _ ++ _ ++ _) k = _
  simp only [BitVec.getLsbD_append]
  split_ifs <;> first | rfl | omega

theorem getLsbD_wordU : (wordU imm rd op).getLsbD k =
      (if k < 7 then op.getLsbD k
      else if k < 12 then rd.getLsbD (k - 7)
      else (imm.extractLsb' 12 20).getLsbD (k - 12)) := by
  show BitVec.getLsbD (w := 20 + 5 + 7) (_ ++ _ ++ _) k = _
  simp only [BitVec.getLsbD_append]
  split_ifs <;> first | rfl | omega

theorem getLsbD_wordJ : (wordJ imm rd op).getLsbD k =
      (if k < 7 then op.getLsbD k
      else if k < 12 then rd.getLsbD (k - 7)
      else if k < 20 then (imm.extractLsb' 12 8).getLsbD (k - 12)
      else if k < 21 then (imm.extractLsb' 11 1).getLsbD (k - 20)
      else if k < 31 then (imm.extractLsb' 1 10).getLsbD (k - 21)
      else (imm.extractLsb' 20 1).getLsbD (k - 31)) := by
  show BitVec.getLsbD (w := 1 + 10 + 1 + 8 + 5 + 7) (_ ++ _ ++ _ ++ _ ++ _ ++ _) k = _
  simp only [BitVec.getLsbD_append]
  split_ifs <;> first | rfl | omega

/-! ### Fields of an encoding -/

@[simp] theorem opcode_wordR : (wordR f7 rs2 rs1 f3 rd op).extractLsb' 0 7 = op := by
  apply BitVec.eq_of_getLsbD_eq
  intro i hi
  simp only [BitVec.getLsbD_extractLsb', hi, decide_true, Bool.true_and, getLsbD_wordR]
  split_ifs <;> first | omega | (congr 1; omega)

@[simp] theorem funct3_wordR : (wordR f7 rs2 rs1 f3 rd op).extractLsb' 12 3 = f3 := by
  apply BitVec.eq_of_getLsbD_eq
  intro i hi
  simp only [BitVec.getLsbD_extractLsb', hi, decide_true, Bool.true_and, getLsbD_wordR]
  split_ifs <;> first | omega | (congr 1; omega)

@[simp] theorem funct7_wordR : (wordR f7 rs2 rs1 f3 rd op).extractLsb' 25 7 = f7 := by
  apply BitVec.eq_of_getLsbD_eq
  intro i hi
  simp only [BitVec.getLsbD_extractLsb', hi, decide_true, Bool.true_and, getLsbD_wordR]
  split_ifs <;> first | omega | (congr 1; omega)

@[simp] theorem rd_wordR : fieldRd (wordR f7 rs2 rs1 f3 rd op) = rd := by
  apply BitVec.eq_of_getLsbD_eq
  intro i hi
  simp only [fieldRd, BitVec.getLsbD_extractLsb', hi, decide_true, Bool.true_and, getLsbD_wordR]
  split_ifs <;> first | omega | (congr 1; omega)

@[simp] theorem rs1_wordR : fieldRs1 (wordR f7 rs2 rs1 f3 rd op) = rs1 := by
  apply BitVec.eq_of_getLsbD_eq
  intro i hi
  simp only [fieldRs1, BitVec.getLsbD_extractLsb', hi, decide_true, Bool.true_and, getLsbD_wordR]
  split_ifs <;> first | omega | (congr 1; omega)

@[simp] theorem rs2_wordR : fieldRs2 (wordR f7 rs2 rs1 f3 rd op) = rs2 := by
  apply BitVec.eq_of_getLsbD_eq
  intro i hi
  simp only [fieldRs2, BitVec.getLsbD_extractLsb', hi, decide_true, Bool.true_and, getLsbD_wordR]
  split_ifs <;> first | omega | (congr 1; omega)

@[simp] theorem shamt_wordR : fieldShamt (wordR f7 rs2 rs1 f3 rd op) = rs2 := rs2_wordR f7 op rs1 rs2 rd f3

@[simp] theorem opcode_wordI : (wordI i12 rs1 f3 rd op).extractLsb' 0 7 = op := by
  apply BitVec.eq_of_getLsbD_eq
  intro i hi
  simp only [BitVec.getLsbD_extractLsb', hi, decide_true, Bool.true_and, getLsbD_wordI]
  split_ifs <;> first | omega | (congr 1; omega)

@[simp] theorem funct3_wordI : (wordI i12 rs1 f3 rd op).extractLsb' 12 3 = f3 := by
  apply BitVec.eq_of_getLsbD_eq
  intro i hi
  simp only [BitVec.getLsbD_extractLsb', hi, decide_true, Bool.true_and, getLsbD_wordI]
  split_ifs <;> first | omega | (congr 1; omega)

@[simp] theorem rd_wordI : fieldRd (wordI i12 rs1 f3 rd op) = rd := by
  apply BitVec.eq_of_getLsbD_eq
  intro i hi
  simp only [fieldRd, BitVec.getLsbD_extractLsb', hi, decide_true, Bool.true_and, getLsbD_wordI]
  split_ifs <;> first | omega | (congr 1; omega)

@[simp] theorem rs1_wordI : fieldRs1 (wordI i12 rs1 f3 rd op) = rs1 := by
  apply BitVec.eq_of_getLsbD_eq
  intro i hi
  simp only [fieldRs1, BitVec.getLsbD_extractLsb', hi, decide_true, Bool.true_and, getLsbD_wordI]
  split_ifs <;> first | omega | (congr 1; omega)

@[simp] theorem uimm_wordI : fieldUimm (wordI i12 rs1 f3 rd op) = rs1 := rs1_wordI op rs1 rd f3 i12

@[simp] theorem csr_wordI : fieldCsr (wordI i12 rs1 f3 rd op) = i12 := by
  apply BitVec.eq_of_getLsbD_eq
  intro i hi
  simp only [fieldCsr, BitVec.getLsbD_extractLsb', hi, decide_true, Bool.true_and, getLsbD_wordI]
  split_ifs <;> first | omega | (congr 1; omega)

@[simp] theorem immI_wordI : immI (wordI i12 rs1 f3 rd op) = i12.signExtend 32 := by
  rw [immI, show (wordI i12 rs1 f3 rd op).extractLsb' 20 12 = i12 from csr_wordI op rs1 rd f3 i12]

@[simp] theorem opcode_wordS : (wordS imm rs2 rs1 f3 op).extractLsb' 0 7 = op := by
  apply BitVec.eq_of_getLsbD_eq
  intro i hi
  simp only [BitVec.getLsbD_extractLsb', hi, decide_true, Bool.true_and, getLsbD_wordS]
  split_ifs <;> first | omega | (congr 1; omega)

@[simp] theorem funct3_wordS : (wordS imm rs2 rs1 f3 op).extractLsb' 12 3 = f3 := by
  apply BitVec.eq_of_getLsbD_eq
  intro i hi
  simp only [BitVec.getLsbD_extractLsb', hi, decide_true, Bool.true_and, getLsbD_wordS]
  split_ifs <;> first | omega | (congr 1; omega)

@[simp] theorem rs1_wordS : fieldRs1 (wordS imm rs2 rs1 f3 op) = rs1 := by
  apply BitVec.eq_of_getLsbD_eq
  intro i hi
  simp only [fieldRs1, BitVec.getLsbD_extractLsb', hi, decide_true, Bool.true_and, getLsbD_wordS]
  split_ifs <;> first | omega | (congr 1; omega)

@[simp] theorem rs2_wordS : fieldRs2 (wordS imm rs2 rs1 f3 op) = rs2 := by
  apply BitVec.eq_of_getLsbD_eq
  intro i hi
  simp only [fieldRs2, BitVec.getLsbD_extractLsb', hi, decide_true, Bool.true_and, getLsbD_wordS]
  split_ifs <;> first | omega | (congr 1; omega)

@[simp] theorem opcode_wordB : (wordB imm rs2 rs1 f3 op).extractLsb' 0 7 = op := by
  apply BitVec.eq_of_getLsbD_eq
  intro i hi
  simp only [BitVec.getLsbD_extractLsb', hi, decide_true, Bool.true_and, getLsbD_wordB]
  split_ifs <;> first | omega | (congr 1; omega)

@[simp] theorem funct3_wordB : (wordB imm rs2 rs1 f3 op).extractLsb' 12 3 = f3 := by
  apply BitVec.eq_of_getLsbD_eq
  intro i hi
  simp only [BitVec.getLsbD_extractLsb', hi, decide_true, Bool.true_and, getLsbD_wordB]
  split_ifs <;> first | omega | (congr 1; omega)

@[simp] theorem rs1_wordB : fieldRs1 (wordB imm rs2 rs1 f3 op) = rs1 := by
  apply BitVec.eq_of_getLsbD_eq
  intro i hi
  simp only [fieldRs1, BitVec.getLsbD_extractLsb', hi, decide_true, Bool.true_and, getLsbD_wordB]
  split_ifs <;> first | omega | (congr 1; omega)

@[simp] theorem rs2_wordB : fieldRs2 (wordB imm rs2 rs1 f3 op) = rs2 := by
  apply BitVec.eq_of_getLsbD_eq
  intro i hi
  simp only [fieldRs2, BitVec.getLsbD_extractLsb', hi, decide_true, Bool.true_and, getLsbD_wordB]
  split_ifs <;> first | omega | (congr 1; omega)

@[simp] theorem opcode_wordU : (wordU imm rd op).extractLsb' 0 7 = op := by
  apply BitVec.eq_of_getLsbD_eq
  intro i hi
  simp only [BitVec.getLsbD_extractLsb', hi, decide_true, Bool.true_and, getLsbD_wordU]
  split_ifs <;> first | omega | (congr 1; omega)

@[simp] theorem rd_wordU : fieldRd (wordU imm rd op) = rd := by
  apply BitVec.eq_of_getLsbD_eq
  intro i hi
  simp only [fieldRd, BitVec.getLsbD_extractLsb', hi, decide_true, Bool.true_and, getLsbD_wordU]
  split_ifs <;> first | omega | (congr 1; omega)

@[simp] theorem opcode_wordJ : (wordJ imm rd op).extractLsb' 0 7 = op := by
  apply BitVec.eq_of_getLsbD_eq
  intro i hi
  simp only [BitVec.getLsbD_extractLsb', hi, decide_true, Bool.true_and, getLsbD_wordJ]
  split_ifs <;> first | omega | (congr 1; omega)

@[simp] theorem rd_wordJ : fieldRd (wordJ imm rd op) = rd := by
  apply BitVec.eq_of_getLsbD_eq
  intro i hi
  simp only [fieldRd, BitVec.getLsbD_extractLsb', hi, decide_true, Bool.true_and, getLsbD_wordJ]
  split_ifs <;> first | omega | (congr 1; omega)

/-! ### Immediates of an encoding -/

theorem getLsbD_bitsS (w : Word) : (bitsS w).getLsbD k =
    (if k < 5 then (w.extractLsb' 7 5).getLsbD k else (w.extractLsb' 25 7).getLsbD (k - 5)) := by
  show BitVec.getLsbD (w := 7 + 5) (_ ++ _) k = _
  simp only [BitVec.getLsbD_append]

theorem getLsbD_bitsB (w : Word) : (bitsB w).getLsbD k =
    (if k < 1 then false else if k < 5 then (w.extractLsb' 8 4).getLsbD (k - 1)
      else if k < 11 then (w.extractLsb' 25 6).getLsbD (k - 5)
      else if k < 12 then (w.extractLsb' 7 1).getLsbD (k - 11) else (w.extractLsb' 31 1).getLsbD (k - 12)) := by
  show BitVec.getLsbD (w := 1 + 1 + 6 + 4 + 1) (_ ++ _ ++ _ ++ _ ++ _) k = _
  simp only [BitVec.getLsbD_append, BitVec.getLsbD_zero]
  split_ifs <;> first | rfl | omega

theorem getLsbD_immU (w : Word) : (immU w).getLsbD k =
    (if k < 12 then false else (w.extractLsb' 12 20).getLsbD (k - 12)) := by
  show BitVec.getLsbD (w := 20 + 12) (_ ++ _) k = _
  simp only [BitVec.getLsbD_append, BitVec.getLsbD_zero]

theorem getLsbD_bitsJ (w : Word) : (bitsJ w).getLsbD k =
    (if k < 1 then false else if k < 11 then (w.extractLsb' 21 10).getLsbD (k - 1)
      else if k < 12 then (w.extractLsb' 20 1).getLsbD (k - 11)
      else if k < 20 then (w.extractLsb' 12 8).getLsbD (k - 12) else (w.extractLsb' 31 1).getLsbD (k - 20)) := by
  show BitVec.getLsbD (w := 1 + 8 + 1 + 10 + 1) (_ ++ _ ++ _ ++ _ ++ _) k = _
  simp only [BitVec.getLsbD_append, BitVec.getLsbD_zero]
  split_ifs <;> first | rfl | omega

@[simp] theorem bitsS_wordS : bitsS (wordS imm rs2 rs1 f3 op) = imm.setWidth 12 := by
  apply BitVec.eq_of_getLsbD_eq
  intro i hi
  simp only [getLsbD_bitsS, BitVec.getLsbD_extractLsb', getLsbD_wordS, BitVec.getLsbD_setWidth]
  interval_cases i <;> simp

@[simp] theorem immS_wordS : immS (wordS imm rs2 rs1 f3 op) = (imm.setWidth 12).signExtend 32 := by
  rw [immS, bitsS_wordS]

/-- The even part of the 13-bit offset comes back. -/
theorem immB_wordB (h : imm.getLsbD 0 = false) :
    immB (wordB imm rs2 rs1 f3 op) = (imm.setWidth 13).signExtend 32 := by
  have : bitsB (wordB imm rs2 rs1 f3 op) = imm.setWidth 13 := by
    apply BitVec.eq_of_getLsbD_eq
    intro i hi
    simp only [getLsbD_bitsB, BitVec.getLsbD_extractLsb', getLsbD_wordB, BitVec.getLsbD_setWidth]
    interval_cases i <;> simp [show imm[0] = false from h]
  rw [immB, this]

/-- The upper twenty bits come back. -/
theorem immU_wordU (h : imm.setWidth 12 = 0#12) : immU (wordU imm rd op) = imm := by
  have hz : ∀ k, k < 12 → imm.getLsbD k = false := by
    intro k hk
    have := congrArg (fun x => x.getLsbD k) h
    simpa [hk] using this
  apply BitVec.eq_of_getLsbD_eq
  intro i hi
  simp only [getLsbD_immU, BitVec.getLsbD_extractLsb', getLsbD_wordU]
  split
  · next hk => exact (hz i hk).symm
  · simp only [show ¬ 12 + (i - 12) < 7 by omega, show ¬ 12 + (i - 12) < 12 by omega, if_false,
      show i - 12 < 20 by omega, decide_true, Bool.true_and, show 12 + (i - 12) - 12 < 20 by omega]
    congr 1; omega

/-- The even part of the 21-bit offset comes back. -/
theorem immJ_wordJ (h : imm.getLsbD 0 = false) :
    immJ (wordJ imm rd op) = (imm.setWidth 21).signExtend 32 := by
  have : bitsJ (wordJ imm rd op) = imm.setWidth 21 := by
    apply BitVec.eq_of_getLsbD_eq
    intro i hi
    simp only [getLsbD_bitsJ, BitVec.getLsbD_extractLsb', getLsbD_wordJ, BitVec.getLsbD_setWidth]
    interval_cases i <;> simp [show imm[0] = false from h]
  rw [immJ, this]

/-- FENCE's ignored fields come back. -/
theorem fence_fields (fm pr su : BitVec 4) :
    fieldFm (wordI (fm ++ pr ++ su) rs1 f3 rd op) = fm ∧ fieldPred (wordI (fm ++ pr ++ su) rs1 f3 rd op) = pr
      ∧ fieldSucc (wordI (fm ++ pr ++ su) rs1 f3 rd op) = su := by
  have e : ∀ j, (fm ++ pr ++ su : BitVec 12).getLsbD j =
      (if j < 4 then su.getLsbD j else if j < 8 then pr.getLsbD (j - 4) else fm.getLsbD (j - 8)) := by
    intro j
    show BitVec.getLsbD (w := 4 + 4 + 4) (_ ++ _ ++ _) j = _
    simp only [BitVec.getLsbD_append]
    split_ifs <;> first | rfl | omega
  refine ⟨?_, ?_, ?_⟩ <;>
    (apply BitVec.eq_of_getLsbD_eq
     intro i hi
     simp only [fieldFm, fieldPred, fieldSucc, BitVec.getLsbD_extractLsb', hi, decide_true, Bool.true_and,
       getLsbD_wordI, e]
     split_ifs <;> first | omega | (congr 1; omega))

end fields

/-! ### The fields of any word, encoded again -/

/-- Each format puts a word's fields back where they came from. -/
theorem wordR_fields (w : Word) :
    wordR (w.extractLsb' 25 7) (fieldRs2 w) (fieldRs1 w) (w.extractLsb' 12 3) (fieldRd w) (w.extractLsb' 0 7) = w := by
  apply BitVec.eq_of_getLsbD_eq
  intro i hi
  simp only [getLsbD_wordR, fieldRd, fieldRs1, fieldRs2, BitVec.getLsbD_extractLsb']
  interval_cases i <;> simp

theorem wordI_fields (w : Word) :
    wordI (fieldCsr w) (fieldRs1 w) (w.extractLsb' 12 3) (fieldRd w) (w.extractLsb' 0 7) = w := by
  apply BitVec.eq_of_getLsbD_eq
  intro i hi
  simp only [getLsbD_wordI, fieldRd, fieldRs1, fieldCsr, BitVec.getLsbD_extractLsb']
  interval_cases i <;> simp

/-- Sign extension keeps the bits it extends. -/
theorem low_signExtend {n : Nat} (x : BitVec n) (h : n ≤ 32) : (x.signExtend 32).setWidth n = x := by
  apply BitVec.eq_of_getLsbD_eq
  intro i hi
  simp only [BitVec.getLsbD_setWidth, BitVec.getLsbD_signExtend, hi, decide_true, Bool.true_and, if_true]
  simp [show i < 32 by omega]

theorem wordS_fields (w : Word) :
    wordS (immS w) (fieldRs2 w) (fieldRs1 w) (w.extractLsb' 12 3) (w.extractLsb' 0 7) = w := by
  apply BitVec.eq_of_getLsbD_eq
  intro i hi
  simp only [getLsbD_wordS, fieldRs1, fieldRs2, immS, BitVec.getLsbD_extractLsb', BitVec.getLsbD_signExtend,
    getLsbD_bitsS]
  interval_cases i <;> simp

theorem wordB_fields (w : Word) :
    wordB (immB w) (fieldRs2 w) (fieldRs1 w) (w.extractLsb' 12 3) (w.extractLsb' 0 7) = w := by
  apply BitVec.eq_of_getLsbD_eq
  intro i hi
  simp only [getLsbD_wordB, fieldRs1, fieldRs2, immB, BitVec.getLsbD_extractLsb', BitVec.getLsbD_signExtend,
    getLsbD_bitsB]
  interval_cases i <;> simp

theorem wordU_fields (w : Word) : wordU (immU w) (fieldRd w) (w.extractLsb' 0 7) = w := by
  apply BitVec.eq_of_getLsbD_eq
  intro i hi
  simp only [getLsbD_wordU, fieldRd, BitVec.getLsbD_extractLsb', getLsbD_immU]
  interval_cases i <;> simp

theorem wordJ_fields (w : Word) : wordJ (immJ w) (fieldRd w) (w.extractLsb' 0 7) = w := by
  apply BitVec.eq_of_getLsbD_eq
  intro i hi
  simp only [getLsbD_wordJ, fieldRd, immJ, BitVec.getLsbD_extractLsb', BitVec.getLsbD_signExtend, getLsbD_bitsJ]
  interval_cases i <;> simp

/-- A field below bit `m` is a field of the low `m` bits. -/
theorem extract_low (v : Word) {m a n : Nat} (h : a + n ≤ m) : v.extractLsb' a n = (v.setWidth m).extractLsb' a n := by
  apply BitVec.eq_of_getLsbD_eq
  intro i hi
  have h1 : a + i < m := by omega
  simp only [BitVec.getLsbD_extractLsb', BitVec.getLsbD_setWidth, h1, decide_true, Bool.true_and]

/-- The `rd` bits of a word are the low bits of its S immediate (R86, R88). -/
theorem immS_rd (w : Word) : (immS w).extractLsb' 0 5 = fieldRd w := by
  rw [immS, extract_low (m := 12) _ (by decide), low_signExtend _ (by decide)]
  apply BitVec.eq_of_getLsbD_eq
  intro i hi
  simp only [fieldRd, BitVec.getLsbD_extractLsb', getLsbD_bitsS, Nat.zero_add, hi, if_true,
    decide_true, Bool.true_and]

/-- The `rd` bits of a word are bits 4:1 and 11 of its B immediate (R86, R89). -/
theorem immB_rd (w : Word) : (immB w).extractLsb' 1 4 ++ (immB w).extractLsb' 11 1 = fieldRd w := by
  rw [immB, extract_low (m := 13) (a := 1) _ (by decide), extract_low (m := 13) (a := 11) _ (by decide),
    low_signExtend _ (by decide)]
  apply BitVec.eq_of_getLsbD_eq
  intro i hi
  show BitVec.getLsbD (w := 4 + 1) (_ ++ _) i = _
  have : i = 0 ∨ i = 1 ∨ i = 2 ∨ i = 3 ∨ i = 4 := by omega
  rcases this with rfl | rfl | rfl | rfl | rfl <;>
    simp only [fieldRd, BitVec.getLsbD_append, BitVec.getLsbD_extractLsb', getLsbD_bitsB] <;> rfl

theorem fence_word (w : Word) : fieldFm w ++ fieldPred w ++ fieldSucc w = fieldCsr w := by
  apply BitVec.eq_of_getLsbD_eq
  intro i hi
  show BitVec.getLsbD (w := 4 + 4 + 4) (_ ++ _ ++ _) i = _
  simp only [BitVec.getLsbD_append, fieldFm, fieldPred, fieldSucc, fieldCsr, BitVec.getLsbD_extractLsb']
  interval_cases i <;> simp

/-- The immediates of a word fit their formats. -/
theorem immI_low (w : Word) : (immI w).setWidth 12 = fieldCsr w := low_signExtend _ (by decide)

@[simp] theorem fitsImm12_immI (w : Word) : fitsImm12 (immI w) = true := by
  simp only [fitsImm12, immI, low_signExtend _ (show 12 ≤ 32 by decide), beq_self_eq_true]

@[simp] theorem fitsImm12_immS (w : Word) : fitsImm12 (immS w) = true := by
  simp only [fitsImm12, immS, low_signExtend _ (show 12 ≤ 32 by decide), beq_self_eq_true]

@[simp] theorem fitsImmB_immB (w : Word) : fitsImmB (immB w) = true := by
  simp only [fitsImmB, immB, low_signExtend _ (show 13 ≤ 32 by decide), beq_self_eq_true, Bool.true_and,
    BitVec.getLsbD_signExtend, getLsbD_bitsB]
  simp

@[simp] theorem fitsImmJ_immJ (w : Word) : fitsImmJ (immJ w) = true := by
  simp only [fitsImmJ, immJ, low_signExtend _ (show 21 ≤ 32 by decide), beq_self_eq_true, Bool.true_and,
    BitVec.getLsbD_signExtend, getLsbD_bitsJ]
  simp

@[simp] theorem fitsImmU_immU (w : Word) : fitsImmU (immU w) = true := by
  simp only [fitsImmU, beq_iff_eq]
  apply BitVec.eq_of_getLsbD_eq
  intro i hi
  simp [getLsbD_immU, hi]
/-! ### What the encoder writes, one equation per constructor with fields -/

theorem encode_lui (rd : RegNum) (imm : Word) :
    encode (.lui rd imm) = wordU imm rd 0b0110111#7 := rfl

theorem encode_auipc (rd : RegNum) (imm : Word) :
    encode (.auipc rd imm) = wordU imm rd 0b0010111#7 := rfl

theorem encode_jal (rd : RegNum) (imm : Word) :
    encode (.jal rd imm) = wordJ imm rd 0b1101111#7 := rfl

theorem encode_jalr (rd rs1 : RegNum) (imm : Word) :
    encode (.jalr rd rs1 imm) = wordI (imm.setWidth 12) rs1 0b000#3 rd 0b1100111#7 := rfl

theorem encode_beq (rs1 rs2 : RegNum) (imm : Word) :
    encode (.beq rs1 rs2 imm) = wordB imm rs2 rs1 0b000#3 0b1100011#7 := rfl

theorem encode_bne (rs1 rs2 : RegNum) (imm : Word) :
    encode (.bne rs1 rs2 imm) = wordB imm rs2 rs1 0b001#3 0b1100011#7 := rfl

theorem encode_blt (rs1 rs2 : RegNum) (imm : Word) :
    encode (.blt rs1 rs2 imm) = wordB imm rs2 rs1 0b100#3 0b1100011#7 := rfl

theorem encode_bge (rs1 rs2 : RegNum) (imm : Word) :
    encode (.bge rs1 rs2 imm) = wordB imm rs2 rs1 0b101#3 0b1100011#7 := rfl

theorem encode_bltu (rs1 rs2 : RegNum) (imm : Word) :
    encode (.bltu rs1 rs2 imm) = wordB imm rs2 rs1 0b110#3 0b1100011#7 := rfl

theorem encode_bgeu (rs1 rs2 : RegNum) (imm : Word) :
    encode (.bgeu rs1 rs2 imm) = wordB imm rs2 rs1 0b111#3 0b1100011#7 := rfl

theorem encode_lb (rd rs1 : RegNum) (imm : Word) :
    encode (.lb rd rs1 imm) = wordI (imm.setWidth 12) rs1 0b000#3 rd 0b0000011#7 := rfl

theorem encode_lh (rd rs1 : RegNum) (imm : Word) :
    encode (.lh rd rs1 imm) = wordI (imm.setWidth 12) rs1 0b001#3 rd 0b0000011#7 := rfl

theorem encode_lw (rd rs1 : RegNum) (imm : Word) :
    encode (.lw rd rs1 imm) = wordI (imm.setWidth 12) rs1 0b010#3 rd 0b0000011#7 := rfl

theorem encode_lbu (rd rs1 : RegNum) (imm : Word) :
    encode (.lbu rd rs1 imm) = wordI (imm.setWidth 12) rs1 0b100#3 rd 0b0000011#7 := rfl

theorem encode_lhu (rd rs1 : RegNum) (imm : Word) :
    encode (.lhu rd rs1 imm) = wordI (imm.setWidth 12) rs1 0b101#3 rd 0b0000011#7 := rfl

theorem encode_sb (rs1 rs2 : RegNum) (imm : Word) :
    encode (.sb rs1 rs2 imm) = wordS imm rs2 rs1 0b000#3 0b0100011#7 := rfl

theorem encode_sh (rs1 rs2 : RegNum) (imm : Word) :
    encode (.sh rs1 rs2 imm) = wordS imm rs2 rs1 0b001#3 0b0100011#7 := rfl

theorem encode_sw (rs1 rs2 : RegNum) (imm : Word) :
    encode (.sw rs1 rs2 imm) = wordS imm rs2 rs1 0b010#3 0b0100011#7 := rfl

theorem encode_addi (rd rs1 : RegNum) (imm : Word) :
    encode (.addi rd rs1 imm) = wordI (imm.setWidth 12) rs1 0b000#3 rd 0b0010011#7 := rfl

theorem encode_slti (rd rs1 : RegNum) (imm : Word) :
    encode (.slti rd rs1 imm) = wordI (imm.setWidth 12) rs1 0b010#3 rd 0b0010011#7 := rfl

theorem encode_sltiu (rd rs1 : RegNum) (imm : Word) :
    encode (.sltiu rd rs1 imm) = wordI (imm.setWidth 12) rs1 0b011#3 rd 0b0010011#7 := rfl

theorem encode_xori (rd rs1 : RegNum) (imm : Word) :
    encode (.xori rd rs1 imm) = wordI (imm.setWidth 12) rs1 0b100#3 rd 0b0010011#7 := rfl

theorem encode_ori (rd rs1 : RegNum) (imm : Word) :
    encode (.ori rd rs1 imm) = wordI (imm.setWidth 12) rs1 0b110#3 rd 0b0010011#7 := rfl

theorem encode_andi (rd rs1 : RegNum) (imm : Word) :
    encode (.andi rd rs1 imm) = wordI (imm.setWidth 12) rs1 0b111#3 rd 0b0010011#7 := rfl

theorem encode_slli (rd rs1 : RegNum) (shamt : BitVec 5) :
    encode (.slli rd rs1 shamt) = wordR 0b0000000#7 shamt rs1 0b001#3 rd 0b0010011#7 := rfl

theorem encode_srli (rd rs1 : RegNum) (shamt : BitVec 5) :
    encode (.srli rd rs1 shamt) = wordR 0b0000000#7 shamt rs1 0b101#3 rd 0b0010011#7 := rfl

theorem encode_srai (rd rs1 : RegNum) (shamt : BitVec 5) :
    encode (.srai rd rs1 shamt) = wordR 0b0100000#7 shamt rs1 0b101#3 rd 0b0010011#7 := rfl

theorem encode_add (rd rs1 rs2 : RegNum) :
    encode (.add rd rs1 rs2) = wordR 0b0000000#7 rs2 rs1 0b000#3 rd 0b0110011#7 := rfl

theorem encode_sub (rd rs1 rs2 : RegNum) :
    encode (.sub rd rs1 rs2) = wordR 0b0100000#7 rs2 rs1 0b000#3 rd 0b0110011#7 := rfl

theorem encode_sll (rd rs1 rs2 : RegNum) :
    encode (.sll rd rs1 rs2) = wordR 0b0000000#7 rs2 rs1 0b001#3 rd 0b0110011#7 := rfl

theorem encode_slt (rd rs1 rs2 : RegNum) :
    encode (.slt rd rs1 rs2) = wordR 0b0000000#7 rs2 rs1 0b010#3 rd 0b0110011#7 := rfl

theorem encode_sltu (rd rs1 rs2 : RegNum) :
    encode (.sltu rd rs1 rs2) = wordR 0b0000000#7 rs2 rs1 0b011#3 rd 0b0110011#7 := rfl

theorem encode_xor (rd rs1 rs2 : RegNum) :
    encode (.xor rd rs1 rs2) = wordR 0b0000000#7 rs2 rs1 0b100#3 rd 0b0110011#7 := rfl

theorem encode_srl (rd rs1 rs2 : RegNum) :
    encode (.srl rd rs1 rs2) = wordR 0b0000000#7 rs2 rs1 0b101#3 rd 0b0110011#7 := rfl

theorem encode_sra (rd rs1 rs2 : RegNum) :
    encode (.sra rd rs1 rs2) = wordR 0b0100000#7 rs2 rs1 0b101#3 rd 0b0110011#7 := rfl

theorem encode_or (rd rs1 rs2 : RegNum) :
    encode (.or rd rs1 rs2) = wordR 0b0000000#7 rs2 rs1 0b110#3 rd 0b0110011#7 := rfl

theorem encode_and (rd rs1 rs2 : RegNum) :
    encode (.and rd rs1 rs2) = wordR 0b0000000#7 rs2 rs1 0b111#3 rd 0b0110011#7 := rfl

theorem encode_mul (rd rs1 rs2 : RegNum) :
    encode (.mul rd rs1 rs2) = wordR 0b0000001#7 rs2 rs1 0b000#3 rd 0b0110011#7 := rfl

theorem encode_mulh (rd rs1 rs2 : RegNum) :
    encode (.mulh rd rs1 rs2) = wordR 0b0000001#7 rs2 rs1 0b001#3 rd 0b0110011#7 := rfl

theorem encode_mulhsu (rd rs1 rs2 : RegNum) :
    encode (.mulhsu rd rs1 rs2) = wordR 0b0000001#7 rs2 rs1 0b010#3 rd 0b0110011#7 := rfl

theorem encode_mulhu (rd rs1 rs2 : RegNum) :
    encode (.mulhu rd rs1 rs2) = wordR 0b0000001#7 rs2 rs1 0b011#3 rd 0b0110011#7 := rfl

theorem encode_div (rd rs1 rs2 : RegNum) :
    encode (.div rd rs1 rs2) = wordR 0b0000001#7 rs2 rs1 0b100#3 rd 0b0110011#7 := rfl

theorem encode_divu (rd rs1 rs2 : RegNum) :
    encode (.divu rd rs1 rs2) = wordR 0b0000001#7 rs2 rs1 0b101#3 rd 0b0110011#7 := rfl

theorem encode_rem (rd rs1 rs2 : RegNum) :
    encode (.rem rd rs1 rs2) = wordR 0b0000001#7 rs2 rs1 0b110#3 rd 0b0110011#7 := rfl

theorem encode_remu (rd rs1 rs2 : RegNum) :
    encode (.remu rd rs1 rs2) = wordR 0b0000001#7 rs2 rs1 0b111#3 rd 0b0110011#7 := rfl

theorem encode_fence (fm pred succ : BitVec 4) (rs1 rd : RegNum) :
    encode (.fence fm pred succ rs1 rd) = wordI (fm ++ pred ++ succ) rs1 0b000#3 rd 0b0001111#7 := rfl

theorem encode_csrrw (rd : RegNum) (csr : CsrNum) (rs1 : RegNum) :
    encode (.csrrw rd csr rs1) = wordI csr rs1 0b001#3 rd 0b1110011#7 := rfl

theorem encode_csrrs (rd : RegNum) (csr : CsrNum) (rs1 : RegNum) :
    encode (.csrrs rd csr rs1) = wordI csr rs1 0b010#3 rd 0b1110011#7 := rfl

theorem encode_csrrc (rd : RegNum) (csr : CsrNum) (rs1 : RegNum) :
    encode (.csrrc rd csr rs1) = wordI csr rs1 0b011#3 rd 0b1110011#7 := rfl

theorem encode_csrrwi (rd : RegNum) (csr : CsrNum) (uimm : BitVec 5) :
    encode (.csrrwi rd csr uimm) = wordI csr uimm 0b101#3 rd 0b1110011#7 := rfl

theorem encode_csrrsi (rd : RegNum) (csr : CsrNum) (uimm : BitVec 5) :
    encode (.csrrsi rd csr uimm) = wordI csr uimm 0b110#3 rd 0b1110011#7 := rfl

theorem encode_csrrci (rd : RegNum) (csr : CsrNum) (uimm : BitVec 5) :
    encode (.csrrci rd csr uimm) = wordI csr uimm 0b111#3 rd 0b1110011#7 := rfl

/-! ### Words and bytes -/

@[simp] theorem wordOfBytes_bytesOfWord (w : Word) :
    wordOfBytes (w.extractLsb' 0 8) (w.extractLsb' 8 8) (w.extractLsb' 16 8) (w.extractLsb' 24 8) = w := by
  apply BitVec.eq_of_getLsbD_eq
  intro i hi
  show BitVec.getLsbD (w := 8 + 8 + 8 + 8) (_ ++ _ ++ _ ++ _) i = _
  simp only [BitVec.getLsbD_append]
  interval_cases i <;> simp

end Sys2Proof
end

