-- ==== Sys2Proof/Laws/Memory.lean ====
section
/-! SUPPORT. The laws of memory: a read after a write, every other byte untouched, and every operation keeps the
canonical form and the range. -/

namespace Sys2Proof.Machine

theorem wfFrom_mono {lo lo' : Nat} (h : lo' ≤ lo) : ∀ {m : Memory}, m.wfFrom lo = true → m.wfFrom lo' = true
  | [], _ => rfl
  | (b, w) :: m, hm => by
    simp only [Memory.wfFrom, Bool.and_eq_true, decide_eq_true_eq] at hm ⊢
    exact ⟨⟨by omega, hm.1.2⟩, hm.2⟩

/-- Below the first listed address every byte is the unlisted one. -/
theorem byte_of_lt : ∀ {m : Memory} {lo a : Nat}, m.wfFrom lo = true → a < lo → m.byte a = unlistedByte
  | [], _, _, _, _ => rfl
  | (b, w) :: m, lo, a, hm, ha => by
    simp only [Memory.wfFrom, Bool.and_eq_true, decide_eq_true_eq] at hm
    have hb : a ≠ b := by omega
    simp only [Memory.byte, hb, if_false]
    exact byte_of_lt hm.2 (by omega)

theorem wfFrom_setByte : ∀ {m : Memory} {lo a : Nat} {v : Byte}, m.wfFrom lo = true → lo ≤ a →
    (m.setByte a v).wfFrom lo = true
  | [], lo, a, v, _, ha => by
    by_cases hv : v = unlistedByte <;> simp [Memory.setByte, Memory.wfFrom, hv, ha]
  | (b, w) :: m, lo, a, v, hm, ha => by
    have hm' := hm
    simp only [Memory.wfFrom, Bool.and_eq_true, decide_eq_true_eq] at hm'
    obtain ⟨⟨hlo, hw⟩, htail⟩ := hm'
    simp only [Memory.setByte]
    split
    · next hab =>
      split
      · exact hm
      · next hv =>
        simp only [Memory.wfFrom, Bool.and_eq_true, decide_eq_true_eq]
        exact ⟨⟨ha, by simpa using hv⟩, ⟨by omega, hw⟩, htail⟩
    · split
      · next hab =>
        subst hab
        split
        · exact wfFrom_mono (by omega) htail
        · next hv =>
          simp only [Memory.wfFrom, Bool.and_eq_true, decide_eq_true_eq]
          exact ⟨⟨hlo, by simpa using hv⟩, htail⟩
      · simp only [Memory.wfFrom, Bool.and_eq_true, decide_eq_true_eq]
        exact ⟨⟨hlo, hw⟩, wfFrom_setByte htail (by omega)⟩

/-- Writing a byte keeps the canonical form. -/
theorem wf_setByte {m : Memory} (h : m.wf = true) (a : Nat) (v : Byte) : (m.setByte a v).wf = true :=
  wfFrom_setByte h (Nat.zero_le a)

theorem byte_setByte_from : ∀ {m : Memory} {lo : Nat}, m.wfFrom lo = true → ∀ (a : Nat) (v : Byte) (b : Nat),
    (m.setByte a v).byte b = if b = a then v else m.byte b
  | [], _, _, a, v, b => by
    by_cases hv : v = unlistedByte <;> by_cases hb : b = a <;> simp [Memory.setByte, Memory.byte, hv, hb]
  | (c, w) :: m, lo, hm, a, v, b => by
    have hm' := hm
    simp only [Memory.wfFrom, Bool.and_eq_true, decide_eq_true_eq] at hm'
    obtain ⟨⟨hlo, hw⟩, htail⟩ := hm'
    simp only [Memory.setByte]
    split
    · next hac =>
      have hunl : Memory.byte ((c, w) :: m) a = unlistedByte := by
        have hne : a ≠ c := by omega
        simp only [Memory.byte, hne, if_false]
        exact byte_of_lt htail (by omega)
      split
      · next hv =>
        by_cases hb : b = a
        · subst hb; simp [hunl, hv]
        · simp [hb]
      · by_cases hb : b = a <;> simp [Memory.byte, hb]
    · split
      · next hac =>
        subst hac
        have hunl : Memory.byte m a = unlistedByte := byte_of_lt htail (by omega)
        split
        · next hv =>
          by_cases hb : b = a
          · subst hb; simp [hunl, hv]
          · simp [Memory.byte, hb]
        · by_cases hb : b = a <;> simp [Memory.byte, hb]
      · next h1 h2 =>
        have ih := byte_setByte_from htail a v b
        by_cases hb : b = c
        · subst hb
          have : b ≠ a := fun e => h2 e.symm
          simp [Memory.byte, this]
        · simp [Memory.byte, hb, ih]

/-- A read after a write of one byte. -/
theorem byte_setByte {m : Memory} (h : m.wf = true) (a : Nat) (v : Byte) (b : Nat) :
    (m.setByte a v).byte b = if b = a then v else m.byte b :=
  byte_setByte_from h a v b

theorem within_setByte {lo hi : Nat} {a : Nat} {v : Byte} (h1 : lo ≤ a) (h2 : a < hi) :
    ∀ {m : Memory}, m.within lo hi = true → (m.setByte a v).within lo hi = true
  | [], _ => by by_cases hv : v = unlistedByte <;> simp [Memory.setByte, Memory.within, hv, h1, h2]
  | (b, w) :: m, hm => by
    have hm' : (lo ≤ b ∧ b < hi) ∧ Memory.within m lo hi = true := by
      simpa [Memory.within] using hm
    have ih := within_setByte (v := v) h1 h2 hm'.2
    simp only [Memory.within] at hm ih hm' ⊢
    simp only [Memory.setByte]
    split_ifs
    · exact hm
    · simp [h1, h2, hm']
    · exact hm'.2
    · simp [h1, h2, hm'.2]
    · simp [hm'.1, ih]

/-! ### Wider writes -/

theorem wf_writeBytes {m : Memory} (h : m.wf = true) (a : Nat) (v : Word) :
    ∀ n, (m.writeBytes a v n).wf = true
  | 0 => h
  | n + 1 => wf_setByte (wf_writeBytes h a v n) _ _

theorem within_writeBytes {m : Memory} {lo hi : Nat} (h : m.within lo hi = true) {a : Nat} (v : Word) (h1 : lo ≤ a) :
    ∀ n, a + n ≤ hi → (m.writeBytes a v n).within lo hi = true
  | 0, _ => h
  | n + 1, h2 => within_setByte (by omega) (by omega) (within_writeBytes h v h1 n (by omega))

/-- What `n` written bytes leave: the bytes of the value, little-endian, and every other byte as it was. -/
theorem byte_writeBytes {m : Memory} (h : m.wf = true) (a : Nat) (v : Word) (b : Nat) :
    ∀ n, (m.writeBytes a v n).byte b =
      if a ≤ b ∧ b < a + n then v.extractLsb' (8 * (b - a)) 8 else m.byte b
  | 0 => by
    have : ¬ (a ≤ b ∧ b < a + 0) := by omega
    simp only [Memory.writeBytes, this, if_false]
  | n + 1 => by
    simp only [Memory.writeBytes, byte_setByte (wf_writeBytes h a v n), byte_writeBytes h a v b n]
    by_cases hb : b = a + n
    · subst hb; simp
    · by_cases h2 : a ≤ b ∧ b < a + n
      · have : a ≤ b ∧ b < a + (n + 1) := by omega
        simp only [hb, h2, this, and_self, if_false, if_true]
      · have : ¬ (a ≤ b ∧ b < a + (n + 1)) := by omega
        simp only [hb, h2, this, if_false]

/-- A read of a width depends on the bytes of that width only. -/
theorem readLE_congr {m m' : Memory} {a a' : Nat} {n : Width}
    (h : ∀ k, k < n.bytes → m.byte (a + k) = m'.byte (a' + k)) : m.readLE a n = m'.readLE a' n := by
  cases n <;> simp only [Width.bytes] at h
  · simp only [Memory.readLE, show m.byte a = m'.byte a' from h 0 (by omega)]
  · simp only [Memory.readLE, h 1 (by omega), show m.byte a = m'.byte a' from h 0 (by omega)]
  · simp only [Memory.readLE, h 1 (by omega), h 2 (by omega), h 3 (by omega),
      show m.byte a = m'.byte a' from h 0 (by omega)]

/-- A word read back where it was written. -/
theorem readLE_writeBytes_word {m : Memory} (h : m.wf = true) (a : Nat) (v : Word) :
    (m.writeBytes a v 4).readLE a .word = v := by
  have e : ∀ k, k < 4 → (m.writeBytes a v 4).byte (a + k) = v.extractLsb' (8 * k) 8 := by
    intro k hk
    rw [byte_writeBytes h, if_pos (by omega)]
    congr 2; omega
  have e0 : (m.writeBytes a v 4).byte a = v.extractLsb' 0 8 := e 0 (by omega)
  simp only [Memory.readLE, e0, e 1 (by omega), e 2 (by omega), e 3 (by omega)]
  ext i hi
  simp only [BitVec.getElem_append, BitVec.getElem_extractLsb']
  split_ifs <;> rw [← BitVec.getLsbD_eq_getElem hi] <;> congr 1 <;> omega

/-! ### An image -/

theorem wf_loadImage : ∀ (image : List Byte) {m : Memory} (_ : m.wf = true) (a : Nat), (loadImage m a image).wf = true
  | [], _, h, _ => h
  | b :: image, _, h, a => wf_loadImage image (wf_setByte h a b) (a + 1)

theorem within_loadImage {lo hi : Nat} : ∀ (image : List Byte) {m : Memory} (_ : m.within lo hi = true) {a : Nat},
    lo ≤ a → a + image.length ≤ hi → (loadImage m a image).within lo hi = true
  | [], _, h, _, _, _ => h
  | b :: image, _, h, a, h1, h2 => by
    simp only [List.length_cons] at h2
    exact within_loadImage image (within_setByte h1 (by omega) h) (by omega) (by omega)

/-- What a loaded image leaves: its bytes from the address up, and every other byte as it was. -/
theorem byte_loadImage : ∀ (image : List Byte) {m : Memory} (_ : m.wf = true) (a b : Nat),
    (loadImage m a image).byte b = if h : a ≤ b ∧ b - a < image.length then image[b - a]'h.2 else m.byte b
  | [], m, h, a, b => by simp [loadImage]
  | x :: image, m, h, a, b => by
    rw [loadImage, byte_loadImage image (wf_setByte h a x) (a + 1) b, byte_setByte h]
    by_cases hb : b = a
    · subst hb; simp
    · by_cases h2 : a + 1 ≤ b
      · have e : b - a = (b - (a + 1)) + 1 := by omega
        simp only [e, List.length_cons, hb, if_false]
        simp [h2, show a ≤ b by omega]
      · have : ¬ a ≤ b := by omega
        simp [h2, this, hb]

end Sys2Proof.Machine
end

