-- ==== Sys2Proof/Laws/Ops.lean ====
section
/-! SUPPORT. One lemma per shared operation of Machine/Ops.lean and of the family files, saying everything it can do, and
`exec_form`, the forms every instruction's next state has. The provers cite these instead of unfolding. -/

namespace Sys2Proof.Machine

/-! ### Memory access -/

theorem inGuestMemory_iff (cfg : Config) (a : Word) (n : Nat) :
    inGuestMemory cfg a n = true ↔
      cfg.memBase.toNat ≤ a.toNat ∧ a.toNat + n ≤ cfg.memBase.toNat + cfg.memSize := by
  simp [inGuestMemory]

theorem inGuestMemory_false_iff (cfg : Config) (a : Word) (n : Nat) :
    inGuestMemory cfg a n = false ↔
      a.toNat < cfg.memBase.toNat ∨ cfg.memBase.toNat + cfg.memSize < a.toNat + n := by
  rw [← Bool.not_eq_true, inGuestMemory_iff]; omega

theorem memRead_of_in {s : State} {a : Word} {n : Width} (h : inGuestMemory s.cfg a n.bytes = true) :
    s.memRead a n = .ok (s.mem.readLE a.toNat n) := by
  simp [State.memRead, h]

theorem memRead_of_out {s : State} {a : Word} {n : Width} (h : inGuestMemory s.cfg a n.bytes = false) :
    s.memRead a n = .error (.accessFault a) := by
  simp [State.memRead, h]

theorem memWrite_of_in {s : State} {a : Word} {n : Width} (v : Word) (h : inGuestMemory s.cfg a n.bytes = true) :
    s.memWrite a n v = .ok { s with mem := s.mem.writeBytes a.toNat v n.bytes } := by
  simp [State.memWrite, h]

theorem memWrite_of_out {s : State} {a : Word} {n : Width} (v : Word) (h : inGuestMemory s.cfg a n.bytes = false) :
    s.memWrite a n v = .error (.accessFault a) := by
  simp [State.memWrite, h]

/-- Whether a data access goes through: in Guest Memory, and aligned where `ALIGN_CHECK` asks. -/
def accessOk (s : State) (ea : Word) (n : Width) : Bool :=
  !s.alignFault ea n && inGuestMemory s.cfg ea n.bytes

theorem accessOk_iff (s : State) (ea : Word) (n : Width) :
    accessOk s ea n = true ↔ (s.cfg.memBase.toNat ≤ ea.toNat
      ∧ ea.toNat + n.bytes ≤ s.cfg.memBase.toNat + s.cfg.memSize
      ∧ (s.cfg.alignCheck = true → ea.toNat % n.bytes = 0)) := by
  simp only [accessOk, State.alignFault, misaligned, Bool.and_eq_true, inGuestMemory_iff]
  cases s.cfg.alignCheck <;> simp; tauto

theorem alignFault_iff (s : State) (ea : Word) (n : Width) :
    s.alignFault ea n = true ↔ s.cfg.alignCheck = true ∧ ea.toNat % n.bytes ≠ 0 := by
  simp [State.alignFault, misaligned]

theorem dataRead_of_ok {s : State} {ea : Word} {n : Width} (h : accessOk s ea n = true) :
    s.dataRead ea n = .ok (s.mem.readLE ea.toNat n) := by
  simp only [accessOk, Bool.and_eq_true, Bool.not_eq_true'] at h
  simp [State.dataRead, h.1, memRead_of_in h.2]

theorem dataWrite_of_ok {s : State} {ea : Word} {n : Width} (v : Word) (h : accessOk s ea n = true) :
    s.dataWrite ea n v = .ok { s with mem := s.mem.writeBytes ea.toNat v n.bytes } := by
  simp only [accessOk, Bool.and_eq_true, Bool.not_eq_true'] at h
  simp [State.dataWrite, h.1, memWrite_of_in v h.2]

/-- The reason a data access that does not go through gives: the alignment first. -/
def accessReason (s : State) (ea : Word) (n : Width) : AbortReason :=
  if s.alignFault ea n then .misalignedAccess ea else .accessFault ea

theorem dataRead_of_not_ok {s : State} {ea : Word} {n : Width} (h : accessOk s ea n = false) :
    s.dataRead ea n = .error (accessReason s ea n) := by
  cases ha : s.alignFault ea n
  · have h2 : inGuestMemory s.cfg ea n.bytes = false := by simpa [accessOk, ha] using h
    simp [State.dataRead, accessReason, ha, memRead_of_out h2]
  · simp [State.dataRead, accessReason, ha]

theorem dataWrite_of_not_ok {s : State} {ea : Word} {n : Width} (v : Word) (h : accessOk s ea n = false) :
    s.dataWrite ea n v = .error (accessReason s ea n) := by
  cases ha : s.alignFault ea n
  · have h2 : inGuestMemory s.cfg ea n.bytes = false := by simpa [accessOk, ha] using h
    simp [State.dataWrite, accessReason, ha, memWrite_of_out v h2]
  · simp [State.dataWrite, accessReason, ha]

/-- A load: either it reads and writes `rd`, or it aborts. -/
theorem load_eq (rd : RegNum) (ea : Word) (n : Width) (extend : Word → Word) (s : State) :
    load rd ea n extend s =
      if accessOk s ea n then .next ((s.setReg rd (extend (s.mem.readLE ea.toNat n))).retire s.snpc)
      else .next (s.abort (accessReason s ea n)) := by
  cases h : accessOk s ea n
  · simp [load, dataRead_of_not_ok h]
  · simp [load, dataRead_of_ok h, writeResult]

/-- A store: either it writes its bytes, or it aborts. -/
theorem store_eq (ea : Word) (n : Width) (v : Word) (s : State) :
    store ea n v s =
      if accessOk s ea n then .next ({ s with mem := s.mem.writeBytes ea.toNat v n.bytes }.retire s.snpc)
      else .next (s.abort (accessReason s ea n)) := by
  cases h : accessOk s ea n
  · simp [store, dataWrite_of_not_ok v h]
  · simp [store, dataWrite_of_ok v h]

/-! ### CSRs -/

/-- The number of a CSR (10_state.md R30). -/
def Csr.number : Csr → CsrNum
  | .mstatus => 0x300#12
  | .mtvec => 0x305#12
  | .mepc => 0x341#12
  | .mcause => 0x342#12

theorem csrOfNumber_eq_some {n : CsrNum} {c : Csr} : csrOfNumber n = some c ↔ n = c.number := by
  constructor
  · intro h
    simp only [csrOfNumber] at h
    split_ifs at h with h1 h2 h3 h4 <;> cases h <;> assumption
  · rintro rfl
    cases c <;> rfl

theorem csrOfNumber_eq_none {n : CsrNum} : csrOfNumber n = none ↔ ∀ c : Csr, n ≠ c.number := by
  constructor
  · intro h c hc
    rw [csrOfNumber_eq_some.mpr hc] at h
    cases h
  · intro h
    cases hn : csrOfNumber n with
    | none => rfl
    | some c => exact absurd (csrOfNumber_eq_some.mp hn) (h c)

/-- A CSR instruction: either it reads and writes the CSR its number names, or it aborts. -/
theorem csrAccess_some {rd : RegNum} {csr : CsrNum} {c : Csr} (new : Word → Word) (s : State)
    (h : csr = c.number) : csrAccess rd csr new s =
      .next (((s.writeCsr c (new (s.readCsr c))).setReg rd (s.readCsr c)).retire s.snpc) := by
  simp [csrAccess, csrOfNumber_eq_some.mpr h]

theorem csrAccess_none {rd : RegNum} {csr : CsrNum} (new : Word → Word) (s : State)
    (h : ∀ c : Csr, csr ≠ c.number) : csrAccess rd csr new s = .next (s.abort .invalidInstruction) := by
  simp [csrAccess, csrOfNumber_eq_none.mpr h]

/-! ### What a next state can be -/

/-- The forms of the next state of an instruction. -/
inductive NextForm (s t : State) : Prop where
  /-- A register is written and the step retires. -/
  | writesReg (rd : RegNum) (v d : Word) : t = (s.setReg rd v).retire d → NextForm s t
  /-- The step retires and writes nothing else. -/
  | retires (d : Word) : t = s.retire d → NextForm s t
  /-- Bytes in Guest Memory are written and the step retires. -/
  | stores (ea v : Word) (n : Width) : inGuestMemory s.cfg ea n.bytes = true →
      t = { s with mem := s.mem.writeBytes ea.toNat v n.bytes }.retire s.snpc → NextForm s t
  /-- A CSR and a register are written and the step retires. -/
  | writesCsr (c : Csr) (v : Word) (rd : RegNum) (w : Word) :
      t = ((s.writeCsr c v).setReg rd w).retire s.snpc → NextForm s t
  /-- A fatal fault. -/
  | aborts (reason : AbortReason) : t = s.abort reason → NextForm s t
  /-- The trap. -/
  | traps (cause epc : Word) : t = s.trapEntry cause epc → NextForm s t
  /-- The return from it. -/
  | returns : t = s.trapReturn → NextForm s t
  /-- The end of the run. -/
  | halts (code : Word) : t = s.halt code → NextForm s t

theorem load_form (rd : RegNum) (ea : Word) (n : Width) (extend : Word → Word) (s : State) :
    ∃ t, load rd ea n extend s = .next t ∧ NextForm s t := by
  rw [load_eq]
  split
  · exact ⟨_, rfl, .writesReg _ _ _ rfl⟩
  · exact ⟨_, rfl, .aborts _ rfl⟩

theorem store_form (ea : Word) (n : Width) (v : Word) (s : State) :
    ∃ t, store ea n v s = .next t ∧ NextForm s t := by
  rw [store_eq]
  split
  · next h =>
    simp only [accessOk, Bool.and_eq_true] at h
    exact ⟨_, rfl, .stores _ _ _ h.2 rfl⟩
  · exact ⟨_, rfl, .aborts _ rfl⟩

theorem csrAccess_form (rd : RegNum) (csr : CsrNum) (new : Word → Word) (s : State) :
    ∃ t, csrAccess rd csr new s = .next t ∧ NextForm s t := by
  rw [csrAccess]
  split
  · exact ⟨_, rfl, .writesCsr _ _ _ _ rfl⟩
  · exact ⟨_, rfl, .aborts _ rfl⟩

theorem csrAccessOptional_form (rd : RegNum) (csr : CsrNum) (new : Word → Word) (s : State) :
    ∃ t, csrAccessOptional rd csr new s = .next t ∧ NextForm s t := by
  rw [csrAccessOptional]
  split
  · exact csrAccess_form rd csr new s
  · exact ⟨_, rfl, .aborts _ rfl⟩

/-- Every instruction answers a next state of one of the eight forms. -/
theorem exec_form (i : Instr) (s : State) : ∃ t, exec i s = .next t ∧ NextForm s t := by
  cases i
  case fence => exact ⟨_, rfl, .retires _ rfl⟩
  case ecall => exact ⟨_, rfl, .traps _ _ rfl⟩
  case ebreak => exact ⟨_, rfl, .halts _ rfl⟩
  case mret => exact ⟨_, rfl, .returns rfl⟩
  case inv => exact ⟨_, rfl, .aborts _ rfl⟩
  case csrrw rd csr rs1 => exact csrAccess_form rd csr (fun _ => s.reg rs1) s
  case csrrs rd csr rs1 => exact csrAccess_form rd csr (fun old => old ||| s.reg rs1) s
  case csrrc => exact csrAccessOptional_form _ _ _ _
  case csrrwi => exact csrAccessOptional_form _ _ _ _
  case csrrsi => exact csrAccessOptional_form _ _ _ _
  case csrrci => exact csrAccessOptional_form _ _ _ _
  all_goals first
    | exact load_form _ _ _ _ _
    | exact store_form _ _ _ _
    | exact ⟨_, rfl, .writesReg _ _ _ rfl⟩
    | exact ⟨_, rfl, .retires _ rfl⟩

/-- The same of a given next state. -/
theorem exec_next_form {i : Instr} {s t : State} (h : exec i s = .next t) : NextForm s t := by
  obtain ⟨u, hu, hf⟩ := exec_form i s
  rw [hu] at h
  cases h
  exact hf

/-- A step of a running machine: a fetch fault, or the instruction the fetched word spells. -/
theorem step_running {s : State} (h : s.run = .running) : step s =
    match s.fetch with
    | .ok w => exec (decodeWord s.cfg.csrExtOps w) s
    | .error reason => .next (s.abort reason) := by
  cases s
  cases h
  rfl

/-- What a step's next state can be, and that the run was Running. -/
theorem step_next_form {s t : State} (h : step s = .next t) :
    s.run = .running ∧ NextForm s t := by
  cases hr : s.run with
  | running =>
    rw [step_running hr] at h
    split at h
    · exact ⟨rfl, exec_next_form h⟩
    · cases h
      exact ⟨rfl, .aborts _ rfl⟩
  | halted c p => simp [step, hr] at h
  | aborted e p => simp [step, hr] at h

end Sys2Proof.Machine
end

