-- ==== Sys2Proof/Laws/Exec.lean ====
section
/-! SUPPORT. What `exec` is on each instruction, in terms of the shared operations: one equation per constructor, true by
definition, so that a proof about an instruction rewrites with its equation and then cites the operation's lemma
(Laws/Ops.lean). -/

namespace Sys2Proof.Machine

theorem exec_lui (rd : RegNum) (imm : Word) (s : State) : exec (.lui rd imm) s =
    .next ((s.setReg rd imm).retire s.snpc) := rfl

theorem exec_auipc (rd : RegNum) (imm : Word) (s : State) : exec (.auipc rd imm) s =
    .next ((s.setReg rd (s.pc + imm)).retire s.snpc) := rfl

theorem exec_jal (rd : RegNum) (imm : Word) (s : State) : exec (.jal rd imm) s =
    .next ((s.setReg rd s.snpc).retire (s.pc + imm)) := rfl

theorem exec_jalr (rd rs1 : RegNum) (imm : Word) (s : State) : exec (.jalr rd rs1 imm) s =
    .next ((s.setReg rd s.snpc).retire ((s.reg rs1 + imm) &&& 0xFFFFFFFE#32)) := rfl

theorem exec_beq (rs1 rs2 : RegNum) (imm : Word) (s : State) : exec (.beq rs1 rs2 imm) s =
    .next (s.retire (if s.reg rs1 == s.reg rs2 then s.pc + imm else s.snpc)) := rfl

theorem exec_bne (rs1 rs2 : RegNum) (imm : Word) (s : State) : exec (.bne rs1 rs2 imm) s =
    .next (s.retire (if s.reg rs1 != s.reg rs2 then s.pc + imm else s.snpc)) := rfl

theorem exec_blt (rs1 rs2 : RegNum) (imm : Word) (s : State) : exec (.blt rs1 rs2 imm) s =
    .next (s.retire (if ltSigned (s.reg rs1) (s.reg rs2) then s.pc + imm else s.snpc)) := rfl

theorem exec_bge (rs1 rs2 : RegNum) (imm : Word) (s : State) : exec (.bge rs1 rs2 imm) s =
    .next (s.retire (if !ltSigned (s.reg rs1) (s.reg rs2) then s.pc + imm else s.snpc)) := rfl

theorem exec_bltu (rs1 rs2 : RegNum) (imm : Word) (s : State) : exec (.bltu rs1 rs2 imm) s =
    .next (s.retire (if ltUnsigned (s.reg rs1) (s.reg rs2) then s.pc + imm else s.snpc)) := rfl

theorem exec_bgeu (rs1 rs2 : RegNum) (imm : Word) (s : State) : exec (.bgeu rs1 rs2 imm) s =
    .next (s.retire (if !ltUnsigned (s.reg rs1) (s.reg rs2) then s.pc + imm else s.snpc)) := rfl

theorem exec_lb (rd rs1 : RegNum) (imm : Word) (s : State) : exec (.lb rd rs1 imm) s =
    load rd (s.reg rs1 + imm) .byte sext8 s := rfl

theorem exec_lh (rd rs1 : RegNum) (imm : Word) (s : State) : exec (.lh rd rs1 imm) s =
    load rd (s.reg rs1 + imm) .half sext16 s := rfl

theorem exec_lw (rd rs1 : RegNum) (imm : Word) (s : State) : exec (.lw rd rs1 imm) s =
    load rd (s.reg rs1 + imm) .word id s := rfl

theorem exec_lbu (rd rs1 : RegNum) (imm : Word) (s : State) : exec (.lbu rd rs1 imm) s =
    load rd (s.reg rs1 + imm) .byte id s := rfl

theorem exec_lhu (rd rs1 : RegNum) (imm : Word) (s : State) : exec (.lhu rd rs1 imm) s =
    load rd (s.reg rs1 + imm) .half id s := rfl

theorem exec_sb (rs1 rs2 : RegNum) (imm : Word) (s : State) : exec (.sb rs1 rs2 imm) s =
    store (s.reg rs1 + imm) .byte (s.reg rs2) s := rfl

theorem exec_sh (rs1 rs2 : RegNum) (imm : Word) (s : State) : exec (.sh rs1 rs2 imm) s =
    store (s.reg rs1 + imm) .half (s.reg rs2) s := rfl

theorem exec_sw (rs1 rs2 : RegNum) (imm : Word) (s : State) : exec (.sw rs1 rs2 imm) s =
    store (s.reg rs1 + imm) .word (s.reg rs2) s := rfl

theorem exec_addi (rd rs1 : RegNum) (imm : Word) (s : State) : exec (.addi rd rs1 imm) s =
    .next ((s.setReg rd (s.reg rs1 + imm)).retire s.snpc) := rfl

theorem exec_slti (rd rs1 : RegNum) (imm : Word) (s : State) : exec (.slti rd rs1 imm) s =
    .next ((s.setReg rd (truth (ltSigned (s.reg rs1) imm))).retire s.snpc) := rfl

theorem exec_sltiu (rd rs1 : RegNum) (imm : Word) (s : State) : exec (.sltiu rd rs1 imm) s =
    .next ((s.setReg rd (truth (ltUnsigned (s.reg rs1) imm))).retire s.snpc) := rfl

theorem exec_xori (rd rs1 : RegNum) (imm : Word) (s : State) : exec (.xori rd rs1 imm) s =
    .next ((s.setReg rd (s.reg rs1 ^^^ imm)).retire s.snpc) := rfl

theorem exec_ori (rd rs1 : RegNum) (imm : Word) (s : State) : exec (.ori rd rs1 imm) s =
    .next ((s.setReg rd (s.reg rs1 ||| imm)).retire s.snpc) := rfl

theorem exec_andi (rd rs1 : RegNum) (imm : Word) (s : State) : exec (.andi rd rs1 imm) s =
    .next ((s.setReg rd (s.reg rs1 &&& imm)).retire s.snpc) := rfl

theorem exec_slli (rd rs1 : RegNum) (shamt : BitVec 5) (s : State) : exec (.slli rd rs1 shamt) s =
    .next ((s.setReg rd (s.reg rs1 <<< shamt.toNat)).retire s.snpc) := rfl

theorem exec_srli (rd rs1 : RegNum) (shamt : BitVec 5) (s : State) : exec (.srli rd rs1 shamt) s =
    .next ((s.setReg rd (s.reg rs1 >>> shamt.toNat)).retire s.snpc) := rfl

theorem exec_srai (rd rs1 : RegNum) (shamt : BitVec 5) (s : State) : exec (.srai rd rs1 shamt) s =
    .next ((s.setReg rd (shiftRightArith (s.reg rs1) shamt.toNat)).retire s.snpc) := rfl

theorem exec_add (rd rs1 rs2 : RegNum) (s : State) : exec (.add rd rs1 rs2) s =
    .next ((s.setReg rd (s.reg rs1 + s.reg rs2)).retire s.snpc) := rfl

theorem exec_sub (rd rs1 rs2 : RegNum) (s : State) : exec (.sub rd rs1 rs2) s =
    .next ((s.setReg rd (s.reg rs1 - s.reg rs2)).retire s.snpc) := rfl

theorem exec_sll (rd rs1 rs2 : RegNum) (s : State) : exec (.sll rd rs1 rs2) s =
    .next ((s.setReg rd (s.reg rs1 <<< shiftAmount (s.reg rs2))).retire s.snpc) := rfl

theorem exec_slt (rd rs1 rs2 : RegNum) (s : State) : exec (.slt rd rs1 rs2) s =
    .next ((s.setReg rd (truth (ltSigned (s.reg rs1) (s.reg rs2)))).retire s.snpc) := rfl

theorem exec_sltu (rd rs1 rs2 : RegNum) (s : State) : exec (.sltu rd rs1 rs2) s =
    .next ((s.setReg rd (truth (ltUnsigned (s.reg rs1) (s.reg rs2)))).retire s.snpc) := rfl

theorem exec_xor (rd rs1 rs2 : RegNum) (s : State) : exec (.xor rd rs1 rs2) s =
    .next ((s.setReg rd (s.reg rs1 ^^^ s.reg rs2)).retire s.snpc) := rfl

theorem exec_srl (rd rs1 rs2 : RegNum) (s : State) : exec (.srl rd rs1 rs2) s =
    .next ((s.setReg rd (s.reg rs1 >>> shiftAmount (s.reg rs2))).retire s.snpc) := rfl

theorem exec_sra (rd rs1 rs2 : RegNum) (s : State) : exec (.sra rd rs1 rs2) s =
    .next ((s.setReg rd (shiftRightArith (s.reg rs1) (shiftAmount (s.reg rs2)))).retire s.snpc) := rfl

theorem exec_or (rd rs1 rs2 : RegNum) (s : State) : exec (.or rd rs1 rs2) s =
    .next ((s.setReg rd (s.reg rs1 ||| s.reg rs2)).retire s.snpc) := rfl

theorem exec_and (rd rs1 rs2 : RegNum) (s : State) : exec (.and rd rs1 rs2) s =
    .next ((s.setReg rd (s.reg rs1 &&& s.reg rs2)).retire s.snpc) := rfl

theorem exec_mul (rd rs1 rs2 : RegNum) (s : State) : exec (.mul rd rs1 rs2) s =
    .next ((s.setReg rd (lowHalf (product ((s.reg rs1).toInt * (s.reg rs2).toInt)))).retire s.snpc) := rfl

theorem exec_mulh (rd rs1 rs2 : RegNum) (s : State) : exec (.mulh rd rs1 rs2) s =
    .next ((s.setReg rd (highHalf (product ((s.reg rs1).toInt * (s.reg rs2).toInt)))).retire s.snpc) := rfl

theorem exec_mulhsu (rd rs1 rs2 : RegNum) (s : State) : exec (.mulhsu rd rs1 rs2) s =
    .next ((s.setReg rd (highHalf (product ((s.reg rs1).toInt * ((s.reg rs2).toNat : Int))))).retire s.snpc) := rfl

theorem exec_mulhu (rd rs1 rs2 : RegNum) (s : State) : exec (.mulhu rd rs1 rs2) s =
    .next ((s.setReg rd (highHalf (product (((s.reg rs1).toNat : Int) * ((s.reg rs2).toNat : Int))))).retire s.snpc) := rfl

theorem exec_div (rd rs1 rs2 : RegNum) (s : State) : exec (.div rd rs1 rs2) s =
    .next ((s.setReg rd (divSigned (s.reg rs1) (s.reg rs2))).retire s.snpc) := rfl

theorem exec_divu (rd rs1 rs2 : RegNum) (s : State) : exec (.divu rd rs1 rs2) s =
    .next ((s.setReg rd (divUnsigned (s.reg rs1) (s.reg rs2))).retire s.snpc) := rfl

theorem exec_rem (rd rs1 rs2 : RegNum) (s : State) : exec (.rem rd rs1 rs2) s =
    .next ((s.setReg rd (remSigned (s.reg rs1) (s.reg rs2))).retire s.snpc) := rfl

theorem exec_remu (rd rs1 rs2 : RegNum) (s : State) : exec (.remu rd rs1 rs2) s =
    .next ((s.setReg rd (remUnsigned (s.reg rs1) (s.reg rs2))).retire s.snpc) := rfl

theorem exec_fence (fm pred succ : BitVec 4) (rs1 rd : RegNum) (s : State) : exec (.fence fm pred succ rs1 rd) s =
    .next (s.retire s.snpc) := rfl

theorem exec_ecall (s : State) : exec .ecall s =
    .next (s.trapEntry s.cfg.ecallCause s.ecallReturn) := rfl

theorem exec_ebreak (s : State) : exec .ebreak s =
    .next (s.halt (s.reg s.cfg.exitReg)) := rfl

theorem exec_mret (s : State) : exec .mret s =
    .next s.trapReturn := rfl

theorem exec_csrrw (rd : RegNum) (csr : CsrNum) (rs1 : RegNum) (s : State) : exec (.csrrw rd csr rs1) s =
    csrAccess rd csr (fun _ => s.reg rs1) s := rfl

theorem exec_csrrs (rd : RegNum) (csr : CsrNum) (rs1 : RegNum) (s : State) : exec (.csrrs rd csr rs1) s =
    csrAccess rd csr (fun old => old ||| s.reg rs1) s := rfl

theorem exec_csrrc (rd : RegNum) (csr : CsrNum) (rs1 : RegNum) (s : State) : exec (.csrrc rd csr rs1) s =
    csrAccessOptional rd csr (fun old => old &&& ~~~(s.reg rs1)) s := rfl

theorem exec_csrrwi (rd : RegNum) (csr : CsrNum) (uimm : BitVec 5) (s : State) : exec (.csrrwi rd csr uimm) s =
    csrAccessOptional rd csr (fun _ => uimmWord uimm) s := rfl

theorem exec_csrrsi (rd : RegNum) (csr : CsrNum) (uimm : BitVec 5) (s : State) : exec (.csrrsi rd csr uimm) s =
    csrAccessOptional rd csr (fun old => old ||| uimmWord uimm) s := rfl

theorem exec_csrrci (rd : RegNum) (csr : CsrNum) (uimm : BitVec 5) (s : State) : exec (.csrrci rd csr uimm) s =
    csrAccessOptional rd csr (fun old => old &&& ~~~(uimmWord uimm)) s := rfl

theorem exec_inv (raw : Word) (s : State) : exec (.inv raw) s =
    .next (s.abort .invalidInstruction) := rfl

/-! ### What `branch` and the result operations are -/

theorem branch_eq (cond : Word → Word → Bool) (o : Operands) (s : State) : branch cond o s =
    .next (s.retire (if cond o.src1 o.src2 then s.pc + o.imm else s.snpc)) := rfl

theorem truth_ltSigned (a b : Word) : truth (ltSigned a b) = if a.toInt < b.toInt then 1#32 else 0#32 := by
  simp [truth, ltSigned]

theorem truth_ltUnsigned (a b : Word) : truth (ltUnsigned a b) = if a.toNat < b.toNat then 1#32 else 0#32 := by
  simp [truth, ltUnsigned]

theorem shiftAmount_eq (b : Word) : shiftAmount b = b.toNat % 32 := by
  simp [shiftAmount, BitVec.extractLsb'_toNat]

end Sys2Proof.Machine
end

