-- ==== Sys2Proof/Laws/PerInstr.lean ====
section
/-! SUPPORT. The family OwnRow: the word that encodes a well-formed instruction is taken by a row of the table that builds
the instruction back (30_encoding.md R93, R103). With the rows disjoint (R94) the round trip follows. -/

namespace Sys2Proof

/-- A row of the table takes the instruction's encoding and builds the instruction from it. -/
def Laws.OwnRow.Statement (i : Instr) : Prop :=
  ∀ ext, i.wf ext = true → ∃ r ∈ opcodeTable, r.takes ext (encode i) = true ∧ r.build (encode i) = i

/-- The row at a position of the table takes the encoding and builds the instruction. -/
theorem Laws.ownRow_at {i : Instr} (k : Fin 56) (h : ∀ ext, i.wf ext = true →
    (opcodeTable[k]'k.isLt).takes ext (encode i) = true ∧ (opcodeTable[k]'k.isLt).build (encode i) = i) :
    Laws.OwnRow.Statement i :=
  fun ext hw => ⟨opcodeTable[k]'k.isLt, List.getElem_mem _, h ext hw⟩

/-- A word takes a row by its opcode. -/
theorem Laws.takes_opcode {m : String} {p w : Word} {b : Word → Instr} (ext : Bool) (hp : p &&& 0x0000007F#32 = p)
    (h1 : w.extractLsb' 0 7 = p.extractLsb' 0 7) : (Row.mk m 0x0000007F#32 p false b).takes ext w = true := by
  show (true && w &&& 0x0000007F#32 == p) = true
  rw [mask_opcode w p hp, h1]; simp

/-- A word takes a row by its opcode and funct3. -/
theorem Laws.takes_funct3 {m : String} {p w : Word} {b : Word → Instr} {o : Bool} (ext : Bool) (ho : (!o || ext) = true)
    (hp : p &&& 0x0000707F#32 = p) (h1 : w.extractLsb' 0 7 = p.extractLsb' 0 7)
    (h2 : w.extractLsb' 12 3 = p.extractLsb' 12 3) : (Row.mk m 0x0000707F#32 p o b).takes ext w = true := by
  show ((!o || ext) && w &&& 0x0000707F#32 == p) = true
  rw [ho, mask_funct3 w p hp, h1, h2]; simp

/-- A word takes a row by its opcode, funct3 and funct7. -/
theorem Laws.takes_funct7 {m : String} {p w : Word} {b : Word → Instr} (ext : Bool) (hp : p &&& 0xFE00707F#32 = p)
    (h1 : w.extractLsb' 0 7 = p.extractLsb' 0 7) (h2 : w.extractLsb' 12 3 = p.extractLsb' 12 3)
    (h3 : w.extractLsb' 25 7 = p.extractLsb' 25 7) : (Row.mk m 0xFE00707F#32 p false b).takes ext w = true := by
  show (true && w &&& 0xFE00707F#32 == p) = true
  rw [mask_funct7 w p hp, h1, h2, h3]; simp

/-- A well-formed B, U or J immediate comes back, and a well-formed 12-bit one. -/
theorem Laws.immB_back {imm : Word} (h : fitsImmB imm = true) (rs2 rs1 : RegNum) (f3 : BitVec 3) (op : BitVec 7) :
    immB (wordB imm rs2 rs1 f3 op) = imm := by
  simp only [fitsImmB, Bool.and_eq_true, beq_iff_eq, Bool.not_eq_true'] at h
  rw [immB_wordB _ _ _ _ _ h.2, h.1]

theorem Laws.immU_back {imm : Word} (h : fitsImmU imm = true) (rd : RegNum) (op : BitVec 7) :
    immU (wordU imm rd op) = imm := by
  simp only [fitsImmU, beq_iff_eq] at h
  exact immU_wordU _ _ _ h

theorem Laws.immJ_back {imm : Word} (h : fitsImmJ imm = true) (rd : RegNum) (op : BitVec 7) :
    immJ (wordJ imm rd op) = imm := by
  simp only [fitsImmJ, Bool.and_eq_true, beq_iff_eq, Bool.not_eq_true'] at h
  rw [immJ_wordJ _ _ _ h.2, h.1]

theorem Laws.immI_back {imm : Word} (h : fitsImm12 imm = true) (rs1 : RegNum) (f3 : BitVec 3) (rd : RegNum)
    (op : BitVec 7) : immI (wordI (imm.setWidth 12) rs1 f3 rd op) = imm := by
  simp only [fitsImm12, beq_iff_eq] at h
  rw [immI_wordI, h]

theorem Laws.immS_back {imm : Word} (h : fitsImm12 imm = true) (rs2 rs1 : RegNum) (f3 : BitVec 3) (op : BitVec 7) :
    immS (wordS imm rs2 rs1 f3 op) = imm := by
  simp only [fitsImm12, beq_iff_eq] at h
  rw [immS_wordS, h]

namespace Laws.OwnRow

theorem lui (rd : RegNum) (imm : Word) : Statement (.lui rd imm) :=
  ownRow_at 0 fun ext hw => ⟨takes_opcode ext (by decide) (opcode_wordU ..),
    by
      rw [encode_lui]
      show Instr.lui (fieldRd _) (immU _) = _
      rw [rd_wordU, immU_back hw]⟩

theorem auipc (rd : RegNum) (imm : Word) : Statement (.auipc rd imm) :=
  ownRow_at 1 fun ext hw => ⟨takes_opcode ext (by decide) (opcode_wordU ..),
    by
      rw [encode_auipc]
      show Instr.auipc (fieldRd _) (immU _) = _
      rw [rd_wordU, immU_back hw]⟩

theorem jal (rd : RegNum) (imm : Word) : Statement (.jal rd imm) :=
  ownRow_at 2 fun ext hw => ⟨takes_opcode ext (by decide) (opcode_wordJ ..),
    by
      rw [encode_jal]
      show Instr.jal (fieldRd _) (immJ _) = _
      rw [rd_wordJ, immJ_back hw]⟩

theorem jalr (rd rs1 : RegNum) (imm : Word) : Statement (.jalr rd rs1 imm) :=
  ownRow_at 3 fun ext hw => ⟨takes_funct3 ext rfl (by decide) (opcode_wordI ..) (funct3_wordI ..),
    by
      rw [encode_jalr]
      show Instr.jalr (fieldRd _) (fieldRs1 _) (immI _) = _
      rw [rd_wordI, rs1_wordI, immI_back hw]⟩

theorem beq (rs1 rs2 : RegNum) (imm : Word) : Statement (.beq rs1 rs2 imm) :=
  ownRow_at 4 fun ext hw => ⟨takes_funct3 ext rfl (by decide) (opcode_wordB ..) (funct3_wordB ..),
    by
      rw [encode_beq]
      show Instr.beq (fieldRs1 _) (fieldRs2 _) (immB _) = _
      rw [rs1_wordB, rs2_wordB, immB_back hw]⟩

theorem bne (rs1 rs2 : RegNum) (imm : Word) : Statement (.bne rs1 rs2 imm) :=
  ownRow_at 5 fun ext hw => ⟨takes_funct3 ext rfl (by decide) (opcode_wordB ..) (funct3_wordB ..),
    by
      rw [encode_bne]
      show Instr.bne (fieldRs1 _) (fieldRs2 _) (immB _) = _
      rw [rs1_wordB, rs2_wordB, immB_back hw]⟩

theorem blt (rs1 rs2 : RegNum) (imm : Word) : Statement (.blt rs1 rs2 imm) :=
  ownRow_at 6 fun ext hw => ⟨takes_funct3 ext rfl (by decide) (opcode_wordB ..) (funct3_wordB ..),
    by
      rw [encode_blt]
      show Instr.blt (fieldRs1 _) (fieldRs2 _) (immB _) = _
      rw [rs1_wordB, rs2_wordB, immB_back hw]⟩

theorem bge (rs1 rs2 : RegNum) (imm : Word) : Statement (.bge rs1 rs2 imm) :=
  ownRow_at 7 fun ext hw => ⟨takes_funct3 ext rfl (by decide) (opcode_wordB ..) (funct3_wordB ..),
    by
      rw [encode_bge]
      show Instr.bge (fieldRs1 _) (fieldRs2 _) (immB _) = _
      rw [rs1_wordB, rs2_wordB, immB_back hw]⟩

theorem bltu (rs1 rs2 : RegNum) (imm : Word) : Statement (.bltu rs1 rs2 imm) :=
  ownRow_at 8 fun ext hw => ⟨takes_funct3 ext rfl (by decide) (opcode_wordB ..) (funct3_wordB ..),
    by
      rw [encode_bltu]
      show Instr.bltu (fieldRs1 _) (fieldRs2 _) (immB _) = _
      rw [rs1_wordB, rs2_wordB, immB_back hw]⟩

theorem bgeu (rs1 rs2 : RegNum) (imm : Word) : Statement (.bgeu rs1 rs2 imm) :=
  ownRow_at 9 fun ext hw => ⟨takes_funct3 ext rfl (by decide) (opcode_wordB ..) (funct3_wordB ..),
    by
      rw [encode_bgeu]
      show Instr.bgeu (fieldRs1 _) (fieldRs2 _) (immB _) = _
      rw [rs1_wordB, rs2_wordB, immB_back hw]⟩

theorem lb (rd rs1 : RegNum) (imm : Word) : Statement (.lb rd rs1 imm) :=
  ownRow_at 10 fun ext hw => ⟨takes_funct3 ext rfl (by decide) (opcode_wordI ..) (funct3_wordI ..),
    by
      rw [encode_lb]
      show Instr.lb (fieldRd _) (fieldRs1 _) (immI _) = _
      rw [rd_wordI, rs1_wordI, immI_back hw]⟩

theorem lh (rd rs1 : RegNum) (imm : Word) : Statement (.lh rd rs1 imm) :=
  ownRow_at 11 fun ext hw => ⟨takes_funct3 ext rfl (by decide) (opcode_wordI ..) (funct3_wordI ..),
    by
      rw [encode_lh]
      show Instr.lh (fieldRd _) (fieldRs1 _) (immI _) = _
      rw [rd_wordI, rs1_wordI, immI_back hw]⟩

theorem lw (rd rs1 : RegNum) (imm : Word) : Statement (.lw rd rs1 imm) :=
  ownRow_at 12 fun ext hw => ⟨takes_funct3 ext rfl (by decide) (opcode_wordI ..) (funct3_wordI ..),
    by
      rw [encode_lw]
      show Instr.lw (fieldRd _) (fieldRs1 _) (immI _) = _
      rw [rd_wordI, rs1_wordI, immI_back hw]⟩

theorem lbu (rd rs1 : RegNum) (imm : Word) : Statement (.lbu rd rs1 imm) :=
  ownRow_at 13 fun ext hw => ⟨takes_funct3 ext rfl (by decide) (opcode_wordI ..) (funct3_wordI ..),
    by
      rw [encode_lbu]
      show Instr.lbu (fieldRd _) (fieldRs1 _) (immI _) = _
      rw [rd_wordI, rs1_wordI, immI_back hw]⟩

theorem lhu (rd rs1 : RegNum) (imm : Word) : Statement (.lhu rd rs1 imm) :=
  ownRow_at 14 fun ext hw => ⟨takes_funct3 ext rfl (by decide) (opcode_wordI ..) (funct3_wordI ..),
    by
      rw [encode_lhu]
      show Instr.lhu (fieldRd _) (fieldRs1 _) (immI _) = _
      rw [rd_wordI, rs1_wordI, immI_back hw]⟩

theorem sb (rs1 rs2 : RegNum) (imm : Word) : Statement (.sb rs1 rs2 imm) :=
  ownRow_at 15 fun ext hw => ⟨takes_funct3 ext rfl (by decide) (opcode_wordS ..) (funct3_wordS ..),
    by
      rw [encode_sb]
      show Instr.sb (fieldRs1 _) (fieldRs2 _) (immS _) = _
      rw [rs1_wordS, rs2_wordS, immS_back hw]⟩

theorem sh (rs1 rs2 : RegNum) (imm : Word) : Statement (.sh rs1 rs2 imm) :=
  ownRow_at 16 fun ext hw => ⟨takes_funct3 ext rfl (by decide) (opcode_wordS ..) (funct3_wordS ..),
    by
      rw [encode_sh]
      show Instr.sh (fieldRs1 _) (fieldRs2 _) (immS _) = _
      rw [rs1_wordS, rs2_wordS, immS_back hw]⟩

theorem sw (rs1 rs2 : RegNum) (imm : Word) : Statement (.sw rs1 rs2 imm) :=
  ownRow_at 17 fun ext hw => ⟨takes_funct3 ext rfl (by decide) (opcode_wordS ..) (funct3_wordS ..),
    by
      rw [encode_sw]
      show Instr.sw (fieldRs1 _) (fieldRs2 _) (immS _) = _
      rw [rs1_wordS, rs2_wordS, immS_back hw]⟩

theorem addi (rd rs1 : RegNum) (imm : Word) : Statement (.addi rd rs1 imm) :=
  ownRow_at 18 fun ext hw => ⟨takes_funct3 ext rfl (by decide) (opcode_wordI ..) (funct3_wordI ..),
    by
      rw [encode_addi]
      show Instr.addi (fieldRd _) (fieldRs1 _) (immI _) = _
      rw [rd_wordI, rs1_wordI, immI_back hw]⟩

theorem slti (rd rs1 : RegNum) (imm : Word) : Statement (.slti rd rs1 imm) :=
  ownRow_at 19 fun ext hw => ⟨takes_funct3 ext rfl (by decide) (opcode_wordI ..) (funct3_wordI ..),
    by
      rw [encode_slti]
      show Instr.slti (fieldRd _) (fieldRs1 _) (immI _) = _
      rw [rd_wordI, rs1_wordI, immI_back hw]⟩

theorem sltiu (rd rs1 : RegNum) (imm : Word) : Statement (.sltiu rd rs1 imm) :=
  ownRow_at 20 fun ext hw => ⟨takes_funct3 ext rfl (by decide) (opcode_wordI ..) (funct3_wordI ..),
    by
      rw [encode_sltiu]
      show Instr.sltiu (fieldRd _) (fieldRs1 _) (immI _) = _
      rw [rd_wordI, rs1_wordI, immI_back hw]⟩

theorem xori (rd rs1 : RegNum) (imm : Word) : Statement (.xori rd rs1 imm) :=
  ownRow_at 21 fun ext hw => ⟨takes_funct3 ext rfl (by decide) (opcode_wordI ..) (funct3_wordI ..),
    by
      rw [encode_xori]
      show Instr.xori (fieldRd _) (fieldRs1 _) (immI _) = _
      rw [rd_wordI, rs1_wordI, immI_back hw]⟩

theorem ori (rd rs1 : RegNum) (imm : Word) : Statement (.ori rd rs1 imm) :=
  ownRow_at 22 fun ext hw => ⟨takes_funct3 ext rfl (by decide) (opcode_wordI ..) (funct3_wordI ..),
    by
      rw [encode_ori]
      show Instr.ori (fieldRd _) (fieldRs1 _) (immI _) = _
      rw [rd_wordI, rs1_wordI, immI_back hw]⟩

theorem andi (rd rs1 : RegNum) (imm : Word) : Statement (.andi rd rs1 imm) :=
  ownRow_at 23 fun ext hw => ⟨takes_funct3 ext rfl (by decide) (opcode_wordI ..) (funct3_wordI ..),
    by
      rw [encode_andi]
      show Instr.andi (fieldRd _) (fieldRs1 _) (immI _) = _
      rw [rd_wordI, rs1_wordI, immI_back hw]⟩

theorem slli (rd rs1 : RegNum) (shamt : BitVec 5) : Statement (.slli rd rs1 shamt) :=
  ownRow_at 24 fun ext _ => ⟨takes_funct7 ext (by decide) (opcode_wordR ..) (funct3_wordR ..) (funct7_wordR ..),
    by
      rw [encode_slli]
      show Instr.slli (fieldRd _) (fieldRs1 _) (fieldShamt _) = _
      rw [rd_wordR, rs1_wordR, shamt_wordR]⟩

theorem srli (rd rs1 : RegNum) (shamt : BitVec 5) : Statement (.srli rd rs1 shamt) :=
  ownRow_at 25 fun ext _ => ⟨takes_funct7 ext (by decide) (opcode_wordR ..) (funct3_wordR ..) (funct7_wordR ..),
    by
      rw [encode_srli]
      show Instr.srli (fieldRd _) (fieldRs1 _) (fieldShamt _) = _
      rw [rd_wordR, rs1_wordR, shamt_wordR]⟩

theorem srai (rd rs1 : RegNum) (shamt : BitVec 5) : Statement (.srai rd rs1 shamt) :=
  ownRow_at 26 fun ext _ => ⟨takes_funct7 ext (by decide) (opcode_wordR ..) (funct3_wordR ..) (funct7_wordR ..),
    by
      rw [encode_srai]
      show Instr.srai (fieldRd _) (fieldRs1 _) (fieldShamt _) = _
      rw [rd_wordR, rs1_wordR, shamt_wordR]⟩

theorem add (rd rs1 rs2 : RegNum) : Statement (.add rd rs1 rs2) :=
  ownRow_at 27 fun ext _ => ⟨takes_funct7 ext (by decide) (opcode_wordR ..) (funct3_wordR ..) (funct7_wordR ..),
    by
      rw [encode_add]
      show Instr.add (fieldRd _) (fieldRs1 _) (fieldRs2 _) = _
      rw [rd_wordR, rs1_wordR, rs2_wordR]⟩

theorem sub (rd rs1 rs2 : RegNum) : Statement (.sub rd rs1 rs2) :=
  ownRow_at 28 fun ext _ => ⟨takes_funct7 ext (by decide) (opcode_wordR ..) (funct3_wordR ..) (funct7_wordR ..),
    by
      rw [encode_sub]
      show Instr.sub (fieldRd _) (fieldRs1 _) (fieldRs2 _) = _
      rw [rd_wordR, rs1_wordR, rs2_wordR]⟩

theorem sll (rd rs1 rs2 : RegNum) : Statement (.sll rd rs1 rs2) :=
  ownRow_at 29 fun ext _ => ⟨takes_funct7 ext (by decide) (opcode_wordR ..) (funct3_wordR ..) (funct7_wordR ..),
    by
      rw [encode_sll]
      show Instr.sll (fieldRd _) (fieldRs1 _) (fieldRs2 _) = _
      rw [rd_wordR, rs1_wordR, rs2_wordR]⟩

theorem slt (rd rs1 rs2 : RegNum) : Statement (.slt rd rs1 rs2) :=
  ownRow_at 30 fun ext _ => ⟨takes_funct7 ext (by decide) (opcode_wordR ..) (funct3_wordR ..) (funct7_wordR ..),
    by
      rw [encode_slt]
      show Instr.slt (fieldRd _) (fieldRs1 _) (fieldRs2 _) = _
      rw [rd_wordR, rs1_wordR, rs2_wordR]⟩

theorem sltu (rd rs1 rs2 : RegNum) : Statement (.sltu rd rs1 rs2) :=
  ownRow_at 31 fun ext _ => ⟨takes_funct7 ext (by decide) (opcode_wordR ..) (funct3_wordR ..) (funct7_wordR ..),
    by
      rw [encode_sltu]
      show Instr.sltu (fieldRd _) (fieldRs1 _) (fieldRs2 _) = _
      rw [rd_wordR, rs1_wordR, rs2_wordR]⟩

theorem xor (rd rs1 rs2 : RegNum) : Statement (.xor rd rs1 rs2) :=
  ownRow_at 32 fun ext _ => ⟨takes_funct7 ext (by decide) (opcode_wordR ..) (funct3_wordR ..) (funct7_wordR ..),
    by
      rw [encode_xor]
      show Instr.xor (fieldRd _) (fieldRs1 _) (fieldRs2 _) = _
      rw [rd_wordR, rs1_wordR, rs2_wordR]⟩

theorem srl (rd rs1 rs2 : RegNum) : Statement (.srl rd rs1 rs2) :=
  ownRow_at 33 fun ext _ => ⟨takes_funct7 ext (by decide) (opcode_wordR ..) (funct3_wordR ..) (funct7_wordR ..),
    by
      rw [encode_srl]
      show Instr.srl (fieldRd _) (fieldRs1 _) (fieldRs2 _) = _
      rw [rd_wordR, rs1_wordR, rs2_wordR]⟩

theorem sra (rd rs1 rs2 : RegNum) : Statement (.sra rd rs1 rs2) :=
  ownRow_at 34 fun ext _ => ⟨takes_funct7 ext (by decide) (opcode_wordR ..) (funct3_wordR ..) (funct7_wordR ..),
    by
      rw [encode_sra]
      show Instr.sra (fieldRd _) (fieldRs1 _) (fieldRs2 _) = _
      rw [rd_wordR, rs1_wordR, rs2_wordR]⟩

theorem or (rd rs1 rs2 : RegNum) : Statement (.or rd rs1 rs2) :=
  ownRow_at 35 fun ext _ => ⟨takes_funct7 ext (by decide) (opcode_wordR ..) (funct3_wordR ..) (funct7_wordR ..),
    by
      rw [encode_or]
      show Instr.or (fieldRd _) (fieldRs1 _) (fieldRs2 _) = _
      rw [rd_wordR, rs1_wordR, rs2_wordR]⟩

theorem and (rd rs1 rs2 : RegNum) : Statement (.and rd rs1 rs2) :=
  ownRow_at 36 fun ext _ => ⟨takes_funct7 ext (by decide) (opcode_wordR ..) (funct3_wordR ..) (funct7_wordR ..),
    by
      rw [encode_and]
      show Instr.and (fieldRd _) (fieldRs1 _) (fieldRs2 _) = _
      rw [rd_wordR, rs1_wordR, rs2_wordR]⟩

theorem mul (rd rs1 rs2 : RegNum) : Statement (.mul rd rs1 rs2) :=
  ownRow_at 37 fun ext _ => ⟨takes_funct7 ext (by decide) (opcode_wordR ..) (funct3_wordR ..) (funct7_wordR ..),
    by
      rw [encode_mul]
      show Instr.mul (fieldRd _) (fieldRs1 _) (fieldRs2 _) = _
      rw [rd_wordR, rs1_wordR, rs2_wordR]⟩

theorem mulh (rd rs1 rs2 : RegNum) : Statement (.mulh rd rs1 rs2) :=
  ownRow_at 38 fun ext _ => ⟨takes_funct7 ext (by decide) (opcode_wordR ..) (funct3_wordR ..) (funct7_wordR ..),
    by
      rw [encode_mulh]
      show Instr.mulh (fieldRd _) (fieldRs1 _) (fieldRs2 _) = _
      rw [rd_wordR, rs1_wordR, rs2_wordR]⟩

theorem mulhsu (rd rs1 rs2 : RegNum) : Statement (.mulhsu rd rs1 rs2) :=
  ownRow_at 39 fun ext _ => ⟨takes_funct7 ext (by decide) (opcode_wordR ..) (funct3_wordR ..) (funct7_wordR ..),
    by
      rw [encode_mulhsu]
      show Instr.mulhsu (fieldRd _) (fieldRs1 _) (fieldRs2 _) = _
      rw [rd_wordR, rs1_wordR, rs2_wordR]⟩

theorem mulhu (rd rs1 rs2 : RegNum) : Statement (.mulhu rd rs1 rs2) :=
  ownRow_at 40 fun ext _ => ⟨takes_funct7 ext (by decide) (opcode_wordR ..) (funct3_wordR ..) (funct7_wordR ..),
    by
      rw [encode_mulhu]
      show Instr.mulhu (fieldRd _) (fieldRs1 _) (fieldRs2 _) = _
      rw [rd_wordR, rs1_wordR, rs2_wordR]⟩

theorem div (rd rs1 rs2 : RegNum) : Statement (.div rd rs1 rs2) :=
  ownRow_at 41 fun ext _ => ⟨takes_funct7 ext (by decide) (opcode_wordR ..) (funct3_wordR ..) (funct7_wordR ..),
    by
      rw [encode_div]
      show Instr.div (fieldRd _) (fieldRs1 _) (fieldRs2 _) = _
      rw [rd_wordR, rs1_wordR, rs2_wordR]⟩

theorem divu (rd rs1 rs2 : RegNum) : Statement (.divu rd rs1 rs2) :=
  ownRow_at 42 fun ext _ => ⟨takes_funct7 ext (by decide) (opcode_wordR ..) (funct3_wordR ..) (funct7_wordR ..),
    by
      rw [encode_divu]
      show Instr.divu (fieldRd _) (fieldRs1 _) (fieldRs2 _) = _
      rw [rd_wordR, rs1_wordR, rs2_wordR]⟩

theorem rem (rd rs1 rs2 : RegNum) : Statement (.rem rd rs1 rs2) :=
  ownRow_at 43 fun ext _ => ⟨takes_funct7 ext (by decide) (opcode_wordR ..) (funct3_wordR ..) (funct7_wordR ..),
    by
      rw [encode_rem]
      show Instr.rem (fieldRd _) (fieldRs1 _) (fieldRs2 _) = _
      rw [rd_wordR, rs1_wordR, rs2_wordR]⟩

theorem remu (rd rs1 rs2 : RegNum) : Statement (.remu rd rs1 rs2) :=
  ownRow_at 44 fun ext _ => ⟨takes_funct7 ext (by decide) (opcode_wordR ..) (funct3_wordR ..) (funct7_wordR ..),
    by
      rw [encode_remu]
      show Instr.remu (fieldRd _) (fieldRs1 _) (fieldRs2 _) = _
      rw [rd_wordR, rs1_wordR, rs2_wordR]⟩

theorem fence (fm pred succ : BitVec 4) (rs1 rd : RegNum) : Statement (.fence fm pred succ rs1 rd) :=
  ownRow_at 45 fun ext _ => ⟨takes_funct3 ext rfl (by decide) (opcode_wordI ..) (funct3_wordI ..),
    by
      obtain ⟨h1, h2, h3⟩ := fence_fields 0b0001111#7 rs1 rd 0b000#3 fm pred succ
      rw [encode_fence]
      show Instr.fence (fieldFm _) (fieldPred _) (fieldSucc _) (fieldRs1 _) (fieldRd _) = _
      rw [h1, h2, h3, rs1_wordI, rd_wordI]⟩

theorem ecall : Statement .ecall :=
  ownRow_at 46 fun ext _ => ⟨by cases ext <;> rfl, rfl⟩

theorem ebreak : Statement .ebreak :=
  ownRow_at 47 fun ext _ => ⟨by cases ext <;> rfl, rfl⟩

theorem mret : Statement .mret :=
  ownRow_at 48 fun ext _ => ⟨by cases ext <;> rfl, rfl⟩

theorem csrrw (rd : RegNum) (csr : CsrNum) (rs1 : RegNum) : Statement (.csrrw rd csr rs1) :=
  ownRow_at 49 fun ext _ => ⟨takes_funct3 ext rfl (by decide) (opcode_wordI ..) (funct3_wordI ..),
    by
      rw [encode_csrrw]
      show Instr.csrrw (fieldRd _) (fieldCsr _) (fieldRs1 _) = _
      rw [rd_wordI, csr_wordI, rs1_wordI]⟩

theorem csrrs (rd : RegNum) (csr : CsrNum) (rs1 : RegNum) : Statement (.csrrs rd csr rs1) :=
  ownRow_at 50 fun ext _ => ⟨takes_funct3 ext rfl (by decide) (opcode_wordI ..) (funct3_wordI ..),
    by
      rw [encode_csrrs]
      show Instr.csrrs (fieldRd _) (fieldCsr _) (fieldRs1 _) = _
      rw [rd_wordI, csr_wordI, rs1_wordI]⟩

theorem csrrc (rd : RegNum) (csr : CsrNum) (rs1 : RegNum) : Statement (.csrrc rd csr rs1) :=
  ownRow_at 51 fun ext hw => ⟨takes_funct3 ext (by simpa [Instr.wf] using hw)
      (by decide) (opcode_wordI ..) (funct3_wordI ..),
    by
      rw [encode_csrrc]
      show Instr.csrrc (fieldRd _) (fieldCsr _) (fieldRs1 _) = _
      rw [rd_wordI, csr_wordI, rs1_wordI]⟩

theorem csrrwi (rd : RegNum) (csr : CsrNum) (uimm : BitVec 5) : Statement (.csrrwi rd csr uimm) :=
  ownRow_at 52 fun ext hw => ⟨takes_funct3 ext (by simpa [Instr.wf] using hw)
      (by decide) (opcode_wordI ..) (funct3_wordI ..),
    by
      rw [encode_csrrwi]
      show Instr.csrrwi (fieldRd _) (fieldCsr _) (fieldUimm _) = _
      rw [rd_wordI, csr_wordI, uimm_wordI]⟩

theorem csrrsi (rd : RegNum) (csr : CsrNum) (uimm : BitVec 5) : Statement (.csrrsi rd csr uimm) :=
  ownRow_at 53 fun ext hw => ⟨takes_funct3 ext (by simpa [Instr.wf] using hw)
      (by decide) (opcode_wordI ..) (funct3_wordI ..),
    by
      rw [encode_csrrsi]
      show Instr.csrrsi (fieldRd _) (fieldCsr _) (fieldUimm _) = _
      rw [rd_wordI, csr_wordI, uimm_wordI]⟩

theorem csrrci (rd : RegNum) (csr : CsrNum) (uimm : BitVec 5) : Statement (.csrrci rd csr uimm) :=
  ownRow_at 54 fun ext hw => ⟨takes_funct3 ext (by simpa [Instr.wf] using hw)
      (by decide) (opcode_wordI ..) (funct3_wordI ..),
    by
      rw [encode_csrrci]
      show Instr.csrrci (fieldRd _) (fieldCsr _) (fieldUimm _) = _
      rw [rd_wordI, csr_wordI, uimm_wordI]⟩

theorem inv (raw : Word) : Statement (.inv raw) :=
  ownRow_at 55 fun ext _ => ⟨by simp [Row.takes, opcodeTable, rowsUJ, rowsBranch, rowsLoad, rowsStore, rowsOpImm, rowsOp,
    rowsMulDiv, rowsSystem, rowsCsr, rowsInv], rfl⟩

end Laws.OwnRow

end Sys2Proof
end

