-- ==== Sys2Proof/Tests/Slice0.lean ====
section
/-! SUPPORT. The package's own tests: the well-formedness checks refuse an ill-formed term each; every row's word of
95_test_vectors.md section 2 decodes to what it stands for; one step per instruction from 95_test_vectors.md section 3 or
the rule's own example; the outputs of a step; and a witness for every statement with hypotheses. Every expected value is
the spec's, or computed by hand from its rule, never the model's own answer. -/

namespace Sys2Proof.Tests

open Sys2Proof.Machine

/-! ### WellFormed: an ill-formed term for each check -/

theorem test_wf_lui_low_bits_refused : Instr.wf true (.lui 5#5 0x12345001#32) = false := by decide
theorem test_wf_jal_odd_offset_refused : Instr.wf true (.jal 1#5 3#32) = false := by decide
theorem test_wf_jal_range_refused :
    Instr.wf true (.jal 1#5 1048576#32) = false ∧ Instr.wf true (.jal 1#5 (-1048576#32)) = true := by decide
theorem test_wf_branch_odd_offset_refused : Instr.wf true (.beq 6#5 7#5 9#32) = false := by decide
theorem test_wf_branch_range_refused :
    Instr.wf true (.bgeu 6#5 7#5 4096#32) = false ∧ Instr.wf true (.bgeu 6#5 7#5 4094#32) = true := by decide
theorem test_wf_imm12_range_refused :
    Instr.wf true (.addi 5#5 6#5 2048#32) = false ∧ Instr.wf true (.addi 5#5 6#5 (-2048#32)) = true
      ∧ Instr.wf true (.lw 5#5 6#5 (-2049#32)) = false ∧ Instr.wf true (.sw 6#5 7#5 2048#32) = false
      ∧ Instr.wf true (.jalr 5#5 6#5 2048#32) = false := by decide
theorem test_wf_optional_csr_refused :
    Instr.wf false (.csrrc 5#5 0x300#12 6#5) = false ∧ Instr.wf false (.csrrwi 5#5 0x300#12 6#5) = false
      ∧ Instr.wf false (.csrrsi 5#5 0x300#12 6#5) = false ∧ Instr.wf false (.csrrci 5#5 0x300#12 6#5) = false := by decide
theorem test_wf_inv_of_an_implemented_word_refused :
    Instr.wf true (.inv 0x00000073#32) = false ∧ Instr.wf false (.inv 0x300332F3#32) = true
      ∧ Instr.wf true (.inv 0x300332F3#32) = false := by decide

/-! ### Decoding: 95_test_vectors.md section 2, every row -/

theorem test_decode_UJ :
    decodeWord false 0x123452B7#32 = .lui 5#5 0x12345000#32
    ∧ decodeWord false 0x12345297#32 = .auipc 5#5 0x12345000#32
    ∧ decodeWord false 0x001000EF#32 = .jal 1#5 2048#32
    ∧ decodeWord false 0xFFC302E7#32 = .jalr 5#5 6#5 (-4#32) := by decide
theorem test_decode_branch :
    decodeWord false 0xFE730CE3#32 = .beq 6#5 7#5 (-8#32)
    ∧ decodeWord false 0xFE731CE3#32 = .bne 6#5 7#5 (-8#32)
    ∧ decodeWord false 0xFE734CE3#32 = .blt 6#5 7#5 (-8#32)
    ∧ decodeWord false 0xFE735CE3#32 = .bge 6#5 7#5 (-8#32)
    ∧ decodeWord false 0xFE736CE3#32 = .bltu 6#5 7#5 (-8#32)
    ∧ decodeWord false 0xFE737CE3#32 = .bgeu 6#5 7#5 (-8#32) := by decide
theorem test_decode_load :
    decodeWord false 0xFFC30283#32 = .lb 5#5 6#5 (-4#32)
    ∧ decodeWord false 0xFFC31283#32 = .lh 5#5 6#5 (-4#32)
    ∧ decodeWord false 0xFFC32283#32 = .lw 5#5 6#5 (-4#32)
    ∧ decodeWord false 0xFFC34283#32 = .lbu 5#5 6#5 (-4#32)
    ∧ decodeWord false 0xFFC35283#32 = .lhu 5#5 6#5 (-4#32) := by decide
theorem test_decode_store :
    decodeWord false 0xFE730E23#32 = .sb 6#5 7#5 (-4#32)
    ∧ decodeWord false 0xFE731E23#32 = .sh 6#5 7#5 (-4#32)
    ∧ decodeWord false 0xFE732E23#32 = .sw 6#5 7#5 (-4#32) := by decide
theorem test_decode_opImm :
    decodeWord false 0xFFC30293#32 = .addi 5#5 6#5 (-4#32)
    ∧ decodeWord false 0xFFC32293#32 = .slti 5#5 6#5 (-4#32)
    ∧ decodeWord false 0xFFC33293#32 = .sltiu 5#5 6#5 (-4#32)
    ∧ decodeWord false 0xFFC34293#32 = .xori 5#5 6#5 (-4#32)
    ∧ decodeWord false 0xFFC36293#32 = .ori 5#5 6#5 (-4#32)
    ∧ decodeWord false 0xFFC37293#32 = .andi 5#5 6#5 (-4#32)
    ∧ decodeWord false 0x00331293#32 = .slli 5#5 6#5 3#5
    ∧ decodeWord false 0x00335293#32 = .srli 5#5 6#5 3#5
    ∧ decodeWord false 0x40335293#32 = .srai 5#5 6#5 3#5 := by decide
theorem test_decode_op :
    decodeWord false 0x007302B3#32 = .add 5#5 6#5 7#5
    ∧ decodeWord false 0x407302B3#32 = .sub 5#5 6#5 7#5
    ∧ decodeWord false 0x007312B3#32 = .sll 5#5 6#5 7#5
    ∧ decodeWord false 0x007322B3#32 = .slt 5#5 6#5 7#5
    ∧ decodeWord false 0x007332B3#32 = .sltu 5#5 6#5 7#5
    ∧ decodeWord false 0x007342B3#32 = .xor 5#5 6#5 7#5
    ∧ decodeWord false 0x007352B3#32 = .srl 5#5 6#5 7#5
    ∧ decodeWord false 0x407352B3#32 = .sra 5#5 6#5 7#5
    ∧ decodeWord false 0x007362B3#32 = .or 5#5 6#5 7#5
    ∧ decodeWord false 0x007372B3#32 = .and 5#5 6#5 7#5 := by decide
theorem test_decode_mulDiv :
    decodeWord false 0x027302B3#32 = .mul 5#5 6#5 7#5
    ∧ decodeWord false 0x027312B3#32 = .mulh 5#5 6#5 7#5
    ∧ decodeWord false 0x027322B3#32 = .mulhsu 5#5 6#5 7#5
    ∧ decodeWord false 0x027332B3#32 = .mulhu 5#5 6#5 7#5
    ∧ decodeWord false 0x027342B3#32 = .div 5#5 6#5 7#5
    ∧ decodeWord false 0x027352B3#32 = .divu 5#5 6#5 7#5
    ∧ decodeWord false 0x027362B3#32 = .rem 5#5 6#5 7#5
    ∧ decodeWord false 0x027372B3#32 = .remu 5#5 6#5 7#5 := by decide
theorem test_decode_system :
    decodeWord false 0x0FF0000F#32 = .fence 0b0000#4 0b1111#4 0b1111#4 0#5 0#5
    ∧ decodeWord false 0x00000073#32 = .ecall
    ∧ decodeWord false 0x00100073#32 = .ebreak
    ∧ decodeWord false 0x30200073#32 = .mret
    ∧ decodeWord false 0x00000000#32 = .inv 0x00000000#32 := by decide
theorem test_decode_csr :
    decodeWord false 0x300312F3#32 = .csrrw 5#5 0x300#12 6#5
    ∧ decodeWord false 0x300322F3#32 = .csrrs 5#5 0x300#12 6#5
    ∧ decodeWord true 0x300332F3#32 = .csrrc 5#5 0x300#12 6#5
    ∧ decodeWord true 0x300352F3#32 = .csrrwi 5#5 0x300#12 6#5
    ∧ decodeWord true 0x300362F3#32 = .csrrsi 5#5 0x300#12 6#5
    ∧ decodeWord true 0x300372F3#32 = .csrrci 5#5 0x300#12 6#5 := by decide

/-- 30_encoding.md R99, 44_system.md R242: reserved words are INV, the optional CSR words without `CSR_EXT_OPS` too. -/
theorem test_decode_reserved :
    ([0x300332F3#32, 0x300352F3#32, 0x300362F3#32, 0x300372F3#32, 0x0000100F#32, 0xFFFFFFFF#32, 0x10500073#32,
      0x000000F3#32, 0x02031293#32, 0x00000001#32, 0x10200073#32, 0x00200073#32].all
      fun w => decodeWord false w == .inv w) = true := by
  decide

/-- 30_encoding.md R100: hints and fence forms are the instruction they spell. -/
theorem test_decode_hints :
    decodeWord false 0x00000013#32 = .addi 0#5 0#5 0#32
    ∧ decodeWord false 0x0100000F#32 = .fence 0b0000#4 0b0001#4 0b0000#4 0#5 0#5
    ∧ decodeWord false 0x8330000F#32 = .fence 0b1000#4 0b0011#4 0b0011#4 0#5 0#5 := by decide

/-- The extreme offsets of 95_test_vectors.md section 3.2. -/
theorem test_decode_extreme_offsets :
    decodeWord false 0x800000EF#32 = .jal 1#5 (-1048576#32) ∧ decodeWord false 0xFFDFF06F#32 = .jal 0#5 (-4#32)
    ∧ decodeWord false 0x7E000FE3#32 = .beq 0#5 0#5 4094#32
    ∧ decodeWord false 0x80001063#32 = .bne 0#5 0#5 (-4096#32) := by decide

/-- The decoder on a table word and on bytes. -/
theorem test_decode_table_word :
    decodeTableWord 32 0x00500293 = some (.addi 5#5 0#5 5#32)
    ∧ decodeTableWord 32 0x300372F3 = some (.csrrci 5#5 0x300#12 6#5)
    ∧ decode false [0x93#8, 0x02#8, 0x50#8, 0x00#8, 0xAA#8] = .ok (.addi 5#5 0#5 5#32, [0xAA#8])
    ∧ decode false [0x93#8, 0x02#8, 0x50#8] = .error (.truncated 3) := by decide

/-! ### One step on a small state -/

/-- Reset with registers set, and one word where the next step fetches. -/
def boot (regs : List (RegNum × Word)) (w : Word) : State :=
  (regs.foldl (fun (s : State) (p : RegNum × Word) => s.setReg p.1 p.2) State.reset).withFetchWord 32 w.toNat

/-- The same with the pc somewhere else. -/
def bootAt (pc : Word) (regs : List (RegNum × Word)) (w : Word) : State :=
  (regs.foldl (fun (s : State) (p : RegNum × Word) => s.setReg p.1 p.2)
    { State.reset with pc := pc }).withFetchWord 32 w.toNat

/-- The same with `CSR_EXT_OPS`. -/
def bootExt (regs : List (RegNum × Word)) (w : Word) : State :=
  { boot regs w with cfg := { Config.reference with csrExtOps := true } }

/-- With the bytes DD CC BB AA at 0x80001000 (95_test_vectors.md section 3.3). -/
def withData (s : State) : State := { s with mem := s.mem.writeBytes 0x80001000 0xAABBCCDD#32 4 }

/-- With `ALIGN_CHECK`. -/
def aligned (s : State) : State := { s with cfg := { s.cfg with alignCheck := true } }

/-- What one step answers satisfies `p`, a next state. -/
def after (s : State) (p : State → Bool) : Bool :=
  match step s with
  | .next t => p t
  | .fault _ => false
  | .refused _ => false

/-- The register `r` reads `v` and the step went on at `pc`. -/
def reads (r : RegNum) (v pc : Word) (t : State) : Bool := t.reg r == v && t.pc == pc && t.run == .running

-- 40_integer.md, 95_test_vectors.md section 3.1
theorem test_lui : after (boot [] 0xFFFFF2B7#32) (reads 5#5 0xFFFFF000#32 0x80000004#32) = true := by decide
theorem test_auipc : after (boot [] 0x00001297#32) (reads 5#5 0x80001000#32 0x80000004#32) = true := by decide
theorem test_addi_overflows_silently :
    after (boot [(6#5, 0x7FFFFFFF#32)] 0x00130293#32) (reads 5#5 0x80000000#32 0x80000004#32) = true := by decide
theorem test_addi_to_x0_is_discarded :
    after (boot [(6#5, 7#32)] 0x00530013#32) (reads 0#5 0#32 0x80000004#32) = true := by decide
theorem test_slti :
    after (boot [(6#5, 0xFFFFFFFE#32)] 0xFFF32293#32) (reads 5#5 1#32 0x80000004#32) = true := by decide
theorem test_sltiu_compares_the_extended_immediate_unsigned :
    after (boot [(6#5, 5#32)] 0xFFF33293#32) (reads 5#5 1#32 0x80000004#32) = true := by decide
theorem test_xori :
    after (boot [(6#5, 0x0F0F0F0F#32)] 0xFFF34293#32) (reads 5#5 0xF0F0F0F0#32 0x80000004#32) = true := by decide
theorem test_ori :
    after (boot [(6#5, 0x80000000#32)] 0x7FF36293#32) (reads 5#5 0x800007FF#32 0x80000004#32) = true := by decide
theorem test_andi :
    after (boot [(6#5, 0x1234567F#32)] 0xFF037293#32) (reads 5#5 0x12345670#32 0x80000004#32) = true := by decide
theorem test_slli :
    after (boot [(6#5, 3#32)] 0x01F31293#32) (reads 5#5 0x80000000#32 0x80000004#32) = true := by decide
theorem test_srli :
    after (boot [(6#5, 0x80000000#32)] 0x01F35293#32) (reads 5#5 1#32 0x80000004#32) = true := by decide
theorem test_srai :
    after (boot [(6#5, 0x80000000#32)] 0x41F35293#32) (reads 5#5 0xFFFFFFFF#32 0x80000004#32) = true := by decide
theorem test_srai_by_zero :
    after (boot [(6#5, 0x80000000#32)] 0x40035293#32) (reads 5#5 0x80000000#32 0x80000004#32) = true := by decide
/-- 30_encoding.md R83: the formats, by the row, as spec/opcode_table.json lists them. -/
theorem test_formats : (opcodeTable.map fun r => formatOf (r.build r.pattern)) =
    [.u, .u, .j, .i] ++ List.replicate 6 .b ++ List.replicate 5 .i ++ List.replicate 3 .s ++ List.replicate 9 .i
      ++ List.replicate 18 .r ++ List.replicate 10 .i ++ [.none] := by decide

/-- 30_encoding.md R86: the `rd` bits of `bne x6, x7, -8` (0xFE731CE3) are 0b11001; those of `sh x7, -4(x6)` (0xFE731E23)
0b11100; a CSR form's `imm` is the sign-extended number. -/
theorem test_operand_slots :
    (operandsOf (.bne 6#5 7#5 (-8#32)) State.reset).rd = 0b11001#5
    ∧ (operandsOf (.sh 6#5 7#5 (-4#32)) State.reset).rd = 0b11100#5
    ∧ (operandsOf (.csrrs 5#5 0xF14#12 0#5) State.reset).imm = 0xFFFFFF14#32
    ∧ (operandsOf (.fence 0#4 15#4 15#4 0#5 0#5) State.reset).imm = 0xFF#32 := by decide

/-- 40_integer.md R131: the `imm` slot of `srai x5, x6, 4` (0x40435293) holds 0x404. -/
theorem test_srai_imm_slot :
    (operandsOf (.srai 5#5 6#5 4#5) State.reset).imm = 0x404#32 ∧ immI 0x40435293#32 = 0x404#32 := by decide
theorem test_add :
    after (boot [(6#5, 0x7FFFFFFF#32), (7#5, 1#32)] 0x007302B3#32)
      (reads 5#5 0x80000000#32 0x80000004#32) = true := by decide
theorem test_add_rd_is_both_sources :
    after (boot [(6#5, 0x40000000#32)] 0x00630333#32) (reads 6#5 0x80000000#32 0x80000004#32) = true := by decide
theorem test_sub :
    after (boot [(6#5, 0#32), (7#5, 1#32)] 0x407302B3#32) (reads 5#5 0xFFFFFFFF#32 0x80000004#32) = true := by decide
theorem test_sll_amount_33_uses_1 :
    after (boot [(6#5, 1#32), (7#5, 0x21#32)] 0x007312B3#32) (reads 5#5 2#32 0x80000004#32) = true := by decide
theorem test_slt :
    after (boot [(6#5, 0x80000000#32), (7#5, 0x7FFFFFFF#32)] 0x007322B3#32)
      (reads 5#5 1#32 0x80000004#32) = true := by decide
theorem test_sltu :
    after (boot [(6#5, 0x80000000#32), (7#5, 0x7FFFFFFF#32)] 0x007332B3#32)
      (reads 5#5 0#32 0x80000004#32) = true := by decide
theorem test_xor :
    after (boot [(6#5, 0xDEADBEEF#32)] 0x006342B3#32) (reads 5#5 0#32 0x80000004#32) = true := by decide
theorem test_srl_amount_uses_five_bits :
    after (boot [(6#5, 0xF0000000#32), (7#5, 0xFFFFFFE4#32)] 0x007352B3#32)
      (reads 5#5 0x0F000000#32 0x80000004#32) = true := by decide
theorem test_sra :
    after (boot [(6#5, 0xF0000000#32), (7#5, 4#32)] 0x407352B3#32)
      (reads 5#5 0xFF000000#32 0x80000004#32) = true := by decide
theorem test_or :
    after (boot [(6#5, 0xF0F00000#32), (7#5, 0x0000F0F0#32)] 0x007362B3#32)
      (reads 5#5 0xF0F0F0F0#32 0x80000004#32) = true := by decide
theorem test_and :
    after (boot [(6#5, 0xFF00FF00#32), (7#5, 0x0FF00FF0#32)] 0x007372B3#32)
      (reads 5#5 0x0F000F00#32 0x80000004#32) = true := by decide

-- 43_muldiv.md R209 and 95_test_vectors.md section 3.4
theorem test_mul :
    after (boot [(6#5, 0xFFFFFFF9#32), (7#5, 3#32)] 0x027302B3#32)
      (reads 5#5 0xFFFFFFEB#32 0x80000004#32) = true := by decide
theorem test_mulh :
    after (boot [(6#5, 0xFFFFFFF9#32), (7#5, 3#32)] 0x027312B3#32)
      (reads 5#5 0xFFFFFFFF#32 0x80000004#32) = true := by decide
theorem test_mulh_of_the_minima :
    after (boot [(6#5, 0x80000000#32), (7#5, 0x80000000#32)] 0x027312B3#32)
      (reads 5#5 0x40000000#32 0x80000004#32) = true := by decide
theorem test_mulhsu :
    after (boot [(6#5, 0x80000000#32), (7#5, 0x80000000#32)] 0x027322B3#32)
      (reads 5#5 0xC0000000#32 0x80000004#32) = true := by decide
theorem test_mulhsu_positive_by_large :
    after (boot [(6#5, 7#32), (7#5, 0xFFFFFFFD#32)] 0x027322B3#32) (reads 5#5 6#32 0x80000004#32) = true := by decide
theorem test_mulhu :
    after (boot [(6#5, 0xFFFFFFF9#32), (7#5, 3#32)] 0x027332B3#32) (reads 5#5 2#32 0x80000004#32) = true := by decide
theorem test_div_rounds_toward_zero :
    after (boot [(6#5, 0xFFFFFFF9#32), (7#5, 3#32)] 0x027342B3#32)
      (reads 5#5 0xFFFFFFFE#32 0x80000004#32) = true := by decide
theorem test_div_overflow :
    after (boot [(6#5, 0x80000000#32), (7#5, 0xFFFFFFFF#32)] 0x027342B3#32)
      (reads 5#5 0x80000000#32 0x80000004#32) = true := by decide
theorem test_divu :
    after (boot [(6#5, 0xFFFFFFF9#32), (7#5, 3#32)] 0x027352B3#32)
      (reads 5#5 0x55555553#32 0x80000004#32) = true := by decide
theorem test_divu_by_zero :
    after (boot [(6#5, 7#32)] 0x027352B3#32) (reads 5#5 0xFFFFFFFF#32 0x80000004#32) = true := by decide
theorem test_rem_has_the_dividends_sign :
    after (boot [(6#5, 0xFFFFFFF9#32), (7#5, 3#32)] 0x027362B3#32)
      (reads 5#5 0xFFFFFFFF#32 0x80000004#32) = true := by decide
theorem test_rem_by_zero : after (boot [(6#5, 7#32)] 0x027362B3#32) (reads 5#5 7#32 0x80000004#32) = true := by decide
theorem test_remu :
    after (boot [(6#5, 7#32), (7#5, 0xFFFFFFFD#32)] 0x027372B3#32) (reads 5#5 7#32 0x80000004#32) = true := by decide
theorem test_remu_by_zero :
    after (boot [(6#5, 0x80000000#32)] 0x027372B3#32) (reads 5#5 0x80000000#32 0x80000004#32) = true := by decide

-- 41_control.md, 95_test_vectors.md section 3.2
theorem test_jal : after (boot [] 0x008000EF#32) (reads 1#5 0x80000004#32 0x80000008#32) = true := by decide
theorem test_jal_minimum_offset :
    after (bootAt 0x80100000#32 [] 0x800000EF#32) (reads 1#5 0x80100004#32 0x80000000#32) = true := by decide
theorem test_jalr_clears_bit_0 :
    after (boot [(6#5, 0x80000101#32)] 0x000300E7#32) (reads 1#5 0x80000004#32 0x80000100#32) = true := by decide
theorem test_jalr_rd_is_rs1 :
    after (boot [(6#5, 0x80000200#32)] 0x00430367#32) (reads 6#5 0x80000004#32 0x80000204#32) = true := by decide
theorem test_beq_taken :
    after (bootAt 0x80000010#32 [(6#5, 5#32), (7#5, 5#32)] 0xFE730CE3#32)
      (fun t => t.pc == 0x80000008#32) = true := by decide
theorem test_beq_not_taken :
    after (bootAt 0x80000010#32 [(6#5, 5#32), (7#5, 6#32)] 0xFE730CE3#32)
      (fun t => t.pc == 0x80000014#32) = true := by decide
theorem test_bne :
    after (boot [(6#5, 5#32), (7#5, 6#32)] 0x00731463#32) (fun t => t.pc == 0x80000008#32) = true := by decide
theorem test_blt :
    after (boot [(6#5, 0xFFFFFFFF#32), (7#5, 1#32)] 0x00734463#32)
      (fun t => t.pc == 0x80000008#32) = true := by decide
theorem test_bge_equal :
    after (boot [(6#5, 0x80000000#32), (7#5, 0x80000000#32)] 0x00735463#32)
      (fun t => t.pc == 0x80000008#32) = true := by decide
theorem test_bge_minimum_below_zero :
    after (boot [(6#5, 0x80000000#32), (7#5, 0#32)] 0x00735463#32)
      (fun t => t.pc == 0x80000004#32) = true := by decide
theorem test_bltu :
    after (boot [(6#5, 0xFFFFFFFF#32), (7#5, 1#32)] 0x00736463#32)
      (fun t => t.pc == 0x80000004#32) = true := by decide
theorem test_bgeu :
    after (boot [(6#5, 0x80000000#32), (7#5, 0#32)] 0x00737463#32)
      (fun t => t.pc == 0x80000008#32) = true := by decide

-- 42_loadstore.md, 95_test_vectors.md section 3.3
theorem test_lb :
    after (withData (boot [(6#5, 0x80001000#32)] 0x00330283#32))
      (reads 5#5 0xFFFFFFAA#32 0x80000004#32) = true := by decide
theorem test_lbu :
    after (withData (boot [(6#5, 0x80001000#32)] 0x00334283#32))
      (reads 5#5 0x000000AA#32 0x80000004#32) = true := by decide
theorem test_lh :
    after (withData (boot [(6#5, 0x80001000#32)] 0x00231283#32))
      (reads 5#5 0xFFFFAABB#32 0x80000004#32) = true := by decide
theorem test_lh_misaligned :
    after (withData (boot [(6#5, 0x80001000#32)] 0x00131283#32))
      (reads 5#5 0xFFFFBBCC#32 0x80000004#32) = true := by decide
theorem test_lhu :
    after (withData (boot [(6#5, 0x80001000#32)] 0x00235283#32))
      (reads 5#5 0x0000AABB#32 0x80000004#32) = true := by decide
theorem test_lw_rd_is_the_base :
    after (withData (boot [(6#5, 0x80001000#32)] 0x00032303#32))
      (reads 6#5 0xAABBCCDD#32 0x80000004#32) = true := by decide
theorem test_lw_misaligned :
    after (withData (boot [(6#5, 0x80001000#32)] 0x00132283#32))
      (reads 5#5 0x00AABBCC#32 0x80000004#32) = true := by decide
theorem test_sb :
    after (withData (boot [(6#5, 0x80001000#32), (7#5, 0x12345678#32)] 0x00730023#32))
      (fun t => t.mem.readLE 0x80001000 .word == 0xAABBCC78#32 && t.pc == 0x80000004#32) = true := by decide
theorem test_sh :
    after (withData (boot [(6#5, 0x80001000#32), (7#5, 0x12345678#32)] 0x00731123#32))
      (fun t => t.mem.readLE 0x80001000 .word == 0x5678CCDD#32 && t.pc == 0x80000004#32) = true := by decide
theorem test_sw :
    after (withData (boot [(6#5, 0x80001004#32), (7#5, 0x12345678#32)] 0xFE732E23#32))
      (fun t => t.mem.readLE 0x80001000 .word == 0x12345678#32 && t.pc == 0x80000004#32) = true := by decide
theorem test_sw_misaligned :
    after (withData (boot [(6#5, 0x80001000#32), (7#5, 0x12345678#32)] 0x007321A3#32))
      (fun t => t.mem.readLE 0x80001004 .word == 0x00123456#32 && t.pc == 0x80000004#32) = true := by decide
theorem test_lw_below_memory_aborts :
    after (boot [(6#5, 0x7FFFFFFC#32)] 0x00032283#32)
      (fun t => t.run == .aborted (.accessFault 0x7FFFFFFC#32) 0x80000000#32 && t.pc == 0x80000000#32) = true := by
  decide
theorem test_lw_straddling_the_top_aborts :
    after (boot [(6#5, 0x87FFFFFE#32)] 0x00032283#32)
      (fun t => t.run == .aborted (.accessFault 0x87FFFFFE#32) 0x80000000#32 && t.pc == 0x80000000#32) = true := by
  decide
theorem test_sw_straddling_the_top_aborts :
    after (boot [(6#5, 0x87FFFFFE#32), (7#5, 0x12345678#32)] 0x00732023#32)
      (fun t => t.run == .aborted (.accessFault 0x87FFFFFE#32) 0x80000000#32 && t.pc == 0x80000000#32) = true := by
  decide
theorem test_lh_misaligned_aborts_with_align_check :
    after (aligned (boot [(6#5, 0x80001000#32)] 0x00131283#32))
      (fun t => t.run == .aborted (.misalignedAccess 0x80001001#32) 0x80000000#32 && t.pc == 0x80000000#32) = true := by
  decide

-- 44_system.md and 60_exceptions.md, 95_test_vectors.md section 3.5
theorem test_ecall_syscall :
    after ({ bootAt 0x80000010#32 [(17#5, 1#32)] 0x00000073#32 with mtvec := 0x80000100#32 })
      (fun t => t.mepc == 0x80000010#32 && t.mcause == 11#32 && t.pc == 0x80000100#32 && t.mstatus == 0x1800#32) = true := by
  decide
theorem test_ecall_yield :
    after ({ bootAt 0x80000010#32 [(17#5, 0xFFFFFFFF#32)] 0x00000073#32 with mtvec := 0x80000100#32 })
      (fun t => t.mepc == 0x80000014#32 && t.mcause == 11#32 && t.pc == 0x80000100#32) = true := by decide
theorem test_ebreak :
    after (bootAt 0x80000008#32 [(10#5, 1#32)] 0x00100073#32)
      (fun t => t.run == .halted 1#32 0x80000008#32 && t.pc == 0x8000000C#32) = true := by decide
theorem test_mret :
    after ({ boot [] 0x30200073#32 with mstatus := 0x00001888#32, mepc := 0x80000103#32 })
      (fun t => t.mstatus == 0x00000088#32 && t.pc == 0x80000103#32) = true := by decide
theorem test_mret_all_ones :
    after ({ boot [] 0x30200073#32 with mstatus := 0xFFFFFFFF#32 })
      (fun t => t.mstatus == 0xFFFFE7FF#32) = true := by decide
theorem test_csrrw :
    after (boot [(6#5, 0x80000100#32)] 0x305312F3#32)
      (fun t => t.mtvec == 0x80000100#32 && t.reg 5#5 == 0#32) = true := by decide
theorem test_csrrw_rd_is_rs1 :
    after ({ boot [(6#5, 7#32)] 0x34231373#32 with mcause := 11#32 })
      (fun t => t.mcause == 7#32 && t.reg 6#5 == 11#32) = true := by decide
theorem test_csrrs :
    after (boot [(6#5, 8#32)] 0x300322F3#32)
      (fun t => t.mstatus == 0x1808#32 && t.reg 5#5 == 0x1800#32) = true := by decide
theorem test_csrrs_unimplemented_number_aborts :
    after (boot [(5#5, 0x55#32)] 0xF14022F3#32)
      (fun t => t.run == .aborted .invalidInstruction 0x80000000#32 && t.pc == 0x80000000#32) = true := by decide
theorem test_csrrc_without_ext_ops_aborts :
    after (boot [(6#5, 8#32), (5#5, 0x55#32)] 0x300332F3#32)
      (fun t => t.run == .aborted .invalidInstruction 0x80000000#32 && t.pc == 0x80000000#32) = true := by decide
theorem test_csrrc :
    after ({ bootExt [(6#5, 0x800#32)] 0x300332F3#32 with mstatus := 0x1888#32 })
      (fun t => t.mstatus == 0x1088#32 && t.reg 5#5 == 0x1888#32) = true := by decide
theorem test_csrrwi :
    after ({ bootExt [] 0x305FD2F3#32 with mtvec := 0x80000100#32 })
      (fun t => t.mtvec == 0x1F#32 && t.reg 5#5 == 0x80000100#32) = true := by decide
theorem test_csrrsi :
    after (bootExt [] 0x300462F3#32) (fun t => t.mstatus == 0x1808#32 && t.reg 5#5 == 0x1800#32) = true := by decide
theorem test_csrrci :
    after ({ bootExt [] 0x300472F3#32 with mstatus := 0x1808#32 })
      (fun t => t.mstatus == 0x1800#32 && t.reg 5#5 == 0x1808#32) = true := by decide
theorem test_fence :
    after (boot [] 0x0FF0000F#32) (fun t => t.pc == 0x80000004#32 && t.run == .running) = true := by decide
theorem test_inv_all_zero_word_aborts :
    after (boot [] 0x00000000#32)
      (fun t => t.run == .aborted .invalidInstruction 0x80000000#32 && t.pc == 0x80000000#32) = true := by decide
theorem test_fetch_below_memory_aborts :
    after ({ State.reset with pc := 0x7FFFFFFC#32 })
      (fun t => t.run == .aborted (.accessFault 0x7FFFFFFC#32) 0x7FFFFFFC#32 && t.pc == 0x7FFFFFFC#32) = true := by
  decide
theorem test_fetch_straddling_the_top_aborts :
    after ({ State.reset with pc := 0x87FFFFFE#32 })
      (fun t => t.run == .aborted (.accessFault 0x87FFFFFE#32) 0x87FFFFFE#32 && t.pc == 0x87FFFFFE#32) = true := by
  decide

/-! ### Reset, the host, and what a step outputs -/

/-- 10_state.md R40, the values the spec fixes. -/
theorem test_reset : State.reset.pc = 0x80000000#32 ∧ State.reset.mstatus = 0x00001800#32 ∧ State.reset.reg 0#5 = 0#32
    ∧ State.reset.run = .running ∧ State.reset.inv = true := by decide

/-- A step asked of an ended run is the machine's Fault. -/
theorem test_step_after_the_end :
    step { State.reset with run := .halted 7#32 0x80000014#32 } = .fault (.runHalted 7#32 0x80000014#32)
    ∧ step { State.reset with run := .aborted .invalidInstruction 0#32 }
        = .fault (.runAborted .invalidInstruction 0#32) := ⟨rfl, rfl⟩

/-- 95_test_vectors.md section 1.1, its first word as reset loads it; 60_exceptions.md R290's reads. -/
theorem test_host_reset_and_reads :
    ((hostReset Config.reference Launch.reference [0x93#8, 0x02#8, 0x50#8, 0x00#8] none).map fun s =>
      (hostReadMem s 0x80000000#32 .word, hostReadPc s, hostReadCsrName s "mstatus", hostReadCsr s 0xF14#12))
    = some (.ok 0x00500293#32, 0x80000000#32, some 0x00001800#32, none) := by decide

/-- 10_state.md R21: names. -/
theorem test_host_names :
    hostReadName (boot [(31#5, 9#32), (8#5, 4#32)] 0#32) "t6" = some 9#32
    ∧ hostReadName (boot [(31#5, 9#32), (8#5, 4#32)] 0#32) "fp" = some 4#32
    ∧ hostReadName (boot [(31#5, 9#32), (8#5, 4#32)] 0#32) "x8" = none := by decide

/-- 60_exceptions.md R268. -/
theorem test_trap_events :
    (stepOutput (boot [(17#5, 0xFFFFFFFF#32)] 0x00000073#32)).trapEvent = .yield
    ∧ (stepOutput (boot [(17#5, 0xFFFFFFFE#32)] 0x00000073#32)).trapEvent = .syscall
    ∧ (stepOutput (boot [] 0x00100073#32)).trapEvent = .none
    ∧ classifyTrap Config.reference 5#32 1#32 = .error 5#32 := by decide

/-- The tracer column of 95_test_vectors.md section 3.2. -/
theorem test_jump_classes :
    (stepOutput (boot [] 0x008000EF#32)).jump = some (.call 0x80000000#32 0x80000008#32 false)
    ∧ (stepOutput (bootAt 0x80000100#32 [] 0xFFDFF06F#32)).jump = some .plain
    ∧ (stepOutput (boot [(1#5, 0x80000040#32)] 0x00008067#32)).jump = some (.ret 0x80000000#32 0x80000040#32)
    ∧ (stepOutput (boot [(6#5, 0x80000040#32)] 0x00030067#32)).jump = some (.call 0x80000000#32 0x80000040#32 true)
    ∧ (stepOutput (boot [] 0x00000013#32)).jump = none := by decide

/-- 30_encoding.md R102: expansions, as words; the `li` of 95_test_vectors.md P3, `unimp` and `fence`. -/
theorem test_pseudo :
    (Pseudo.li 6#5 0xAABBCCDD#32).expand.map encode = [0xAABBD337#32, 0xCDD30313#32]
    ∧ (Pseudo.li 5#5 5#32).expand.map encode = [0x00500293#32]
    ∧ Pseudo.unimp.expand.map encode = [0xC0001073#32] ∧ Pseudo.fence.expand.map encode = [0x0FF0000F#32]
    ∧ Pseudo.nop.expand.map encode = [0x00000013#32] ∧ Pseudo.ret.expand.map encode = [0x00008067#32] := by decide

/-! ### Witnesses: for every statement with hypotheses, states and operands that meet them all, at boundary values -/

/-- What `exec i s` answers satisfies `p`, a next state. -/
def afterExec (i : Instr) (s : State) (p : State → Bool) : Bool :=
  match exec i s with
  | .next t => p t
  | .fault _ => false
  | .refused _ => false

/-- A launch with a byte at each end of Guest Memory. -/
def launchWithData : Launch :=
  { Launch.reference with memInit := [(0x80000000, 0x11#8), (0x87FFFFFF, 0x22#8)] }

/-- An image of the four bytes of an instruction. -/
def smallImage : List Byte := [0x93#8, 0x02#8, 0x50#8, 0x00#8]

/-- A running state whose register 6 is `ea`, with data in memory. -/
def atAddress (ea : Word) : State := withData (boot [(6#5, ea), (7#5, 0x12345678#32)] 0x00000013#32)

-- Reset, the host, and a run
theorem witness_HostResetSetsEveryPieceOfState : launchWithData.memInit.wf = true
    ∧ Config.reference.memBase.toNat ≤ (0x87FFFFFC#32).toNat
    ∧ (0x87FFFFFC#32).toNat + smallImage.length ≤ Config.reference.memBase.toNat + Config.reference.memSize
    ∧ Config.reference.memBase.toNat ≤ (0x80000000#32).toNat
    ∧ (0x80000000#32).toNat + smallImage.length ≤ Config.reference.memBase.toNat + Config.reference.memSize := by
  decide
theorem witness_ResetHasTheInvariant : launchWithData.memInit.wf = true
    ∧ launchWithData.memInit.within Config.reference.memBase.toNat
        (Config.reference.memBase.toNat + Config.reference.memSize) = true
    ∧ (hostReset Config.reference launchWithData smallImage (some 0x87FFFFFC#32)).isSome = true := by decide
theorem witness_StepKeepsTheInvariant :
    (atAddress 0x80001000#32).inv = true ∧ after (atAddress 0x80001000#32) (fun t => t.inv) = true := by decide
theorem witness_EndedRunExecutesNothing_and_StepCall :
    State.ended { State.reset with run := .halted 7#32 0x80000014#32 } = true
    ∧ State.ended { State.reset with run := .aborted (.accessFault 0#32) 0x80000000#32 } = true
    ∧ State.reset.run = .running := by decide
theorem witness_HostReadsAnswerTheState : ¬ ImplementedCsr 0xF14#12 ∧ ¬ ImplementedCsr 0x000#12
    ∧ ("zero", (0#5 : RegNum)) ∈ [("zero", (0#5 : RegNum)), ("$0", 0#5)]
    ∧ hostReadName (atAddress 9#32) "t1" = some 9#32 ∧ hostReadReg (atAddress 9#32) 6#5 = 9#32
    ∧ hostReadName (atAddress 9#32) "$pc" = some 0x80000000#32
    ∧ hostReadMem (atAddress 0#32) 0x87FFFFFC#32 .word = .ok 0#32
    ∧ hostReadMem (atAddress 0#32) 0x87FFFFFD#32 .word = .error (.accessFault 0x87FFFFFD#32) := by
  unfold ImplementedCsr; decide

-- Encoding
theorem witness_DecodeOfEncodeIsTheInstruction :
    ([.lui 31#5 0xFFFFF000#32, .jal 31#5 1048574#32, .jal 0#5 (-1048576#32), .bgeu 31#5 31#5 4094#32,
      .beq 0#5 0#5 (-4096#32), .lw 31#5 31#5 2047#32, .sb 31#5 31#5 (-2048#32), .srai 31#5 31#5 31#5].all
        (Instr.wf false) = true)
    ∧ ([.add 31#5 31#5 31#5, .fence 15#4 15#4 15#4 31#5 31#5, .ecall, .csrrs 31#5 0xFFF#12 31#5, .inv 0xFFFFFFFF#32,
        .inv 0x300372F3#32].all (Instr.wf false) = true)
    ∧ ([.csrrc 31#5 0xFFF#12 31#5, .csrrwi 31#5 0xFFF#12 31#5, .csrrci 0#5 0#12 0#5].all (Instr.wf true) = true) := by
  decide
theorem witness_WordIsInv_both_sides :
    implementedWord false 0x300372F3#32 = false ∧ implementedWord true 0x300372F3#32 = true := by decide
theorem witness_ImmediatesAreAssembledBitByBit :
    ([0, 1, 4, 5, 10, 11, 12, 19, 20, 31].all fun k => decide (k < 32)) = true := by decide
theorem witness_DecodeTakesFourBytesLittleEndian :
    ([] : List Byte).length < 4 ∧ [0x93#8, 0x02#8, 0x50#8].length < 4 := by decide

-- The instruction cycle
/-- The pc at the last word of Guest Memory. -/
def atTheTop : State := bootAt 0x87FFFFFC#32 [(6#5, 0x87FFFFFC#32)] 0x00500293#32

/-- A misaligned pc. -/
def oddPc : State := bootAt 0x80000001#32 [] 0x00500293#32

theorem witness_StepRunsTheFetchedInstruction : atTheTop.run = .running
    ∧ atTheTop.cfg.memBase.toNat ≤ atTheTop.pc.toNat
    ∧ atTheTop.pc.toNat + 4 ≤ atTheTop.cfg.memBase.toNat + atTheTop.cfg.memSize
    ∧ decode atTheTop.cfg.csrExtOps [atTheTop.mem.byte atTheTop.pc.toNat, atTheTop.mem.byte (atTheTop.pc.toNat + 1),
        atTheTop.mem.byte (atTheTop.pc.toNat + 2), atTheTop.mem.byte (atTheTop.pc.toNat + 3)]
        = .ok (.addi 5#5 0#5 5#32, []) := by decide
theorem witness_PlacedWordIsRunNext : atTheTop.mem.wf = true ∧ Instr.wf atTheTop.cfg.csrExtOps (.inv 0#32) = true
    ∧ Instr.wf atTheTop.cfg.csrExtOps (.jal 1#5 (-1048576#32)) = true
    ∧ atTheTop.cfg.memBase.toNat ≤ atTheTop.pc.toNat
    ∧ atTheTop.pc.toNat + 4 ≤ atTheTop.cfg.memBase.toNat + atTheTop.cfg.memSize := by decide
theorem witness_EveryStepFetchesFourBytesAtThePc :
    oddPc.run = .running ∧ oddPc.cfg.memBase.toNat ≤ oddPc.pc.toNat
    ∧ after oddPc (reads 5#5 5#32 0x80000005#32) = true
    ∧ (0x7FFFFFFF#32).toNat < Config.reference.memBase.toNat
    ∧ Config.reference.memBase.toNat + Config.reference.memSize < (0x87FFFFFD#32).toNat + 4 := by decide
theorem witness_InvalidInstructionAborts :
    (boot [] 0xFFFFFFFF#32).run = .running ∧ (boot [] 0xFFFFFFFF#32).fetch = .ok 0xFFFFFFFF#32
    ∧ implementedWord false 0xFFFFFFFF#32 = false
    ∧ (boot [] 0xF14022F3#32).fetch = .ok 0xF14022F3#32
    ∧ csrNumberOf (decodeWord false 0xF14022F3#32) = some 0xF14#12 ∧ ¬ ImplementedCsr 0xF14#12 := by
  unfold ImplementedCsr; decide
theorem witness_EveryRunningStepGivesANextState :
    (boot [] 0x00500293#32).run = .running ∧ after (boot [] 0x00500293#32) (fun t => t.run == .running) = true
    ∧ after (boot [] 0x00100073#32) (fun t => t.run == .halted 0#32 0x80000000#32) = true
    ∧ after State.reset (fun t => t.run == .aborted .invalidInstruction 0x80000000#32) = true := by decide
theorem witness_FatalFaultCommitsNothing :
    (bootExt [(6#5, 0x7FFFFFFF#32)] 0x00030283#32).run = .running
    ∧ after (bootExt [(6#5, 0x7FFFFFFF#32)] 0x00030283#32) (fun t => t.isAborted) = true := by decide
theorem witness_OnlyControlTransfersRedirect : State.reset.run = .running
    ∧ afterExec .ebreak State.reset (fun t => !t.isAborted) = true ∧ redirects .ebreak = false
    ∧ afterExec (.sb 6#5 7#5 0#32) (atAddress 0x87FFFFFF#32) (fun t => !t.isAborted) = true
    ∧ redirects (.sb 6#5 7#5 0#32) = false := by decide
theorem witness_OnlyTheDestinationRegisterChanges :
    afterExec (.addi 31#5 0#5 1#32) State.reset (fun t => t.reg 31#5 != State.reset.reg 31#5) = true := by decide

/-- A state whose slot of `x0` does not hold 0. -/
def dirtyZero : State :=
  { boot [] 0x00530013#32 with regs := (Vector.replicate 32 7#32) }

theorem witness_RetiringStepClearsRegisterZero : dirtyZero.run = .running ∧ dirtyZero.regs[0] = 7#32
    ∧ after dirtyZero (fun t => !t.isAborted) = true := by decide
theorem witness_OnlyStoresChangeMemory :
    afterExec (.lw 5#5 6#5 0#32) (atAddress 0x87FFFFFC#32) (fun t => t.run == .running) = true
    ∧ isStore (.lw 5#5 6#5 0#32) = false := by decide
theorem witness_EachCsrHasItsWriters :
    afterExec .mret State.reset (fun t => t.mstatus != State.reset.mstatus) = true
    ∧ afterExec (.csrrw 5#5 0x300#12 0#5) State.reset (fun t => t.mstatus != State.reset.mstatus) = true
    ∧ afterExec (.csrrw 5#5 0x305#12 6#5) (atAddress 1#32) (fun t => t.mtvec != 0#32) = true
    ∧ afterExec .ecall State.reset (fun t => t.mepc != 0#32 && t.mcause != 0#32) = true
    ∧ afterExec (.csrrs 5#5 0x341#12 6#5) (atAddress 1#32) (fun t => t.mepc != 0#32) = true
    ∧ afterExec (.csrrs 5#5 0x342#12 6#5) (atAddress 1#32) (fun t => t.mcause != 0#32) = true := by decide
theorem witness_OnlyEbreakHalts : (atAddress 0#32).run = .running
    ∧ afterExec .ebreak (atAddress 0#32) (fun t => t.run == .halted 0#32 0x80000000#32) = true := by decide
theorem witness_StatusWordInfluencesNothingElse :
    Instr.ecall ≠ .mret ∧ csrNumberOf .ecall ≠ some 0x300#12
    ∧ afterExec .ecall State.reset (fun t => t.mcause == 11#32) = true
    ∧ csrNumberOf (.csrrw 5#5 0x305#12 6#5) ≠ some 0x300#12
    ∧ afterExec (.csrrw 5#5 0x305#12 6#5) (atAddress 1#32) (fun t => t.mtvec == 1#32) = true := by decide
theorem witness_NoMisalignedAccessWithoutAlignCheck :
    (withData (boot [(6#5, 0x80001000#32)] 0x00132283#32)).cfg.alignCheck = false
    ∧ after (withData (boot [(6#5, 0x80001000#32)] 0x00132283#32)) (fun t => t.run == .running) = true := by decide

-- Results: the words a spelling clause is about, the accesses a load or store clause is about
theorem witness_SpelledByOpcode :
    ([(0x123452B7#32, 0b0110111#7), (0x12345297#32, 0b0010111#7)]
      ++ [(0x001000EF#32, 0b1101111#7)]).all
      (fun p => p.1.extractLsb' 0 7 == p.2) = true := by
  decide
theorem witness_SpelledByFunct3_and_SpelledWithExtOps :
    ([(0xFFC30293#32, 0b0010011#7, 0b000#3), (0xFFC32293#32, 0b0010011#7, 0b010#3)]
      ++ [(0xFFC33293#32, 0b0010011#7, 0b011#3), (0xFFC34293#32, 0b0010011#7, 0b100#3)]
      ++ [(0xFFC36293#32, 0b0010011#7, 0b110#3), (0xFFC37293#32, 0b0010011#7, 0b111#3)]
      ++ [(0xFFC302E7#32, 0b1100111#7, 0b000#3), (0xFE730CE3#32, 0b1100011#7, 0b000#3)]
      ++ [(0xFE731CE3#32, 0b1100011#7, 0b001#3), (0xFE734CE3#32, 0b1100011#7, 0b100#3)]
      ++ [(0xFE735CE3#32, 0b1100011#7, 0b101#3), (0xFE736CE3#32, 0b1100011#7, 0b110#3)]
      ++ [(0xFE737CE3#32, 0b1100011#7, 0b111#3), (0xFFC30283#32, 0b0000011#7, 0b000#3)]
      ++ [(0xFFC34283#32, 0b0000011#7, 0b100#3), (0xFFC31283#32, 0b0000011#7, 0b001#3)]
      ++ [(0xFFC35283#32, 0b0000011#7, 0b101#3), (0xFFC32283#32, 0b0000011#7, 0b010#3)]
      ++ [(0xFE730E23#32, 0b0100011#7, 0b000#3), (0xFE731E23#32, 0b0100011#7, 0b001#3)]
      ++ [(0xFE732E23#32, 0b0100011#7, 0b010#3), (0x0FF0000F#32, 0b0001111#7, 0b000#3)]
      ++ [(0x300312F3#32, 0b1110011#7, 0b001#3), (0x300322F3#32, 0b1110011#7, 0b010#3)]
      ++ [(0x300332F3#32, 0b1110011#7, 0b011#3), (0x300352F3#32, 0b1110011#7, 0b101#3)]
      ++ [(0x300362F3#32, 0b1110011#7, 0b110#3), (0x300372F3#32, 0b1110011#7, 0b111#3)]).all (fun p =>
        p.1.extractLsb' 0 7 == p.2.1 && p.1.extractLsb' 12 3 == p.2.2) = true := by
  decide
theorem witness_SpelledByFunct7 :
    ([(0x00331293#32, 0b0010011#7, 0b001#3, 0b0000000#7), (0x00335293#32, 0b0010011#7, 0b101#3, 0b0000000#7)]
      ++ [(0x40335293#32, 0b0010011#7, 0b101#3, 0b0100000#7), (0x007302B3#32, 0b0110011#7, 0b000#3, 0b0000000#7)]
      ++ [(0x407302B3#32, 0b0110011#7, 0b000#3, 0b0100000#7), (0x007322B3#32, 0b0110011#7, 0b010#3, 0b0000000#7)]
      ++ [(0x007332B3#32, 0b0110011#7, 0b011#3, 0b0000000#7), (0x007342B3#32, 0b0110011#7, 0b100#3, 0b0000000#7)]
      ++ [(0x007362B3#32, 0b0110011#7, 0b110#3, 0b0000000#7), (0x007372B3#32, 0b0110011#7, 0b111#3, 0b0000000#7)]
      ++ [(0x007312B3#32, 0b0110011#7, 0b001#3, 0b0000000#7), (0x007352B3#32, 0b0110011#7, 0b101#3, 0b0000000#7)]
      ++ [(0x407352B3#32, 0b0110011#7, 0b101#3, 0b0100000#7), (0x027302B3#32, 0b0110011#7, 0b000#3, 0b0000001#7)]
      ++ [(0x027312B3#32, 0b0110011#7, 0b001#3, 0b0000001#7), (0x027322B3#32, 0b0110011#7, 0b010#3, 0b0000001#7)]
      ++ [(0x027332B3#32, 0b0110011#7, 0b011#3, 0b0000001#7), (0x027342B3#32, 0b0110011#7, 0b100#3, 0b0000001#7)]
      ++ [(0x027352B3#32, 0b0110011#7, 0b101#3, 0b0000001#7), (0x027362B3#32, 0b0110011#7, 0b110#3, 0b0000001#7)]
      ++ [(0x027372B3#32, 0b0110011#7, 0b111#3, 0b0000001#7)]).all (fun p =>
        p.1.extractLsb' 0 7 == p.2.1 && p.1.extractLsb' 12 3 == p.2.2.1 && p.1.extractLsb' 25 7 == p.2.2.2) = true := by
  decide
theorem witness_QuotientAndRemainderRebuildTheDividend : (31#5 : RegNum) ≠ 0#5
    ∧ afterExec (.div 31#5 6#5 7#5) (boot [(6#5, 0x80000000#32), (7#5, 0xFFFFFFFF#32)] 0#32)
        (fun t => t.reg 31#5 == 0x80000000#32) = true
    ∧ afterExec (.rem 31#5 6#5 7#5) (boot [(6#5, 0x80000000#32), (7#5, 0xFFFFFFFF#32)] 0#32)
        (fun t => t.reg 31#5 == 0#32) = true
    ∧ afterExec (.divu 31#5 6#5 0#5) (boot [(6#5, 9#32)] 0#32) (fun t => t.reg 31#5 == 0xFFFFFFFF#32) = true
    ∧ afterExec (.remu 31#5 6#5 0#5) (boot [(6#5, 9#32)] 0#32) (fun t => t.reg 31#5 == 9#32) = true := by decide
theorem witness_AccessAllowed_at_both_ends :
    AccessAllowed (atAddress 0#32) 0x80000000#32 1 ∧ AccessAllowed (atAddress 0#32) 0x87FFFFFF#32 1
    ∧ AccessAllowed (atAddress 0#32) 0x80000001#32 2 ∧ AccessAllowed (atAddress 0#32) 0x87FFFFFE#32 2
    ∧ AccessAllowed (atAddress 0#32) 0x80000003#32 4 ∧ AccessAllowed (atAddress 0#32) 0x87FFFFFC#32 4 := by
  unfold AccessAllowed; decide
theorem witness_AccessAllowed_with_align_check :
    AccessAllowed (aligned (atAddress 0#32)) 0x87FFFFFF#32 1
    ∧ AccessAllowed (aligned (atAddress 0#32)) 0x87FFFFFE#32 2
    ∧ AccessAllowed (aligned (atAddress 0#32)) 0x87FFFFFC#32 4 := by
  unfold AccessAllowed; decide
theorem witness_AccessFaults_misaligned : (aligned (atAddress 0#32)).cfg.alignCheck = true
    ∧ (0x80000001#32).toNat % 2 ≠ 0 ∧ (0x80000002#32).toNat % 4 ≠ 0 ∧ (0x7FFFFFFF#32).toNat % 4 ≠ 0 := by decide
theorem witness_AccessFaults_outside : (atAddress 0#32).cfg.alignCheck = false
    ∧ (0x7FFFFFFF#32).toNat < (atAddress 0#32).cfg.memBase.toNat
    ∧ 0x80000000 + (atAddress 0#32).cfg.memSize < (0x88000000#32).toNat + 1
    ∧ 0x80000000 + (atAddress 0#32).cfg.memSize < (0x87FFFFFF#32).toNat + 2
    ∧ 0x80000000 + (atAddress 0#32).cfg.memSize < (0x87FFFFFD#32).toNat + 4
    ∧ 0x80000000 + (atAddress 0#32).cfg.memSize < (0xFFFFFFFD#32).toNat + 4 := by decide
theorem witness_StoreInstructions_and_MemoryPrimitives : (atAddress 0x87FFFFFC#32).mem.wf = true
    ∧ (atAddress 0x87FFFFFC#32).mem.length = 5
    ∧ (atAddress 0x87FFFFFC#32).cfg.memBase.toNat ≤ (0x87FFFFFC#32).toNat
    ∧ (0x87FFFFFC#32).toNat + Width.word.bytes
        ≤ (atAddress 0x87FFFFFC#32).cfg.memBase.toNat + (atAddress 0x87FFFFFC#32).cfg.memSize := by decide
theorem witness_MixedWidthAccessesSeeTheSameBytes : (atAddress 0#32).mem.wf = true
    ∧ (atAddress 0#32).cfg.memBase.toNat ≤ (0x87FFFFFC#32).toNat
    ∧ (0x87FFFFFC#32).toNat + 4 ≤ (atAddress 0#32).cfg.memBase.toNat + (atAddress 0#32).cfg.memSize
    ∧ (0x87FFFFFC#32).toNat + 4 ≤ 2 ^ 32 := by decide
theorem witness_StoredWordIsFetched : atTheTop.mem.wf = true ∧ atTheTop.run = .running
    ∧ afterExec (.sw 6#5 6#5 0#32) atTheTop (fun t => t.run == .running
        && after { t with pc := 0x87FFFFFC#32 } (fun u => u.isAborted)) = true := by decide

-- System and CSR instructions
theorem witness_EcallInstruction_and_EbreakInstruction : State.reset.cfg = Config.reference := by decide
theorem witness_MretReturnsFromEcall : afterExec .ecall (atAddress 0#32)
    (fun t => afterExec .mret t (fun v => v.pc == 0x80000000#32)) = true := by decide
theorem witness_CsrReadWriteInstructions :
    ([(0x300#12, 0x1800#32), (0x305#12, 0#32), (0x341#12, 0#32), (0x342#12, 0#32)].all fun (p : CsrNum × Word) =>
      (p.1 == 0x300#12 && p.2 == State.reset.mstatus) || (p.1 == 0x305#12 && p.2 == State.reset.mtvec)
      || (p.1 == 0x341#12 && p.2 == State.reset.mepc) || (p.1 == 0x342#12 && p.2 == State.reset.mcause)) = true
    ∧ ¬ ImplementedCsr 0x301#12 ∧ ¬ ImplementedCsr 0xFFF#12 := by
  unfold ImplementedCsr; decide
theorem witness_OptionalCsrInstructions :
    (bootExt [] 0#32).cfg.csrExtOps = true ∧ State.reset.cfg.csrExtOps = false ∧ ¬ ImplementedCsr 0x344#12 := by
  unfold ImplementedCsr; decide

theorem witness_EveryInstructionGivesANextState :
    afterExec (.inv 0xFFFFFFFF#32) (atAddress 0#32)
      (fun t => t == { atAddress 0#32 with run := .aborted .invalidInstruction 0x80000000#32 }) = true
    ∧ mayAbort (.inv 0xFFFFFFFF#32) = true ∧ mayAbort .ecall = false := by decide

-- Outputs and expansions
theorem witness_TrapEventOfEveryStep :
    (boot [(17#5, 0xFFFFFFFF#32)] 0x00000073#32).run = .running
    ∧ (boot [(17#5, 0xFFFFFFFF#32)] 0x00000073#32).fetch = .ok 0x00000073#32
    ∧ (boot [] 0x00100073#32).fetch ≠ .ok 0x00000073#32
    ∧ (State.fetch { State.reset with pc := 0x7FFFFFFC#32 }) ≠ .ok 0x00000073#32 := by decide

/-- A jump step's hypotheses hold for the word `w`: it is fetched, and its step goes on. -/
def stepsOver (w : Word) : Bool :=
  (match (boot [(1#5, 0x80000040#32)] w).fetch with
    | .ok v => v == w
    | .error _ => false)
  && after (boot [(1#5, 0x80000040#32)] w) (fun t => t.run == .running)

theorem witness_JumpClassificationOfEveryStep :
    ([0x008000EF#32, 0x0080006F#32, 0x000080E7#32, 0x00008067#32, 0x00030067#32, 0x00408067#32, 0x00000013#32].all
      stepsOver) = true
    ∧ decodeWord false 0x008000EF#32 = .jal 1#5 8#32 ∧ decodeWord false 0x0080006F#32 = .jal 0#5 8#32
    ∧ decodeWord false 0x000080E7#32 = .jalr 1#5 1#5 0#32 ∧ decodeWord false 0x00008067#32 = .jalr 0#5 1#5 0#32
    ∧ decodeWord false 0x00030067#32 = .jalr 0#5 6#5 0#32 ∧ decodeWord false 0x00408067#32 = .jalr 0#5 1#5 4#32
    ∧ decodeWord false 0x00000013#32 = .addi 0#5 0#5 0#32 := by decide
theorem witness_ExpansionsBuildTheirValues : (1#5 : RegNum) ≠ 0#5 ∧ (31#5 : RegNum) ≠ 0#5
    ∧ (match execAll (Pseudo.li 31#5 0x80000800#32).expand State.reset with
        | .next t => t.reg 31#5 == 0x80000800#32
        | .fault _ => false
        | .refused _ => false) = true := by decide

end Sys2Proof.Tests
end

section
/-! PROOFS of the family "state" (10_state.md): what every reset gives, what a step of a running machine answers, and
which instruction may change which piece of state. -/

namespace Sys2Proof.Machine

/-! ### The invariant -/

theorem inv_iff (s : State) :
    s.inv = true ↔ s.mem.wf = true ∧ s.memInRange = true ∧ s.regs[0] = 0#32 := by
  simp [State.inv, and_assoc]

/-! ### Reset -/

theorem slot0_launch (cfg : Config) (l : Launch) : (State.launch cfg l).regs[0] = 0#32 := by
  simp [State.launch]

theorem reg_launch (cfg : Config) (l : Launch) (r : RegNum) :
    (State.launch cfg l).reg r = if r = 0#5 then 0#32 else l.gprInit[r.toNat]'r.isLt := by
  by_cases h0 : r = 0#5
  · simp [h0]
  · have h' : 0 ≠ r.toNat := fun e => h0 (BitVec.eq_of_toNat_eq e.symm)
    simp [State.reg, State.launch, h0, Vector.getElem_set_ne _ _ h']

/-- The reference launch holds 0 in every register. -/
theorem reg_reset (r : RegNum) : State.reset.reg r = 0#32 := by
  rw [State.reset, reg_launch]
  split
  · rfl
  · exact Vector.getElem_replicate r.isLt

/-- A reset answers a state only for an image that Guest Memory holds whole: the launch with the image in it. -/
theorem hostReset_eq_some {cfg : Config} {l : Launch} {image : List Byte} {loadAddr : Option Word} {s : State}
    (h : hostReset cfg l image loadAddr = some s) :
    inGuestMemory cfg (loadAddr.getD cfg.resetPc) image.length = true ∧
      s = { State.launch cfg l with mem := loadImage l.memInit (loadAddr.getD cfg.resetPc).toNat image } := by
  simp only [hostReset] at h
  split at h
  · next hin => exact ⟨hin, (Option.some.inj h).symm⟩
  · cases h

/-- Settles O2: `State.reset` is the launch with the reference configuration and the reference launch parameters. -/
theorem resetIsTheReferenceLaunch : Obligations.ResetIsTheReferenceLaunch :=
  ⟨rfl, rfl, rfl, reg_reset, rfl, rfl, rfl, fun _ => rfl, rfl⟩

/-- Settles O3: loading an image that Guest Memory holds keeps memory canonical and in range, and a launch clears the
slot of x0. -/
theorem resetHasTheInvariant : Obligations.ResetHasTheInvariant := by
  constructor
  · exact (inv_iff _).mpr ⟨rfl, rfl, slot0_launch _ _⟩
  · intro cfg l image a s hwf hwithin hs
    obtain ⟨hin, rfl⟩ := hostReset_eq_some hs
    obtain ⟨hlo, hhi⟩ := (inGuestMemory_iff _ _ _).mp hin
    exact (inv_iff _).mpr
      ⟨wf_loadImage image hwf _, within_loadImage image hwithin hlo hhi, slot0_launch cfg l⟩

/-! ### What every next state keeps -/

theorem NextForm.cfg_eq {s t : State} (h : NextForm s t) : t.cfg = s.cfg := by
  cases h <;> subst t <;> simp

/-- The run goes on as it was, or it ends at this pc. -/
theorem NextForm.run_cases {s t : State} (h : NextForm s t) :
    t.run = s.run ∨ (∃ code, t.run = .halted code s.pc) ∨ ∃ reason, t.run = .aborted reason s.pc := by
  cases h with
  | aborts reason ht => exact .inr (.inr ⟨reason, by rw [ht, run_abort]⟩)
  | halts code ht => exact .inr (.inl ⟨code, by rw [ht, run_halt]⟩)
  | _ => subst t; simp

/-- Memory is as it was, or bytes were written inside Guest Memory. -/
theorem NextForm.mem_cases {s t : State} (h : NextForm s t) :
    t.mem = s.mem ∨ ∃ (ea v : Word) (n : Nat), inGuestMemory s.cfg ea n = true ∧
      t.mem = s.mem.writeBytes ea.toNat v n := by
  cases h with
  | stores ea v n hin ht => exact .inr ⟨ea, v, n.bytes, hin, by rw [ht, mem_retire]⟩
  | _ => subst t; simp

/-- Every next state but an abort's ends in a retirement, which clears the slot of x0. -/
theorem NextForm.abort_or_slot0 {s t : State} (h : NextForm s t) :
    (∃ reason, t = s.abort reason) ∨ t.regs[0] = 0#32 := by
  cases h with
  | aborts reason ht => exact .inl ⟨reason, ht⟩
  | halts code ht => subst t; exact .inr (slot0_retire s s.snpc)
  | _ => subst t; exact .inr (slot0_retire _ _)

theorem NextForm.keeps_inv {s t : State} (hf : NextForm s t) (h : s.inv = true) : t.inv = true := by
  obtain ⟨hwf, hrange, hslot⟩ := (inv_iff s).mp h
  have hslot' : t.regs[0] = 0#32 := by
    obtain ⟨reason, rfl⟩ | h0 := hf.abort_or_slot0
    · exact hslot
    · exact h0
  rw [inv_iff, State.memInRange, hf.cfg_eq]
  obtain hmem | ⟨ea, v, n, hin, hmem⟩ := hf.mem_cases
  · rw [hmem]
    exact ⟨hwf, hrange, hslot'⟩
  · obtain ⟨hlo, hhi⟩ := (inGuestMemory_iff _ _ _).mp hin
    rw [hmem]
    exact ⟨wf_writeBytes hwf _ v n, within_writeBytes hrange v hlo n hhi, hslot'⟩

/-- Settles O4: each of the forms a step's next state can have keeps the invariant. -/
theorem stepKeepsTheInvariant : Obligations.StepKeepsTheInvariant :=
  fun _ _ hinv hstep => (step_next_form hstep).2.keeps_inv hinv

theorem step_form_of_running {s : State} (h : s.run = .running) : ∃ t, step s = .next t ∧ NextForm s t := by
  rw [step_running h]
  split
  · exact exec_form _ s
  · exact ⟨_, rfl, .aborts _ rfl⟩

/-- Settles O19: a running step has one of the forms of a next state, and each keeps the configuration and either the
run or its end at this pc. -/
theorem everyRunningStepGivesANextState : Obligations.EveryRunningStepGivesANextState := by
  intro s hrun
  obtain ⟨t, hstep, hf⟩ := step_form_of_running hrun
  exact ⟨t, hstep, hf.cfg_eq, hrun ▸ hf.run_cases⟩

/-- Settles O23: a next state that is not an abort's was retired. -/
theorem retiringStepClearsRegisterZero : Obligations.RetiringStepClearsRegisterZero := by
  intro s t _ hstep hretired
  refine ⟨?_, reg_zero t⟩
  obtain ⟨reason, rfl⟩ | h0 := (step_next_form hstep).2.abort_or_slot0
  · cases hretired
  · exact h0

/-! ### Which instruction has which effect -/

/-- `NextForm` with its instruction: the same eight forms, each with what it says of the instruction, and the values of
the trap and of the halt. Which instruction may change which piece of state is a case analysis on it. -/
inductive Effect (i : Instr) (s t : State) : Prop where
  /-- `rd` is written; only a control transfer goes elsewhere than `pc + 4`. -/
  | writesReg (rd : RegNum) (v d : Word) : destOf i = some rd → (redirects i = false → d = s.snpc) →
      t = (s.setReg rd v).retire d → Effect i s t
  /-- Only the pc is written. -/
  | retires (d : Word) : (redirects i = false → d = s.snpc) → t = s.retire d → Effect i s t
  /-- A store writes bytes in Guest Memory. -/
  | stores (ea v : Word) (n : Width) : isStore i = true → inGuestMemory s.cfg ea n.bytes = true →
      t = { s with mem := s.mem.writeBytes ea.toNat v n.bytes }.retire s.snpc → Effect i s t
  /-- The named CSR and `rd` are written. -/
  | writesCsr (c : Csr) (v : Word) (rd : RegNum) (w : Word) : csrNumberOf i = some c.number → destOf i = some rd →
      t = ((s.writeCsr c v).setReg rd w).retire s.snpc → Effect i s t
  /-- A fatal fault. -/
  | aborts (reason : AbortReason) : mayAbort i = true → t = s.abort reason → Effect i s t
  /-- ECALL's trap. -/
  | traps : i = .ecall → t = s.trapEntry s.cfg.ecallCause s.ecallReturn → Effect i s t
  /-- MRET's return from it. -/
  | returns : i = .mret → t = s.trapReturn → Effect i s t
  /-- EBREAK's end of the run. -/
  | halts : i = .ebreak → t = s.halt (s.reg s.cfg.exitReg) → Effect i s t

theorem load_effect {i : Instr} {rd : RegNum} (hrd : destOf i = some rd) (hab : mayAbort i = true)
    (ea : Word) (n : Width) (extend : Word → Word) (s : State) :
    ∃ t, load rd ea n extend s = .next t ∧ Effect i s t := by
  rw [load_eq]
  split
  · exact ⟨_, rfl, .writesReg rd _ _ hrd (fun _ => rfl) rfl⟩
  · exact ⟨_, rfl, .aborts _ hab rfl⟩

theorem store_effect {i : Instr} (hst : isStore i = true) (hab : mayAbort i = true) (ea : Word) (n : Width) (v : Word)
    (s : State) : ∃ t, store ea n v s = .next t ∧ Effect i s t := by
  rw [store_eq]
  split
  · next hok =>
    simp only [accessOk, Bool.and_eq_true] at hok
    exact ⟨_, rfl, .stores ea v n hst hok.2 rfl⟩
  · exact ⟨_, rfl, .aborts _ hab rfl⟩

theorem csrAccess_effect {i : Instr} {rd : RegNum} {csr : CsrNum} (hcsr : csrNumberOf i = some csr)
    (hrd : destOf i = some rd) (hab : mayAbort i = true) (new : Word → Word) (s : State) :
    ∃ t, csrAccess rd csr new s = .next t ∧ Effect i s t := by
  rw [csrAccess]
  split
  · next c hc => exact ⟨_, rfl, .writesCsr c _ rd _ (csrOfNumber_eq_some.mp hc ▸ hcsr) hrd rfl⟩
  · exact ⟨_, rfl, .aborts _ hab rfl⟩

theorem csrAccessOptional_effect {i : Instr} {rd : RegNum} {csr : CsrNum} (hcsr : csrNumberOf i = some csr)
    (hrd : destOf i = some rd) (hab : mayAbort i = true) (new : Word → Word) (s : State) :
    ∃ t, csrAccessOptional rd csr new s = .next t ∧ Effect i s t := by
  rw [csrAccessOptional]
  split
  · exact csrAccess_effect hcsr hrd hab new s
  · exact ⟨_, rfl, .aborts _ hab rfl⟩

theorem exec_has_effect (i : Instr) (s : State) : ∃ t, exec i s = .next t ∧ Effect i s t := by
  cases i
  case jal | jalr => exact ⟨_, rfl, .writesReg _ _ _ rfl (fun h => by cases h) rfl⟩
  case beq | bne | blt | bge | bltu | bgeu => exact ⟨_, rfl, .retires _ (fun h => by cases h) rfl⟩
  case lb | lh | lw | lbu | lhu => exact load_effect rfl rfl _ _ _ _
  case sb | sh | sw => exact store_effect rfl rfl _ _ _ _
  case fence => exact ⟨_, rfl, .retires _ (fun _ => rfl) rfl⟩
  case ecall => exact ⟨_, rfl, .traps rfl rfl⟩
  case ebreak => exact ⟨_, rfl, .halts rfl rfl⟩
  case mret => exact ⟨_, rfl, .returns rfl rfl⟩
  case csrrw rd csr rs1 => exact csrAccess_effect rfl rfl rfl (fun _ => s.reg rs1) s
  case csrrs rd csr rs1 => exact csrAccess_effect rfl rfl rfl (fun old => old ||| s.reg rs1) s
  case csrrc | csrrwi | csrrsi | csrrci => exact csrAccessOptional_effect rfl rfl rfl _ _
  case inv => exact ⟨_, rfl, .aborts _ rfl rfl⟩
  all_goals exact ⟨_, rfl, .writesReg _ _ _ rfl (fun _ => rfl) rfl⟩

theorem effect_of_exec {i : Instr} {s t : State} (h : exec i s = .next t) : Effect i s t := by
  obtain ⟨u, hu, he⟩ := exec_has_effect i s
  rw [hu] at h
  cases h
  exact he

/-! ### Registers -/

theorem eq_of_reg_setReg_ne {s : State} {rd r : RegNum} {v : Word} (h : (s.setReg rd v).reg r ≠ s.reg r) :
    r = rd := by
  by_contra hr
  apply h
  by_cases h0 : r = 0#5
  · simp [h0]
  · simp [h0, hr]

/-- Settles O22: the effects that write a register write the instruction's `rd`, and no other effect writes one. -/
theorem onlyTheDestinationRegisterChanges : Obligations.OnlyTheDestinationRegisterChanges := by
  intro i s t r hexec hne
  cases effect_of_exec hexec with
  | writesReg rd v d hrd _ ht =>
    subst t
    rw [reg_retire] at hne
    rw [hrd, eq_of_reg_setReg_ne hne]
  | writesCsr c v rd w _ hrd ht =>
    subst t
    rw [reg_retire, ← reg_writeCsr s c v] at hne
    rw [hrd, eq_of_reg_setReg_ne hne]
  | _ => subst t; simp at hne

/-! ### CSRs -/

@[simp] theorem readCsr_setReg (s : State) (r : RegNum) (v : Word) (c : Csr) :
    (s.setReg r v).readCsr c = s.readCsr c := by
  cases c <;> rfl
@[simp] theorem readCsr_retire (s : State) (d : Word) (c : Csr) : (s.retire d).readCsr c = s.readCsr c := by
  cases c <;> rfl
@[simp] theorem readCsr_with_mem (s : State) (m : Memory) (c : Csr) :
    ({ s with mem := m } : State).readCsr c = s.readCsr c := by
  cases c <;> rfl
@[simp] theorem readCsr_abort (s : State) (e : AbortReason) (c : Csr) : (s.abort e).readCsr c = s.readCsr c := by
  cases c <;> rfl
@[simp] theorem readCsr_halt (s : State) (v : Word) (c : Csr) : (s.halt v).readCsr c = s.readCsr c := by
  cases c <;> rfl

/-- A CSR is changed by an instruction that names it, by ECALL (`mepc` and `mcause`) or by MRET (`mstatus`). -/
theorem Effect.csr_writer {i : Instr} {s t : State} (he : Effect i s t) {c : Csr} (hne : t.readCsr c ≠ s.readCsr c) :
    (i = .mret ∧ c = .mstatus) ∨ (i = .ecall ∧ (c = .mepc ∨ c = .mcause)) ∨ csrNumberOf i = some c.number := by
  cases he with
  | writesCsr d v rd w hcsr _ ht =>
    subst t
    have hcd : c = d := by
      by_contra h
      simp [h] at hne
    exact .inr (.inr (hcd ▸ hcsr))
  | traps hi ht =>
    subst t
    refine .inr (.inl ⟨hi, ?_⟩)
    cases c <;> simp at hne ⊢
  | returns hi ht =>
    subst t
    refine .inl ⟨hi, ?_⟩
    cases c <;> simp at hne ⊢
  | _ => subst t; simp at hne

/-- Settles O25: `Effect.csr_writer` at each of the four CSRs. -/
theorem eachCsrHasItsWriters : Obligations.EachCsrHasItsWriters := by
  intro i s t hexec
  have writer (c : Csr) := (effect_of_exec hexec).csr_writer (c := c)
  refine ⟨fun h => ?_, fun h => ?_, fun h => ?_, fun h => ?_⟩
  · simpa [Csr.number] using writer .mstatus h
  · simpa [Csr.number] using writer .mtvec h
  · simpa [Csr.number] using writer .mepc h
  · simpa [Csr.number] using writer .mcause h

/-! ### The run -/

/-- Settles O26: of the effects only EBREAK's sets the run to Halted; the others keep it Running or abort. -/
theorem onlyEbreakHalts : Obligations.OnlyEbreakHalts := by
  intro i s t code haltPc hrun hexec hhalted
  cases effect_of_exec hexec with
  | halts hi ht =>
    subst t
    cases hhalted
    exact ⟨hi, rfl, rfl⟩
  | _ => subst t; simp [hrun] at hhalted

end Sys2Proof.Machine
end

section
/-! PROOFS of the round trip of one word (30_encoding.md R93, R103): a word that a row other than INV's takes is
implemented by the opcode map (R95), so the encoding of a well-formed instruction decodes to it. -/

namespace Sys2Proof

/-! ### The opcode map, one opcode at a time (R95) -/

section map
variable {ext : Bool} {w : Word}

theorem implementedWord_lui (h : w.extractLsb' 0 7 = 0b0110111#7) : implementedWord ext w = true := by
  delta implementedWord
  rw [h]
  rfl

theorem implementedWord_auipc (h : w.extractLsb' 0 7 = 0b0010111#7) : implementedWord ext w = true := by
  delta implementedWord
  rw [h]
  rfl

theorem implementedWord_jal (h : w.extractLsb' 0 7 = 0b1101111#7) : implementedWord ext w = true := by
  delta implementedWord
  rw [h]
  rfl

theorem implementedWord_jalr (h : w.extractLsb' 0 7 = 0b1100111#7) :
    implementedWord ext w = (w.extractLsb' 12 3 == 0b000#3) := by
  delta implementedWord
  rw [h]
  rfl

theorem implementedWord_branch (h : w.extractLsb' 0 7 = 0b1100011#7) :
    implementedWord ext w = !(w.extractLsb' 12 3 == 0b010#3 || w.extractLsb' 12 3 == 0b011#3) := by
  delta implementedWord
  rw [h]
  rfl

theorem implementedWord_load (h : w.extractLsb' 0 7 = 0b0000011#7) :
    implementedWord ext w = !(w.extractLsb' 12 3 == 0b011#3 || w.extractLsb' 12 3 == 0b110#3
      || w.extractLsb' 12 3 == 0b111#3) := by
  delta implementedWord
  rw [h]
  rfl

theorem implementedWord_store (h : w.extractLsb' 0 7 = 0b0100011#7) :
    implementedWord ext w = (w.extractLsb' 12 3 == 0b000#3 || w.extractLsb' 12 3 == 0b001#3
      || w.extractLsb' 12 3 == 0b010#3) := by
  delta implementedWord
  rw [h]
  rfl

theorem implementedWord_opImm (h : w.extractLsb' 0 7 = 0b0010011#7) :
    implementedWord ext w = if w.extractLsb' 12 3 == 0b001#3 then w.extractLsb' 25 7 == 0b0000000#7
      else if w.extractLsb' 12 3 == 0b101#3 then
        w.extractLsb' 25 7 == 0b0000000#7 || w.extractLsb' 25 7 == 0b0100000#7
      else true := by
  delta implementedWord
  rw [h]
  rfl

theorem implementedWord_op (h : w.extractLsb' 0 7 = 0b0110011#7) :
    implementedWord ext w = (w.extractLsb' 25 7 == 0b0000000#7 || w.extractLsb' 25 7 == 0b0000001#7
      || (w.extractLsb' 25 7 == 0b0100000#7
        && (w.extractLsb' 12 3 == 0b000#3 || w.extractLsb' 12 3 == 0b101#3))) := by
  delta implementedWord
  rw [h]
  rfl

theorem implementedWord_fence (h : w.extractLsb' 0 7 = 0b0001111#7) :
    implementedWord ext w = (w.extractLsb' 12 3 == 0b000#3) := by
  delta implementedWord
  rw [h]
  rfl

theorem implementedWord_system (h : w.extractLsb' 0 7 = 0b1110011#7) :
    implementedWord ext w = (w == 0x00000073#32 || w == 0x00100073#32 || w == 0x30200073#32
      || w.extractLsb' 12 3 == 0b001#3 || w.extractLsb' 12 3 == 0b010#3
      || (ext && (w.extractLsb' 12 3 == 0b011#3 || w.extractLsb' 12 3 == 0b101#3
        || w.extractLsb' 12 3 == 0b110#3 || w.extractLsb' 12 3 == 0b111#3))) := by
  delta implementedWord
  rw [h]
  rfl

end map

/-! ### What a row asks of a word -/

section rows
variable {ext o : Bool} {m : String} {p w : Word} {b : Word → Instr} {r : Row}

theorem opcode_of_takes (hp : p &&& 0x0000007F#32 = p) (h : (Row.mk m 0x0000007F#32 p o b).takes ext w = true) :
    w.extractLsb' 0 7 = p.extractLsb' 0 7 := by
  simpa [Row.takes, mask_opcode w p hp] using (Bool.and_eq_true_iff.mp h).2

theorem fields_of_takes_funct3 (hp : p &&& 0x0000707F#32 = p)
    (h : (Row.mk m 0x0000707F#32 p o b).takes ext w = true) :
    (!o || ext) = true ∧ w.extractLsb' 0 7 = p.extractLsb' 0 7 ∧ w.extractLsb' 12 3 = p.extractLsb' 12 3 := by
  simpa only [Row.takes, mask_funct3 w p hp, Bool.and_eq_true, beq_iff_eq] using h

theorem fields_of_takes_funct7 (hp : p &&& 0xFE00707F#32 = p)
    (h : (Row.mk m 0xFE00707F#32 p o b).takes ext w = true) :
    w.extractLsb' 0 7 = p.extractLsb' 0 7 ∧ w.extractLsb' 12 3 = p.extractLsb' 12 3
      ∧ w.extractLsb' 25 7 = p.extractLsb' 25 7 := by
  simpa only [Row.takes, mask_funct7 w p hp, Bool.and_eq_true, beq_iff_eq, and_assoc] using
    (Bool.and_eq_true_iff.mp h).2

theorem word_of_takes (h : (Row.mk m 0xFFFFFFFF#32 p o b).takes ext w = true) : w = p := by
  simpa only [mask_all, beq_iff_eq] using (Bool.and_eq_true_iff.mp h).2

/-! ### A word that a row takes is implemented -/

theorem implemented_of_rowsUJ (hr : r ∈ rowsUJ) (ht : r.takes ext w = true) : implementedWord ext w = true := by
  simp only [rowsUJ, List.mem_cons, List.not_mem_nil, or_false] at hr
  obtain rfl | rfl | rfl | rfl := hr
  · exact implementedWord_lui (opcode_of_takes (by decide) ht)
  · exact implementedWord_auipc (opcode_of_takes (by decide) ht)
  · exact implementedWord_jal (opcode_of_takes (by decide) ht)
  · obtain ⟨-, hop, hf3⟩ := fields_of_takes_funct3 (by decide) ht
    simp [implementedWord_jalr hop, hf3]

theorem implemented_of_rowsBranch (hr : r ∈ rowsBranch) (ht : r.takes ext w = true) :
    implementedWord ext w = true := by
  simp only [rowsBranch, List.mem_cons, List.not_mem_nil, or_false] at hr
  obtain rfl | rfl | rfl | rfl | rfl | rfl := hr
  all_goals
    obtain ⟨-, hop, hf3⟩ := fields_of_takes_funct3 (by decide) ht
    simp [implementedWord_branch hop, hf3]

theorem implemented_of_rowsLoad (hr : r ∈ rowsLoad) (ht : r.takes ext w = true) : implementedWord ext w = true := by
  simp only [rowsLoad, List.mem_cons, List.not_mem_nil, or_false] at hr
  obtain rfl | rfl | rfl | rfl | rfl := hr
  all_goals
    obtain ⟨-, hop, hf3⟩ := fields_of_takes_funct3 (by decide) ht
    simp [implementedWord_load hop, hf3]

theorem implemented_of_rowsStore (hr : r ∈ rowsStore) (ht : r.takes ext w = true) : implementedWord ext w = true := by
  simp only [rowsStore, List.mem_cons, List.not_mem_nil, or_false] at hr
  obtain rfl | rfl | rfl := hr
  all_goals
    obtain ⟨-, hop, hf3⟩ := fields_of_takes_funct3 (by decide) ht
    simp [implementedWord_store hop, hf3]

theorem implemented_of_rowsOpImm (hr : r ∈ rowsOpImm) (ht : r.takes ext w = true) : implementedWord ext w = true := by
  simp only [rowsOpImm, List.mem_cons, List.not_mem_nil, or_false] at hr
  obtain rfl | rfl | rfl | rfl | rfl | rfl | hshift := hr
  on_goal 7 =>
    obtain rfl | rfl | rfl := hshift
    all_goals
      obtain ⟨hop, hf3, hf7⟩ := fields_of_takes_funct7 (by decide) ht
      simp [implementedWord_opImm hop, hf3, hf7]
  all_goals
    obtain ⟨-, hop, hf3⟩ := fields_of_takes_funct3 (by decide) ht
    simp [implementedWord_opImm hop, hf3]

theorem implemented_of_rowsOp (hr : r ∈ rowsOp) (ht : r.takes ext w = true) : implementedWord ext w = true := by
  simp only [rowsOp, List.mem_cons, List.not_mem_nil, or_false] at hr
  obtain rfl | rfl | rfl | rfl | rfl | rfl | rfl | rfl | rfl | rfl := hr
  all_goals
    obtain ⟨hop, hf3, hf7⟩ := fields_of_takes_funct7 (by decide) ht
    simp [implementedWord_op hop, hf3, hf7]

theorem implemented_of_rowsMulDiv (hr : r ∈ rowsMulDiv) (ht : r.takes ext w = true) :
    implementedWord ext w = true := by
  simp only [rowsMulDiv, List.mem_cons, List.not_mem_nil, or_false] at hr
  obtain rfl | rfl | rfl | rfl | rfl | rfl | rfl | rfl := hr
  all_goals
    obtain ⟨hop, -, hf7⟩ := fields_of_takes_funct7 (by decide) ht
    simp [implementedWord_op hop, hf7]

theorem implemented_of_rowsSystem (hr : r ∈ rowsSystem) (ht : r.takes ext w = true) :
    implementedWord ext w = true := by
  simp only [rowsSystem, List.mem_cons, List.not_mem_nil, or_false] at hr
  obtain rfl | rfl | rfl | rfl := hr
  · obtain ⟨-, hop, hf3⟩ := fields_of_takes_funct3 (by decide) ht
    simp [implementedWord_fence hop, hf3]
  all_goals
    rw [word_of_takes ht]
    rfl

theorem implemented_of_rowsCsr (hr : r ∈ rowsCsr) (ht : r.takes ext w = true) : implementedWord ext w = true := by
  simp only [rowsCsr, List.mem_cons, List.not_mem_nil, or_false] at hr
  obtain rfl | rfl | rfl | rfl | rfl | rfl := hr
  case inl | inr.inl =>
    obtain ⟨-, hop, hf3⟩ := fields_of_takes_funct3 (by decide) ht
    simp [implementedWord_system hop, hf3]
  all_goals
    obtain ⟨hext, hop, hf3⟩ := fields_of_takes_funct3 (by decide) ht
    obtain rfl : ext = true := hext
    simp [implementedWord_system hop, hf3]

/-- The rows of the table before INV's. -/
def instructionRows : List Row :=
  rowsUJ ++ rowsBranch ++ rowsLoad ++ rowsStore ++ rowsOpImm ++ rowsOp ++ rowsMulDiv ++ rowsSystem ++ rowsCsr

theorem opcodeTable_eq : opcodeTable = instructionRows ++ rowsInv := rfl

theorem implemented_of_takes (hr : r ∈ instructionRows) (ht : r.takes ext w = true) :
    implementedWord ext w = true := by
  simp only [instructionRows, List.mem_append] at hr
  obtain ((((((((hr | hr) | hr) | hr) | hr) | hr) | hr) | hr) | hr) := hr
  · exact implemented_of_rowsUJ hr ht
  · exact implemented_of_rowsBranch hr ht
  · exact implemented_of_rowsLoad hr ht
  · exact implemented_of_rowsStore hr ht
  · exact implemented_of_rowsOpImm hr ht
  · exact implemented_of_rowsOp hr ht
  · exact implemented_of_rowsMulDiv hr ht
  · exact implemented_of_rowsSystem hr ht
  · exact implemented_of_rowsCsr hr ht

end rows

/-! ### The round trip -/

theorem instructionRows_disjoint :
    instructionRows.Pairwise (fun a b => (a.pattern ^^^ b.pattern) &&& a.mask &&& b.mask ≠ 0#32) := by
  decide

theorem decodeWord_of_takes {ext : Bool} {w : Word} {r : Row} (hr : r ∈ instructionRows) (ht : r.takes ext w = true) :
    decodeWord ext w = r.build w :=
  firstMatch_of_mem rowsInv instructionRows_disjoint hr ht

theorem decodeWord_of_not_implemented {ext : Bool} {w : Word} (h : implementedWord ext w = false) :
    decodeWord ext w = .inv w := by
  have hnone : ∀ r ∈ instructionRows, r.takes ext w = false := by
    intro r hr
    rw [← Bool.not_eq_true]
    intro ht
    rw [implemented_of_takes hr ht] at h
    cases h
  have hinv : firstMatch ext w rowsInv = .inv w := by simp [rowsInv, firstMatch]
  rw [decodeWord, opcodeTable_eq, firstMatch_of_none rowsInv hnone, hinv]

namespace Laws.OwnRow

/-- Every instruction has its own row. -/
theorem all : ∀ i : Instr, Statement i
  | .lui rd imm => lui rd imm
  | .auipc rd imm => auipc rd imm
  | .jal rd imm => jal rd imm
  | .jalr rd rs1 imm => jalr rd rs1 imm
  | .beq rs1 rs2 imm => beq rs1 rs2 imm
  | .bne rs1 rs2 imm => bne rs1 rs2 imm
  | .blt rs1 rs2 imm => blt rs1 rs2 imm
  | .bge rs1 rs2 imm => bge rs1 rs2 imm
  | .bltu rs1 rs2 imm => bltu rs1 rs2 imm
  | .bgeu rs1 rs2 imm => bgeu rs1 rs2 imm
  | .lb rd rs1 imm => lb rd rs1 imm
  | .lh rd rs1 imm => lh rd rs1 imm
  | .lw rd rs1 imm => lw rd rs1 imm
  | .lbu rd rs1 imm => lbu rd rs1 imm
  | .lhu rd rs1 imm => lhu rd rs1 imm
  | .sb rs1 rs2 imm => sb rs1 rs2 imm
  | .sh rs1 rs2 imm => sh rs1 rs2 imm
  | .sw rs1 rs2 imm => sw rs1 rs2 imm
  | .addi rd rs1 imm => addi rd rs1 imm
  | .slti rd rs1 imm => slti rd rs1 imm
  | .sltiu rd rs1 imm => sltiu rd rs1 imm
  | .xori rd rs1 imm => xori rd rs1 imm
  | .ori rd rs1 imm => ori rd rs1 imm
  | .andi rd rs1 imm => andi rd rs1 imm
  | .slli rd rs1 shamt => slli rd rs1 shamt
  | .srli rd rs1 shamt => srli rd rs1 shamt
  | .srai rd rs1 shamt => srai rd rs1 shamt
  | .add rd rs1 rs2 => add rd rs1 rs2
  | .sub rd rs1 rs2 => sub rd rs1 rs2
  | .sll rd rs1 rs2 => sll rd rs1 rs2
  | .slt rd rs1 rs2 => slt rd rs1 rs2
  | .sltu rd rs1 rs2 => sltu rd rs1 rs2
  | .xor rd rs1 rs2 => xor rd rs1 rs2
  | .srl rd rs1 rs2 => srl rd rs1 rs2
  | .sra rd rs1 rs2 => sra rd rs1 rs2
  | .or rd rs1 rs2 => or rd rs1 rs2
  | .and rd rs1 rs2 => and rd rs1 rs2
  | .mul rd rs1 rs2 => mul rd rs1 rs2
  | .mulh rd rs1 rs2 => mulh rd rs1 rs2
  | .mulhsu rd rs1 rs2 => mulhsu rd rs1 rs2
  | .mulhu rd rs1 rs2 => mulhu rd rs1 rs2
  | .div rd rs1 rs2 => div rd rs1 rs2
  | .divu rd rs1 rs2 => divu rd rs1 rs2
  | .rem rd rs1 rs2 => rem rd rs1 rs2
  | .remu rd rs1 rs2 => remu rd rs1 rs2
  | .fence fm pred succ rs1 rd => fence fm pred succ rs1 rd
  | .ecall => ecall
  | .ebreak => ebreak
  | .mret => mret
  | .csrrw rd csr rs1 => csrrw rd csr rs1
  | .csrrs rd csr rs1 => csrrs rd csr rs1
  | .csrrc rd csr rs1 => csrrc rd csr rs1
  | .csrrwi rd csr uimm => csrrwi rd csr uimm
  | .csrrsi rd csr uimm => csrrsi rd csr uimm
  | .csrrci rd csr uimm => csrrci rd csr uimm
  | .inv raw => inv raw

end Laws.OwnRow

/-- The encoding of a well-formed instruction decodes to it: its own row takes the word, and no other row before INV's
does. -/
theorem decodeWord_encode {ext : Bool} {i : Instr} (h : i.wf ext = true) : decodeWord ext (encode i) = i := by
  obtain ⟨r, hr, htakes, hbuild⟩ := Laws.OwnRow.all i ext h
  rw [opcodeTable_eq, List.mem_append] at hr
  obtain hr | hr := hr
  · rw [decodeWord_of_takes hr htakes, hbuild]
  · obtain rfl := List.mem_singleton.mp hr
    change Instr.inv (encode i) = i at hbuild
    rw [← hbuild] at h
    rw [decodeWord_of_not_implemented (by simpa [Instr.wf] using h), hbuild]

end Sys2Proof
end

section
/-! PROOFS of the family "memory" (20_memory.md): what a read and a write of each width do to the bytes, what a fetch
gives the step, which instruction changes memory, and why a step aborts. -/

namespace Sys2Proof.Machine

/-! ### The bits of a read -/

/-- Bit `k` of a read is bit `k % 8` of the byte `k / 8` above the address; above its width a read is zero. -/
theorem getLsbD_readLE (m : Memory) (a : Nat) (n : Width) (k : Nat) : (m.readLE a n).getLsbD k =
    if k < 8 * n.bytes then (m.byte (a + k / 8)).getLsbD (k % 8) else false := by
  split
  · next hk =>
    have hk32 : k < 32 := by cases n <;> simp only [Width.bytes] at hk <;> omega
    cases n <;> simp only [Width.bytes] at hk <;>
      simp only [Memory.readLE, BitVec.getLsbD_setWidth, BitVec.getLsbD_append, hk32, decide_true, Bool.true_and]
    case byte => congr 2 <;> omega
    case half | word => split_ifs <;> congr 2 <;> omega
  · next hk =>
    cases n <;> simp only [Width.bytes] at hk
    case byte | half =>
      rw [Memory.readLE, BitVec.getLsbD_setWidth, BitVec.getLsbD_of_ge _ _ (by omega), Bool.and_false]
    case word => exact BitVec.getLsbD_of_ge _ _ (by omega)

/-- A read of any width inside a written word gives that part of the word. -/
theorem readLE_writeBytes_within {m : Memory} (h : m.wf = true) (a : Nat) (v : Word) {j : Nat} {n : Width}
    (hj : j + n.bytes ≤ 4) :
    (m.writeBytes a v 4).readLE (a + j) n = ((v >>> (8 * j)).setWidth (8 * n.bytes)).setWidth 32 := by
  apply BitVec.eq_of_getLsbD_eq
  intro k hk
  rw [getLsbD_readLE]
  simp only [BitVec.getLsbD_setWidth, BitVec.getLsbD_ushiftRight, hk, decide_true, Bool.true_and]
  split
  · next hkn =>
    rw [byte_writeBytes h, if_pos (by omega), BitVec.getLsbD_extractLsb']
    simp only [hkn, decide_true, Bool.true_and, show k % 8 < 8 by omega]
    congr 1
    omega
  · next hkn => simp [hkn]

/-! ### Parts of a word -/

/-- Keeping the low `n` bits by a mask is truncating to them. -/
theorem and_lowMask (v : Word) {n : Nat} (h : n ≤ 32) :
    v &&& BitVec.ofNat 32 (2 ^ n - 1) = (v.setWidth n).setWidth 32 := by
  have hle : 2 ^ n ≤ 2 ^ 32 := Nat.pow_le_pow_right (by omega) h
  have hpos : 0 < 2 ^ n := Nat.two_pow_pos n
  apply BitVec.eq_of_toNat_eq
  rw [BitVec.toNat_and, BitVec.toNat_ofNat, Nat.mod_eq_of_lt (by omega), Nat.and_two_pow_sub_one_eq_mod,
    BitVec.toNat_setWidth_of_le h, BitVec.toNat_setWidth]

/-- What a shift leaves fits in the bits it leaves. -/
theorem setWidth_ushiftRight (v : Word) {j n : Nat} (h : 32 ≤ j + n) :
    ((v >>> j).setWidth n).setWidth 32 = v >>> j := by
  apply BitVec.eq_of_getLsbD_eq
  intro k hk
  simp only [BitVec.getLsbD_setWidth, BitVec.getLsbD_ushiftRight, hk, decide_true, Bool.true_and]
  by_cases hn : k < n
  · simp [hn]
  · simp [hn, BitVec.getLsbD_of_ge v (j + k) (by omega)]

/-! ### MemRead and MemWrite -/

/-- Settles O43: the bits of a read, the bytes of a write, and the two failures. -/
theorem memoryPrimitives : Obligations.MemoryPrimitives := by
  intro s a n hwf
  constructor
  · intro hlo hhi
    have hin := (inGuestMemory_iff s.cfg a n.bytes).mpr ⟨hlo, hhi⟩
    refine ⟨⟨_, memRead_of_in hin, getLsbD_readLE s.mem a.toNat n⟩, fun v => ?_⟩
    refine ⟨_, memWrite_of_in v hin, fun k hk => ?_, fun b hb => ?_, fun _ => rfl, rfl, ⟨rfl, rfl, rfl, rfl⟩, rfl, rfl⟩
    · rw [byte_writeBytes hwf, if_pos (by omega), Nat.add_sub_cancel_left]
    · rw [byte_writeBytes hwf, if_neg (by omega)]
  · intro hout
    have hnot := (inGuestMemory_false_iff s.cfg a n.bytes).mpr hout
    exact ⟨memRead_of_out hnot, fun v => memWrite_of_out v hnot⟩

/-- After MemWrite of a word, MemRead inside it gives that part of it. -/
theorem memRead_of_memWrite_word {s t : State} {a b v : Word} {j : Nat} {n : Width} (hwf : s.mem.wf = true)
    (ht : s.memWrite a .word v = .ok t) (hb : b.toNat = a.toNat + j) (hj : j + n.bytes ≤ 4) :
    t.memRead b n = .ok (((v >>> (8 * j)).setWidth (8 * n.bytes)).setWidth 32) := by
  cases hin : inGuestMemory s.cfg a Width.word.bytes
  · rw [memWrite_of_out v hin] at ht
    cases ht
  · rw [memWrite_of_in v hin] at ht
    have hmem : t.mem = s.mem.writeBytes a.toNat v 4 := by cases ht; rfl
    have hcfg : t.cfg = s.cfg := by cases ht; rfl
    obtain ⟨hlo, hhi⟩ := (inGuestMemory_iff _ _ _).mp hin
    simp only [Width.bytes] at hhi
    have hb_in : inGuestMemory t.cfg b n.bytes = true := by
      rw [hcfg, inGuestMemory_iff]
      omega
    rw [memRead_of_in hb_in, hmem, hb, readLE_writeBytes_within hwf _ v hj]

/-- Settles O44: each of the seven reads is a part of the written word. -/
theorem mixedWidthAccessesSeeTheSameBytes : Obligations.MixedWidthAccessesSeeTheSameBytes := by
  intro s a v hwf hlo hhi hfit
  have ht := memWrite_of_in (n := .word) v ((inGuestMemory_iff s.cfg a 4).mpr ⟨hlo, hhi⟩)
  have hadd {j : Nat} (hj : j < 4) : (a + BitVec.ofNat 32 j).toNat = a.toNat + j := by
    rw [BitVec.toNat_add, BitVec.toNat_ofNat]
    omega
  have low8 (x : Word) : x &&& 0xFF#32 = (x.setWidth 8).setWidth 32 := and_lowMask x (n := 8) (by decide)
  have low16 (x : Word) : x &&& 0xFFFF#32 = (x.setWidth 16).setWidth 32 := and_lowMask x (n := 16) (by decide)
  have top8 : ((v >>> 24).setWidth 8).setWidth 32 = v >>> 24 := setWidth_ushiftRight v (by decide)
  have top16 : ((v >>> 16).setWidth 16).setWidth 32 = v >>> 16 := setWidth_ushiftRight v (by decide)
  have whole : ((v >>> 0).setWidth 32).setWidth 32 = v := setWidth_ushiftRight v (by decide)
  have read {b : Word} (j : Nat) (n : Width) (hb : b.toNat = a.toNat + j) (hj : j + n.bytes ≤ 4) :=
    memRead_of_memWrite_word hwf ht hb hj
  refine ⟨_, ht, ?_, ?_, ?_, ?_, ?_, ?_, ?_⟩
  · exact (read 0 .word rfl (by decide)).trans (congrArg _ whole)
  · exact (read 0 .byte rfl (by decide)).trans (congrArg _ (low8 v).symm)
  · exact (read 1 .byte (hadd (by decide)) (by decide)).trans (congrArg _ (low8 _).symm)
  · exact (read 2 .byte (hadd (by decide)) (by decide)).trans (congrArg _ (low8 _).symm)
  · exact (read 3 .byte (hadd (by decide)) (by decide)).trans (congrArg _ top8)
  · exact (read 0 .half rfl (by decide)).trans (congrArg _ (low16 v).symm)
  · exact (read 2 .half (hadd (by decide)) (by decide)).trans (congrArg _ top16)

/-! ### The fetch -/

theorem step_of_pc_in {s : State} (hrun : s.run = .running) (hin : inGuestMemory s.cfg s.pc 4 = true) :
    step s = exec (decodeWord s.cfg.csrExtOps (s.mem.readLE s.pc.toNat .word)) s := by
  rw [step_running hrun, State.fetch, memRead_of_in hin]

theorem step_of_pc_out {s : State} (hrun : s.run = .running) (hout : inGuestMemory s.cfg s.pc 4 = false) :
    step s = .next (s.abort (.accessFault s.pc)) := by
  rw [step_running hrun, State.fetch, memRead_of_out hout]

/-- Settles O17: the fetch is MemRead of a word, which looks at no alignment. -/
theorem everyStepFetchesFourBytesAtThePc : Obligations.EveryStepFetchesFourBytesAtThePc := by
  intro s hrun
  exact ⟨fun hlo hhi => step_of_pc_in hrun ((inGuestMemory_iff _ _ _).mpr ⟨hlo, hhi⟩),
    fun hout => step_of_pc_out hrun ((inGuestMemory_false_iff _ _ _).mpr hout)⟩

/-- A word written at the pc is what the step runs. -/
theorem step_of_word_at_pc {u : State} {m : Memory} {w : Word} (hwf : m.wf = true) (hrun : u.run = .running)
    (hin : inGuestMemory u.cfg u.pc 4 = true) (hmem : u.mem = m.writeBytes u.pc.toNat w 4) :
    step u = exec (decodeWord u.cfg.csrExtOps w) u := by
  rw [step_of_pc_in hrun hin, hmem, readLE_writeBytes_word hwf]

/-- Settles O45: SW goes on only if it wrote its word, and then the word is at the pc of the later fetch. -/
theorem storedWordIsFetched : Obligations.StoredWordIsFetched := by
  intro rs1 rs2 imm s t u hwf hrun hexec htrun hmem hcfg hurun hpc
  rw [exec_sw, store_eq] at hexec
  split at hexec
  · next hok =>
    cases hexec
    simp only [accessOk, Bool.and_eq_true] at hok
    obtain ⟨-, hin⟩ := hok
    refine step_of_word_at_pc hwf hurun ?_ (by rw [hmem, hpc]; rfl)
    rw [hcfg, hpc]
    exact hin
  · cases hexec
    cases htrun

theorem withFetchWord_of_in {s : State} (w : Word) (hin : inGuestMemory s.cfg s.pc 4 = true) :
    s.withFetchWord 32 w.toNat = { s with mem := s.mem.writeBytes s.pc.toNat w 4, run := .running } := by
  rw [State.withFetchWord, Nat.mod_eq_of_lt w.isLt, BitVec.ofNat_toNat, BitVec.setWidth_eq, memWrite_of_in w hin]
  rfl

theorem step_withFetchWord {s : State} (w : Word) (hwf : s.mem.wf = true) (hin : inGuestMemory s.cfg s.pc 4 = true) :
    step (s.withFetchWord 32 w.toNat) = exec (decodeWord s.cfg.csrExtOps w) (s.withFetchWord 32 w.toNat) := by
  rw [withFetchWord_of_in w hin]
  exact step_of_word_at_pc hwf rfl hin rfl

/-- Settles O16: the placed word is at the pc, and it decodes to the instruction it encodes. -/
theorem placedWordIsRunNext : Obligations.PlacedWordIsRunNext := by
  intro s i hwf hi hlo hhi
  have hin : inGuestMemory s.cfg s.pc 4 = true := (inGuestMemory_iff _ _ _).mpr ⟨hlo, hhi⟩
  rw [step_withFetchWord (encode i) hwf hin, decodeWord_encode hi]

/-! ### Who changes memory -/

/-- Settles O24: of the effects only a store's writes memory. -/
theorem onlyStoresChangeMemory : Obligations.OnlyStoresChangeMemory := by
  intro i s t hexec hnostore
  cases effect_of_exec hexec with
  | stores ea v n hstore _ _ =>
    rw [hnostore] at hstore
    cases hstore
  | _ => subst t; simp

/-! ### Why a step aborts -/

section abort
variable {s t : State} {reason : AbortReason} {haltPc : Word}

/-- Where the alternative keeps the run Running, an abort is the one named. -/
theorem reason_of_aborted_ite {c : Bool} {u : State} {r : AbortReason} (hu : u.run = .running)
    (h : (if c then .next u else .next (s.abort r) : Result) = .next t) (hab : t.run = .aborted reason haltPc) :
    reason = r := by
  split at h <;> cases h
  · rw [hu] at hab
    cases hab
  · cases hab
    rfl

theorem load_abort_reason {rd : RegNum} {ea : Word} {n : Width} {extend : Word → Word} (hrun : s.run = .running)
    (h : load rd ea n extend s = .next t) (hab : t.run = .aborted reason haltPc) : reason = accessReason s ea n := by
  rw [load_eq] at h
  exact reason_of_aborted_ite (by simpa using hrun) h hab

theorem store_abort_reason {ea : Word} {n : Width} {v : Word} (hrun : s.run = .running)
    (h : store ea n v s = .next t) (hab : t.run = .aborted reason haltPc) : reason = accessReason s ea n := by
  rw [store_eq] at h
  exact reason_of_aborted_ite (by simpa using hrun) h hab

theorem csrAccess_abort_reason {rd : RegNum} {csr : CsrNum} {new : Word → Word} (hrun : s.run = .running)
    (h : csrAccess rd csr new s = .next t) (hab : t.run = .aborted reason haltPc) :
    reason = .invalidInstruction := by
  rw [csrAccess] at h
  split at h <;> cases h
  · simp [hrun] at hab
  · cases hab
    rfl

theorem csrAccessOptional_abort_reason {rd : RegNum} {csr : CsrNum} {new : Word → Word} (hrun : s.run = .running)
    (h : csrAccessOptional rd csr new s = .next t) (hab : t.run = .aborted reason haltPc) :
    reason = .invalidInstruction := by
  rw [csrAccessOptional] at h
  split at h
  · exact csrAccess_abort_reason hrun h hab
  · cases h
    cases hab
    rfl

theorem mayAbort_of_aborted {i : Instr} (hrun : s.run = .running) (h : exec i s = .next t)
    (hab : t.run = .aborted reason haltPc) : mayAbort i = true := by
  cases effect_of_exec h with
  | aborts _ hmay _ => exact hmay
  | _ => subst t; simp [hrun] at hab

/-- An instruction aborts with InvalidInstruction or with the reason its data access gives. -/
theorem exec_abort_reason {i : Instr} (hrun : s.run = .running) (h : exec i s = .next t)
    (hab : t.run = .aborted reason haltPc) : reason = .invalidInstruction ∨ ∃ ea n, reason = accessReason s ea n := by
  have hmay := mayAbort_of_aborted hrun h hab
  cases i
  case lb | lh | lw | lbu | lhu => exact .inr ⟨_, _, load_abort_reason hrun h hab⟩
  case sb | sh | sw => exact .inr ⟨_, _, store_abort_reason hrun h hab⟩
  case csrrw => exact .inl (csrAccess_abort_reason hrun (exec_csrrw .. ▸ h) hab)
  case csrrs => exact .inl (csrAccess_abort_reason hrun (exec_csrrs .. ▸ h) hab)
  case csrrc | csrrwi | csrrsi | csrrci => exact .inl (csrAccessOptional_abort_reason hrun h hab)
  case inv =>
    cases h
    cases hab
    exact .inl rfl
  all_goals cases hmay

/-- A step aborts for its fetch, or with its instruction's reason. -/
theorem step_abort_reason (h : step s = .next t) (hab : t.run = .aborted reason haltPc) :
    reason = .invalidInstruction ∨ reason = .accessFault s.pc ∨ ∃ ea n, reason = accessReason s ea n := by
  obtain ⟨hrun, -⟩ := step_next_form h
  cases hin : inGuestMemory s.cfg s.pc 4
  · rw [step_of_pc_out hrun hin] at h
    cases h
    cases hab
    exact .inr (.inl rfl)
  · rw [step_of_pc_in hrun hin] at h
    exact (exec_abort_reason hrun h hab).imp_right .inr

end abort

theorem accessReason_of_no_alignCheck {s : State} (h : s.cfg.alignCheck = false) (ea : Word) (n : Width) :
    accessReason s ea n = .accessFault ea := by
  simp [accessReason, State.alignFault, h]

/-- Settles O28: none of the reasons a step aborts with is MisalignedAccess. -/
theorem noMisalignedAccessWithoutAlignCheck : Obligations.NoMisalignedAccessWithoutAlignCheck := by
  intro s t a haltPc _ halign hstep hab
  obtain h | h | ⟨ea, n, h⟩ := step_abort_reason hstep hab
  · cases h
  · cases h
  · rw [accessReason_of_no_alignCheck halign] at h
    cases h

end Sys2Proof.Machine
end

section
/-! PROOFS of the family "encoding" (30_encoding.md R80 to R103): the immediates bit by bit, the agreement of the table
with the opcode map, and the two round trips between words and well-formed instructions. -/

namespace Sys2Proof

/-- Settles O8: the instruction's own row takes its encoding, and the rows are disjoint. -/
theorem decodeOfEncodeIsTheInstruction : Obligations.DecodeOfEncodeIsTheInstruction :=
  fun _ _ => decodeWord_encode

/-! ### The immediates bit by bit (R87 to R91) -/

/-- A sign-extended field repeats its top bit. -/
theorem getLsbD_signExtend_min {n k : Nat} (x : BitVec (n + 1)) (hk : k < 32) :
    (x.signExtend 32).getLsbD k = x.getLsbD (min k n) := by
  rw [BitVec.getLsbD_signExtend, BitVec.msb_eq_getLsbD_last]
  simp only [hk, decide_true, Bool.true_and, Nat.add_sub_cancel]
  split <;> congr 1 <;> omega

section immediates
variable (w : Word) {k : Nat} (hk : k < 32)
include hk

theorem getLsbD_immI : (immI w).getLsbD k = if k < 11 then w.getLsbD (k + 20) else w.getLsbD 31 := by
  rw [immI, getLsbD_signExtend_min _ hk, BitVec.getLsbD_extractLsb']
  interval_cases k <;> rfl

theorem getLsbD_immS : (immS w).getLsbD k =
    if k < 5 then w.getLsbD (k + 7) else if k < 11 then w.getLsbD (k + 20) else w.getLsbD 31 := by
  rw [immS, getLsbD_signExtend_min _ hk, getLsbD_bitsS]
  simp only [BitVec.getLsbD_extractLsb']
  interval_cases k <;> rfl

theorem getLsbD_immB : (immB w).getLsbD k =
    if k = 0 then false else if k < 5 then w.getLsbD (k + 7) else if k < 11 then w.getLsbD (k + 20)
    else if k = 11 then w.getLsbD 7 else w.getLsbD 31 := by
  rw [immB, getLsbD_signExtend_min _ hk, getLsbD_bitsB]
  simp only [BitVec.getLsbD_extractLsb']
  interval_cases k <;> rfl

theorem getLsbD_immU_of_lt : (immU w).getLsbD k = if k < 12 then false else w.getLsbD k := by
  rw [getLsbD_immU, BitVec.getLsbD_extractLsb']
  interval_cases k <;> rfl

theorem getLsbD_immJ : (immJ w).getLsbD k =
    if k = 0 then false else if k < 11 then w.getLsbD (k + 20) else if k = 11 then w.getLsbD 20
    else if k < 20 then w.getLsbD k else w.getLsbD 31 := by
  rw [immJ, getLsbD_signExtend_min _ hk, getLsbD_bitsJ]
  simp only [BitVec.getLsbD_extractLsb']
  interval_cases k <;> rfl

end immediates

/-- Settles O12: the five immediates, one by one. -/
theorem immediatesAreAssembledBitByBit : Obligations.ImmediatesAreAssembledBitByBit :=
  fun w _ hk => ⟨getLsbD_immI w hk, getLsbD_immS w hk, getLsbD_immB w hk, getLsbD_immU_of_lt w hk, getLsbD_immJ w hk⟩

/-! ### The table and the decoder (R80, R93, R94) -/

/-- Settles O10: the rows before INV's are disjoint, and INV's empty mask takes every word. -/
theorem tableRowsAreDisjoint : Obligations.TableRowsAreDisjoint :=
  ⟨instructionRows_disjoint, rfl, fun w => congrArg (fun b => some ("INV", b)) (mask_none w)⟩

/-- Settles O13, each word by running the decoder on it. -/
theorem writtenOutWordsDecode : Obligations.WrittenOutWordsDecode := by
  unfold Obligations.WrittenOutWordsDecode
  decide

/-- Settles O14: the four bytes of a word put together give it back, and fewer match no arm but the last. -/
theorem decodeTakesFourBytesLittleEndian : Obligations.DecodeTakesFourBytesLittleEndian := by
  intro ext w rest short hshort
  constructor
  · exact congrArg (fun v => Except.ok (decodeWord ext v, rest)) (wordOfBytes_bytesOfWord w)
  · match short, hshort with
    | [], _ | [_], _ | [_, _], _ | [_, _, _], _ => rfl
    | _ :: _ :: _ :: _ :: _, h => simp only [List.length_cons] at h; omega

/-! ### An implemented word is taken by a row (R95) -/

section rows
variable {ext : Bool} {w : Word}

theorem any_rowsUJ_of_opcode
    (hop : w.extractLsb' 0 7 = 0b0110111#7 ∨ w.extractLsb' 0 7 = 0b0010111#7 ∨ w.extractLsb' 0 7 = 0b1101111#7) :
    rowsUJ.any (·.takes ext w) = true := by
  simp (disch := decide) only [rowsUJ, List.any_cons, List.any_nil, Row.takes, mask_opcode, mask_funct3]
  obtain hop | hop | hop := hop <;> simp [hop]

theorem any_rowsUJ_of_jalr (hop : w.extractLsb' 0 7 = 0b1100111#7) :
    rowsUJ.any (·.takes ext w) = implementedWord ext w := by
  simp (disch := decide) only [rowsUJ, List.any_cons, List.any_nil, Row.takes, mask_opcode, mask_funct3, hop,
    implementedWord_jalr hop]
  generalize w.extractLsb' 12 3 = funct3
  revert funct3 ext
  decide

theorem any_rowsBranch (hop : w.extractLsb' 0 7 = 0b1100011#7) :
    rowsBranch.any (·.takes ext w) = implementedWord ext w := by
  simp (disch := decide) only [rowsBranch, List.any_cons, List.any_nil, Row.takes, mask_funct3, hop,
    implementedWord_branch hop]
  generalize w.extractLsb' 12 3 = funct3
  revert funct3 ext
  decide

theorem any_rowsLoad (hop : w.extractLsb' 0 7 = 0b0000011#7) :
    rowsLoad.any (·.takes ext w) = implementedWord ext w := by
  simp (disch := decide) only [rowsLoad, List.any_cons, List.any_nil, Row.takes, mask_funct3, hop,
    implementedWord_load hop]
  generalize w.extractLsb' 12 3 = funct3
  revert funct3 ext
  decide

theorem any_rowsStore (hop : w.extractLsb' 0 7 = 0b0100011#7) :
    rowsStore.any (·.takes ext w) = implementedWord ext w := by
  simp (disch := decide) only [rowsStore, List.any_cons, List.any_nil, Row.takes, mask_funct3, hop,
    implementedWord_store hop]
  generalize w.extractLsb' 12 3 = funct3
  revert funct3 ext
  decide

theorem any_rowsOpImm (hop : w.extractLsb' 0 7 = 0b0010011#7) :
    rowsOpImm.any (·.takes ext w) = implementedWord ext w := by
  simp (disch := decide) only [rowsOpImm, List.any_cons, List.any_nil, Row.takes, mask_funct3, mask_funct7, hop,
    implementedWord_opImm hop]
  generalize w.extractLsb' 12 3 = funct3
  generalize w.extractLsb' 25 7 = funct7
  revert funct3 funct7 ext
  decide

theorem any_rowsOp_rowsMulDiv (hop : w.extractLsb' 0 7 = 0b0110011#7) :
    (rowsOp.any (·.takes ext w) || rowsMulDiv.any (·.takes ext w)) = implementedWord ext w := by
  simp (disch := decide) only [rowsOp, rowsMulDiv, List.any_cons, List.any_nil, Row.takes, mask_funct7, hop,
    implementedWord_op hop]
  generalize w.extractLsb' 12 3 = funct3
  generalize w.extractLsb' 25 7 = funct7
  revert funct3 funct7 ext
  decide

theorem any_rowsSystem_of_fence (hop : w.extractLsb' 0 7 = 0b0001111#7) (hw : implementedWord ext w = true) :
    rowsSystem.any (·.takes ext w) = true := by
  rw [implementedWord_fence hop] at hw
  simp [rowsSystem, Row.takes, mask_funct3, hop, hw]

theorem any_rowsSystem_rowsCsr (hop : w.extractLsb' 0 7 = 0b1110011#7) :
    (rowsSystem.any (·.takes ext w) || rowsCsr.any (·.takes ext w)) = implementedWord ext w := by
  simp (disch := decide) only [rowsSystem, rowsCsr, List.any_cons, List.any_nil, Row.takes, mask_funct3, mask_all, hop,
    implementedWord_system hop]
  generalize w.extractLsb' 12 3 = funct3
  generalize (w == 0x00000073#32) = ecall
  generalize (w == 0x00100073#32) = ebreak
  generalize (w == 0x30200073#32) = mret
  revert funct3 ecall ebreak mret ext
  decide

/-- The opcode map implements no word that the table has no row for. -/
theorem any_instructionRows (hw : implementedWord ext w = true) : instructionRows.any (·.takes ext w) = true := by
  simp only [instructionRows, List.any_append, Bool.or_eq_true, or_assoc]
  have h := hw
  unfold implementedWord at h
  dsimp only at h
  split at h
  next hop => simp [any_rowsUJ_of_opcode (.inl hop)]
  next hop => simp [any_rowsUJ_of_opcode (.inr (.inl hop))]
  next hop => simp [any_rowsUJ_of_opcode (.inr (.inr hop))]
  next hop => simp [any_rowsUJ_of_jalr hop, hw]
  next hop => simp [any_rowsBranch hop, hw]
  next hop => simp [any_rowsLoad hop, hw]
  next hop => simp [any_rowsStore hop, hw]
  next hop => simp [any_rowsOpImm hop, hw]
  next hop =>
    obtain h | h := Bool.or_eq_true_iff.mp ((any_rowsOp_rowsMulDiv hop).trans hw) <;> simp [h]
  next hop => simp [any_rowsSystem_of_fence hop hw]
  next hop =>
    obtain h | h := Bool.or_eq_true_iff.mp ((any_rowsSystem_rowsCsr hop).trans hw) <;> simp [h]
  next => cases h

theorem exists_takes_of_implemented (hw : implementedWord ext w = true) :
    ∃ r ∈ instructionRows, r.takes ext w = true :=
  List.any_eq_true.mp (any_instructionRows hw)

end rows

/-! ### The encoding of a decoded word -/

section formats
variable {w : Word} {op : BitVec 7} {funct3 : BitVec 3} {funct7 : BitVec 7}

theorem wordR_of_fields (hop : w.extractLsb' 0 7 = op) (hf3 : w.extractLsb' 12 3 = funct3)
    (hf7 : w.extractLsb' 25 7 = funct7) : wordR funct7 (fieldRs2 w) (fieldRs1 w) funct3 (fieldRd w) op = w := by
  rw [← hop, ← hf3, ← hf7, wordR_fields]

theorem wordI_of_fields (hop : w.extractLsb' 0 7 = op) (hf3 : w.extractLsb' 12 3 = funct3) :
    wordI (fieldCsr w) (fieldRs1 w) funct3 (fieldRd w) op = w := by
  rw [← hop, ← hf3, wordI_fields]

theorem wordI_immI_of_fields (hop : w.extractLsb' 0 7 = op) (hf3 : w.extractLsb' 12 3 = funct3) :
    wordI ((immI w).setWidth 12) (fieldRs1 w) funct3 (fieldRd w) op = w := by
  rw [immI_low, wordI_of_fields hop hf3]

theorem wordI_fence_of_fields (hop : w.extractLsb' 0 7 = op) (hf3 : w.extractLsb' 12 3 = funct3) :
    wordI (fieldFm w ++ fieldPred w ++ fieldSucc w) (fieldRs1 w) funct3 (fieldRd w) op = w := by
  rw [fence_word, wordI_of_fields hop hf3]

theorem wordS_of_fields (hop : w.extractLsb' 0 7 = op) (hf3 : w.extractLsb' 12 3 = funct3) :
    wordS (immS w) (fieldRs2 w) (fieldRs1 w) funct3 op = w := by
  rw [← hop, ← hf3, wordS_fields]

theorem wordB_of_fields (hop : w.extractLsb' 0 7 = op) (hf3 : w.extractLsb' 12 3 = funct3) :
    wordB (immB w) (fieldRs2 w) (fieldRs1 w) funct3 op = w := by
  rw [← hop, ← hf3, wordB_fields]

theorem wordU_of_fields (hop : w.extractLsb' 0 7 = op) : wordU (immU w) (fieldRd w) op = w := by
  rw [← hop, wordU_fields]

theorem wordJ_of_fields (hop : w.extractLsb' 0 7 = op) : wordJ (immJ w) (fieldRd w) op = w := by
  rw [← hop, wordJ_fields]

end formats

/-- The instruction is well-formed and the word is its encoding. -/
def Spells (ext : Bool) (w : Word) (i : Instr) : Prop := encode i = w ∧ i.wf ext = true

section spells
variable {ext : Bool} {w : Word} {r : Row}

theorem spells_of_rowsUJ (hr : r ∈ rowsUJ) (ht : r.takes ext w = true) : Spells ext w (r.build w) := by
  simp only [rowsUJ, List.mem_cons, List.not_mem_nil, or_false] at hr
  obtain rfl | rfl | rfl | rfl := hr
  · exact ⟨wordU_of_fields (opcode_of_takes (by decide) ht), fitsImmU_immU w⟩
  · exact ⟨wordU_of_fields (opcode_of_takes (by decide) ht), fitsImmU_immU w⟩
  · exact ⟨wordJ_of_fields (opcode_of_takes (by decide) ht), fitsImmJ_immJ w⟩
  · obtain ⟨-, hop, hf3⟩ := fields_of_takes_funct3 (by decide) ht
    exact ⟨wordI_immI_of_fields hop hf3, fitsImm12_immI w⟩

theorem spells_of_rowsBranch (hr : r ∈ rowsBranch) (ht : r.takes ext w = true) : Spells ext w (r.build w) := by
  simp only [rowsBranch, List.mem_cons, List.not_mem_nil, or_false] at hr
  obtain rfl | rfl | rfl | rfl | rfl | rfl := hr
  all_goals
    obtain ⟨-, hop, hf3⟩ := fields_of_takes_funct3 (by decide) ht
    exact ⟨wordB_of_fields hop hf3, fitsImmB_immB w⟩

theorem spells_of_rowsLoad (hr : r ∈ rowsLoad) (ht : r.takes ext w = true) : Spells ext w (r.build w) := by
  simp only [rowsLoad, List.mem_cons, List.not_mem_nil, or_false] at hr
  obtain rfl | rfl | rfl | rfl | rfl := hr
  all_goals
    obtain ⟨-, hop, hf3⟩ := fields_of_takes_funct3 (by decide) ht
    exact ⟨wordI_immI_of_fields hop hf3, fitsImm12_immI w⟩

theorem spells_of_rowsStore (hr : r ∈ rowsStore) (ht : r.takes ext w = true) : Spells ext w (r.build w) := by
  simp only [rowsStore, List.mem_cons, List.not_mem_nil, or_false] at hr
  obtain rfl | rfl | rfl := hr
  all_goals
    obtain ⟨-, hop, hf3⟩ := fields_of_takes_funct3 (by decide) ht
    exact ⟨wordS_of_fields hop hf3, fitsImm12_immS w⟩

theorem spells_of_rowsOpImm (hr : r ∈ rowsOpImm) (ht : r.takes ext w = true) : Spells ext w (r.build w) := by
  simp only [rowsOpImm, List.mem_cons, List.not_mem_nil, or_false] at hr
  obtain rfl | rfl | rfl | rfl | rfl | rfl | hshift := hr
  on_goal 7 =>
    obtain rfl | rfl | rfl := hshift
    all_goals
      obtain ⟨hop, hf3, hf7⟩ := fields_of_takes_funct7 (by decide) ht
      exact ⟨wordR_of_fields hop hf3 hf7, rfl⟩
  all_goals
    obtain ⟨-, hop, hf3⟩ := fields_of_takes_funct3 (by decide) ht
    exact ⟨wordI_immI_of_fields hop hf3, fitsImm12_immI w⟩

theorem spells_of_rowsOp (hr : r ∈ rowsOp) (ht : r.takes ext w = true) : Spells ext w (r.build w) := by
  simp only [rowsOp, List.mem_cons, List.not_mem_nil, or_false] at hr
  obtain rfl | rfl | rfl | rfl | rfl | rfl | rfl | rfl | rfl | rfl := hr
  all_goals
    obtain ⟨hop, hf3, hf7⟩ := fields_of_takes_funct7 (by decide) ht
    exact ⟨wordR_of_fields hop hf3 hf7, rfl⟩

theorem spells_of_rowsMulDiv (hr : r ∈ rowsMulDiv) (ht : r.takes ext w = true) : Spells ext w (r.build w) := by
  simp only [rowsMulDiv, List.mem_cons, List.not_mem_nil, or_false] at hr
  obtain rfl | rfl | rfl | rfl | rfl | rfl | rfl | rfl := hr
  all_goals
    obtain ⟨hop, hf3, hf7⟩ := fields_of_takes_funct7 (by decide) ht
    exact ⟨wordR_of_fields hop hf3 hf7, rfl⟩

theorem spells_of_rowsSystem (hr : r ∈ rowsSystem) (ht : r.takes ext w = true) : Spells ext w (r.build w) := by
  simp only [rowsSystem, List.mem_cons, List.not_mem_nil, or_false] at hr
  obtain rfl | rfl | rfl | rfl := hr
  · obtain ⟨-, hop, hf3⟩ := fields_of_takes_funct3 (by decide) ht
    exact ⟨wordI_fence_of_fields hop hf3, rfl⟩
  all_goals exact ⟨(word_of_takes ht).symm, rfl⟩

theorem spells_of_rowsCsr (hr : r ∈ rowsCsr) (ht : r.takes ext w = true) : Spells ext w (r.build w) := by
  simp only [rowsCsr, List.mem_cons, List.not_mem_nil, or_false] at hr
  obtain rfl | rfl | rfl | rfl | rfl | rfl := hr
  case inl | inr.inl =>
    obtain ⟨-, hop, hf3⟩ := fields_of_takes_funct3 (by decide) ht
    exact ⟨wordI_of_fields hop hf3, rfl⟩
  all_goals
    obtain ⟨hext, hop, hf3⟩ := fields_of_takes_funct3 (by decide) ht
    exact ⟨wordI_of_fields hop hf3, hext⟩

theorem spells_of_takes (hr : r ∈ instructionRows) (ht : r.takes ext w = true) : Spells ext w (r.build w) := by
  simp only [instructionRows, List.mem_append] at hr
  obtain ((((((((hr | hr) | hr) | hr) | hr) | hr) | hr) | hr) | hr) := hr
  · exact spells_of_rowsUJ hr ht
  · exact spells_of_rowsBranch hr ht
  · exact spells_of_rowsLoad hr ht
  · exact spells_of_rowsStore hr ht
  · exact spells_of_rowsOpImm hr ht
  · exact spells_of_rowsOp hr ht
  · exact spells_of_rowsMulDiv hr ht
  · exact spells_of_rowsSystem hr ht
  · exact spells_of_rowsCsr hr ht

theorem spells_decodeWord (ext : Bool) (w : Word) : Spells ext w (decodeWord ext w) := by
  cases hw : implementedWord ext w
  · rw [decodeWord_of_not_implemented hw]
    exact ⟨rfl, congrArg (!·) hw⟩
  · obtain ⟨r, hr, ht⟩ := exists_takes_of_implemented hw
    rw [decodeWord_of_takes hr ht]
    exact spells_of_takes hr ht

end spells

/-- Settles O9: a word that a row takes is spelled by what the row builds, and every other word is INV's. -/
theorem encodeOfDecodeIsTheWord : Obligations.EncodeOfDecodeIsTheWord := spells_decodeWord

/-- Settles O11: an INV is well-formed only with a word that the opcode map leaves out. -/
theorem wordIsInvIffTheOpcodeMapSaysSo : Obligations.WordIsInvIffTheOpcodeMapSaysSo := by
  intro ext w
  refine ⟨fun h => ?_, decodeWord_of_not_implemented⟩
  obtain ⟨-, hwf⟩ := spells_decodeWord ext w
  rw [h] at hwf
  exact (Bool.not_eq_true' _).mp hwf

end Sys2Proof
end

section
/-! PROOFS of the family "encoding" on the machine (30_encoding.md R86, R96 to R98, R102): the operand slots of a decoded
word, what a step runs and when it is invalid, what every instruction answers, and the pseudo-instructions' values. -/

namespace Sys2Proof.Machine

/-! ### The operand slots of an encoding (R86) -/

section operands
variable (s : State) (rd rs1 rs2 : RegNum) {imm : Word} (op : BitVec 7) (funct3 : BitVec 3) (funct7 : BitVec 7)

theorem operandsR_eq_fields : operandsR rd rs1 rs2 s = fieldsByFormat .r (wordR funct7 rs2 rs1 funct3 rd op) s := by
  change _ = Operands.mk (fieldRd _) (s.reg (fieldRs1 _)) (s.reg (fieldRs2 _)) 0#32
  rw [rd_wordR, rs1_wordR, rs2_wordR, operandsR]

theorem operandsI_signExtend_eq_fields (imm : BitVec 12) :
    operandsI rd rs1 (imm.signExtend 32) s = fieldsByFormat .i (wordI imm rs1 funct3 rd op) s := by
  change _ = Operands.mk (fieldRd _) (s.reg (fieldRs1 _)) 0#32 (immI _)
  rw [rd_wordI, rs1_wordI, immI_wordI, operandsI]

theorem operandsI_eq_fields (h : fitsImm12 imm = true) :
    operandsI rd rs1 imm s = fieldsByFormat .i (wordI (imm.setWidth 12) rs1 funct3 rd op) s := by
  rw [← operandsI_signExtend_eq_fields, beq_iff_eq.mp h]

theorem operandsShift_eq_fields (shamt : BitVec 5) : operandsShift funct7 rd rs1 shamt s =
    fieldsByFormat .i (wordR funct7 shamt rs1 funct3 rd op) s := by
  change _ = Operands.mk (fieldRd _) (s.reg (fieldRs1 _)) 0#32 (immI _)
  rw [rd_wordR, rs1_wordR, immI_eq_shiftSlot, funct7_wordR, shamt_wordR, operandsShift, operandsI]

theorem operandsS_eq_fields (h : fitsImm12 imm = true) :
    operandsS rs1 rs2 imm s = fieldsByFormat .s (wordS imm rs2 rs1 funct3 op) s := by
  change _ = Operands.mk (fieldRd _) (s.reg (fieldRs1 _)) (s.reg (fieldRs2 _)) (immS _)
  rw [← immS_rd, rs1_wordS, rs2_wordS, Laws.immS_back h, operandsS]

theorem operandsB_eq_fields (h : fitsImmB imm = true) :
    operandsB rs1 rs2 imm s = fieldsByFormat .b (wordB imm rs2 rs1 funct3 op) s := by
  change _ = Operands.mk (fieldRd _) (s.reg (fieldRs1 _)) (s.reg (fieldRs2 _)) (immB _)
  rw [← immB_rd, rs1_wordB, rs2_wordB, Laws.immB_back h, operandsB]

theorem operandsUJ_eq_fields_u (h : fitsImmU imm = true) :
    operandsUJ rd imm = fieldsByFormat .u (wordU imm rd op) s := by
  change _ = Operands.mk (fieldRd _) 0#32 0#32 (immU _)
  rw [rd_wordU, Laws.immU_back h, operandsUJ]

theorem operandsUJ_eq_fields_j (h : fitsImmJ imm = true) :
    operandsUJ rd imm = fieldsByFormat .j (wordJ imm rd op) s := by
  change _ = Operands.mk (fieldRd _) 0#32 0#32 (immJ _)
  rw [rd_wordJ, Laws.immJ_back h, operandsUJ]

end operands

theorem operandsOf_eq_fields {ext : Bool} {i : Instr} (h : i.wf ext = true) (s : State) :
    operandsOf i s = fieldsByFormat (formatOf i) (encode i) s := by
  cases i
  case lui | auipc => exact operandsUJ_eq_fields_u _ _ _ h
  case jal => exact operandsUJ_eq_fields_j _ _ _ h
  case beq | bne | blt | bge | bltu | bgeu => exact operandsB_eq_fields _ _ _ _ _ h
  case jalr | lb | lh | lw | lbu | lhu | addi | slti | sltiu | xori | ori | andi =>
    exact operandsI_eq_fields _ _ _ _ _ h
  case sb | sh | sw => exact operandsS_eq_fields _ _ _ _ _ h
  case slli | srli | srai => exact operandsShift_eq_fields _ _ _ _ _ _ _
  case fence | csrrw | csrrs | csrrc | csrrwi | csrrsi | csrrci => exact operandsI_signExtend_eq_fields _ _ _ _ _ _
  case ecall | ebreak | mret | inv => rfl
  all_goals exact operandsR_eq_fields _ _ _ _ _ _ _

/-- Settles O59: the decoded instruction is well-formed and the word is its encoding. -/
theorem operandsAreTheDecodedFields : Obligations.OperandsAreTheDecodedFields := by
  intro ext w s
  obtain ⟨hw, hwf⟩ := spells_decodeWord ext w
  rw [operandsOf_eq_fields hwf, hw]

/-! ### The fetched word and its instruction (R98, R96) -/

/-- Settles O15: the fetch reads the four bytes that `decode` is given. -/
theorem stepRunsTheFetchedInstruction : Obligations.StepRunsTheFetchedInstruction := by
  intro s i hrun hlo hhi hdecode
  have hi : decodeWord s.cfg.csrExtOps (s.mem.readLE s.pc.toNat .word) = i :=
    congrArg Prod.fst (Except.ok.inj hdecode)
  rw [step_of_pc_in hrun ((inGuestMemory_iff _ _ _).mpr ⟨hlo, hhi⟩), hi]

theorem step_of_fetch {s : State} {w : Word} (hrun : s.run = .running) (hfetch : s.fetch = .ok w) :
    step s = exec (decodeWord s.cfg.csrExtOps w) s := by
  rw [step_running hrun, hfetch]

theorem number_ne_of_not_implemented {csr : CsrNum} (h : ¬ ImplementedCsr csr) (c : Csr) : csr ≠ c.number := by
  rintro rfl
  apply h
  cases c <;> simp [ImplementedCsr, Csr.number]

theorem csrAccessOptional_none {csr : CsrNum} (rd : RegNum) (new : Word → Word) (s : State)
    (h : ∀ c : Csr, csr ≠ c.number) : csrAccessOptional rd csr new s = .next (s.abort .invalidInstruction) := by
  rw [csrAccessOptional, csrAccess_none new s h, ite_self]

/-- A CSR instruction that names none of the four CSRs aborts, with `CSR_EXT_OPS` or without. -/
theorem exec_unimplemented_csr {i : Instr} {csr : CsrNum} (hcsr : csrNumberOf i = some csr)
    (h : ¬ ImplementedCsr csr) (s : State) : exec i s = .next (s.abort .invalidInstruction) := by
  have hne := number_ne_of_not_implemented h
  cases i <;> cases hcsr
  case csrrw rd rs1 => exact csrAccess_none (fun _ => s.reg rs1) s hne
  case csrrs rd rs1 => exact csrAccess_none (fun old => old ||| s.reg rs1) s hne
  case csrrc | csrrwi | csrrsi | csrrci => exact csrAccessOptional_none _ _ _ hne

/-- Settles O18: the word decodes to INV, or to a CSR instruction that finds no CSR. -/
theorem invalidInstructionAborts : Obligations.InvalidInstructionAborts := by
  intro s w hrun hfetch
  rw [step_of_fetch hrun hfetch]
  refine ⟨fun hw => ?_, fun csr hcsr h => exec_unimplemented_csr hcsr h s⟩
  rw [decodeWord_of_not_implemented hw]
  exact exec_inv w s

/-! ### What every instruction does to the pc and the run -/

/-- Settles O21: of the effects that retire, only those of the redirecting instructions leave `pc + 4`. -/
theorem onlyControlTransfersRedirect : Obligations.OnlyControlTransfersRedirect := by
  intro i s t _ hexec hretired hi
  cases effect_of_exec hexec with
  | writesReg rd v d _ hd ht => rw [ht, pc_retire, hd hi, snpc_eq]
  | retires d hd ht => rw [ht, pc_retire, hd hi, snpc_eq]
  | stores ea v n _ _ ht => rw [ht, pc_retire, snpc_eq]
  | writesCsr c v rd w _ _ ht => rw [ht, pc_retire, snpc_eq]
  | aborts reason _ ht => subst t; cases hretired
  | traps hecall _ => subst i; cases hi
  | returns hmret _ => subst i; cases hi
  | halts _ ht => rw [ht, pc_halt]

/-- An effect retires, or it is EBREAK's halt, or it aborts. -/
theorem Effect.run_cases {i : Instr} {s t : State} (he : Effect i s t) :
    (t.run = s.run ∧ t.regs[0] = 0#32)
      ∨ (i = .ebreak ∧ t.run = .halted (s.reg s.cfg.exitReg) s.pc ∧ t.regs[0] = 0#32)
      ∨ (mayAbort i = true ∧ ∃ reason, t = { s with run := .aborted reason s.pc }) := by
  cases he with
  | aborts reason hmay ht => exact .inr (.inr ⟨hmay, reason, ht⟩)
  | halts hi ht => subst t; exact .inr (.inl ⟨hi, run_halt _ _, slot0_retire s s.snpc⟩)
  | _ => subst t; exact .inl ⟨by simp, slot0_retire _ _⟩

/-- Settles O58: every instruction has an effect, and INV's is the abort. -/
theorem everyInstructionGivesANextState : Obligations.EveryInstructionGivesANextState := by
  intro i s
  obtain ⟨t, hexec, he⟩ := exec_has_effect i s
  refine ⟨t, hexec, (exec_next_form hexec).cfg_eq, he.run_cases, ?_⟩
  rintro raw rfl
  cases hexec
  rfl

/-! ### Pseudo-instructions (R102) -/

theorem execAll_singleton (i : Instr) (s : State) : execAll [i] s = exec i s := by
  obtain ⟨t, h, -⟩ := exec_form i s
  simp only [execAll, h]

theorem execAll_cons_of_next {i : Instr} {s t : State} (h : exec i s = .next t) (is : List Instr) :
    execAll (i :: is) s = execAll is t := by
  simp only [execAll, h]

/-- Two instructions, the first of which goes on. -/
theorem execAll_pair {i j : Instr} {s t u : State} (hi : exec i s = .next t) (hj : exec j t = .next u) :
    execAll [i, j] s = .next u := by
  rw [execAll_cons_of_next hi, execAll_singleton, hj]

theorem reg_written_self {s : State} {rd : RegNum} (v d : Word) (h : rd ≠ 0#5) :
    ((s.setReg rd v).retire d).reg rd = v := by
  simp [h]

theorem reg_written_of_ne {s : State} {rd r : RegNum} (v d : Word) (h : r ≠ rd) :
    ((s.setReg rd v).retire d).reg r = s.reg r := by
  rw [reg_retire]
  by_contra hne
  exact h (eq_of_reg_setReg_ne hne)

theorem snpc_written (s : State) (rd : RegNum) (v : Word) : ((s.setReg rd v).retire s.snpc).snpc = s.pc + 8#32 := by
  simp [BitVec.add_assoc]

theorem pc_add_parts (s : State) (offset : Word) : s.pc + highPart offset + lowPart offset = s.pc + offset := by
  rw [BitVec.add_assoc, highPart_add_lowPart]

section expansions
variable (s : State)

theorem li_builds {rd : RegNum} (hrd : rd ≠ 0#5) (imm : Word) :
    ∃ t, execAll (Pseudo.li rd imm).expand s = .next t ∧ t.reg rd = imm ∧ (∀ r, r ≠ rd → t.reg r = s.reg r)
      ∧ SameCsrs s t ∧ SameMemory s t := by
  rw [Pseudo.expand]
  split
  · refine ⟨_, (execAll_singleton _ _).trans (exec_addi ..), ?_, fun r hr => reg_written_of_ne _ _ hr,
      ⟨rfl, rfl, rfl, rfl⟩, fun _ => rfl⟩
    rw [reg_written_self _ _ hrd, reg_zero, BitVec.zero_add]
  · refine ⟨_, execAll_pair (exec_lui ..) (exec_addi ..), ?_, fun r hr => ?_, ⟨rfl, rfl, rfl, rfl⟩, fun _ => rfl⟩
    · rw [reg_written_self _ _ hrd, reg_written_self _ _ hrd, highPart_add_lowPart]
    · rw [reg_written_of_ne _ _ hr, reg_written_of_ne _ _ hr]

theorem la_builds {rd : RegNum} (hrd : rd ≠ 0#5) (offset : Word) :
    ∃ t, execAll (Pseudo.la rd offset).expand s = .next t ∧ t.reg rd = s.pc + offset
      ∧ (∀ r, r ≠ rd → t.reg r = s.reg r) ∧ t.pc = s.pc + 8#32 := by
  refine ⟨_, execAll_pair (exec_auipc ..) (exec_addi ..), ?_, fun r hr => ?_, snpc_written ..⟩
  · rw [reg_written_self _ _ hrd, reg_written_self _ _ hrd, pc_add_parts]
  · rw [reg_written_of_ne _ _ hr, reg_written_of_ne _ _ hr]

theorem callFar_goes (offset : Word) :
    ∃ t, execAll (Pseudo.callFar offset).expand s = .next t ∧ t.reg 1#5 = s.pc + 8#32
      ∧ t.pc = (s.pc + offset) &&& 0xFFFFFFFE#32 := by
  refine ⟨_, execAll_pair (exec_auipc ..) (exec_jalr ..), ?_, ?_⟩
  · rw [reg_written_self _ _ (by decide), snpc_written]
  · rw [pc_retire, reg_written_self _ _ (by decide), pc_add_parts]

theorem tailFar_goes (offset : Word) :
    ∃ t, execAll (Pseudo.tailFar offset).expand s = .next t ∧ t.pc = (s.pc + offset) &&& 0xFFFFFFFE#32
      ∧ t.reg 1#5 = s.reg 1#5 := by
  refine ⟨_, execAll_pair (exec_auipc ..) (exec_jalr ..), ?_, ?_⟩
  · rw [pc_retire, reg_written_self _ _ (by decide), pc_add_parts]
  · rw [reg_written_of_ne _ _ (by decide), reg_written_of_ne _ _ (by decide)]

end expansions

/-- Settles O57: `lui` or `auipc` leaves the high part, and the instruction after it adds the low one. -/
theorem expansionsBuildTheirValues : Obligations.ExpansionsBuildTheirValues :=
  fun s => ⟨fun _ imm hrd => li_builds s hrd imm, fun _ offset hrd => la_builds s hrd offset, callFar_goes s,
    tailFar_goes s⟩

end Sys2Proof.Machine
end

section
/-! PROOFS of the family "integer" (40_integer.md): what the computational instructions write, and the words that spell
them. The rules for a register write and for the words of a format serve every instruction of that kind. -/

namespace Sys2Proof.Machine

/-! ### What a retired register write leaves -/

theorem writesRegister_of_next {o : Result} {s : State} {rd : RegNum} {v d : Word}
    (h : o = .next ((s.setReg rd v).retire d)) : WritesRegister o s rd v d :=
  ⟨_, h, fun r => by rw [reg_retire, reg_setReg], rfl, ⟨rfl, rfl, rfl, rfl⟩, fun _ => rfl, rfl, rfl⟩

/-! ### The words of a format spell the instruction they encode -/

theorem decodeWord_of_spells {ext : Bool} {w : Word} {i : Instr} (h : Spells ext w i) : decodeWord ext w = i := by
  obtain ⟨rfl, hwf⟩ := h
  exact decodeWord_encode hwf

section spelled
variable {op : BitVec 7} {funct3 : BitVec 3} {funct7 : BitVec 7} {i : Word → Instr}

theorem spelledByOpcode_of_wordU (henc : ∀ w, encode (i w) = wordU (immU w) (fieldRd w) op)
    (hwf : ∀ ext w, (i w).wf ext = fitsImmU (immU w)) : SpelledByOpcode op i :=
  fun ext w hop => decodeWord_of_spells
    ⟨(henc w).trans (wordU_of_fields hop), (hwf ext w).trans (fitsImmU_immU w)⟩

theorem spelledByFunct3_of_wordI
    (henc : ∀ w, encode (i w) = wordI ((immI w).setWidth 12) (fieldRs1 w) funct3 (fieldRd w) op)
    (hwf : ∀ ext w, (i w).wf ext = fitsImm12 (immI w)) : SpelledByFunct3 op funct3 i :=
  fun ext w hop hf3 => decodeWord_of_spells
    ⟨(henc w).trans (wordI_immI_of_fields hop hf3), (hwf ext w).trans (fitsImm12_immI w)⟩

theorem spelledByFunct7_of_wordR
    (henc : ∀ w, encode (i w) = wordR funct7 (fieldRs2 w) (fieldRs1 w) funct3 (fieldRd w) op)
    (hwf : ∀ ext w, (i w).wf ext = true) : SpelledByFunct7 op funct3 funct7 i :=
  fun ext w hop hf3 hf7 => decodeWord_of_spells ⟨(henc w).trans (wordR_of_fields hop hf3 hf7), hwf ext w⟩

end spelled

/-! ### Upper immediates (R121, R122) -/

/-- Settles O29: both write a register and retire, and U words spell them. -/
theorem upperImmediateInstructions : Obligations.UpperImmediateInstructions :=
  ⟨fun _ _ _ => writesRegister_of_next (exec_lui ..), fun _ _ _ => writesRegister_of_next (exec_auipc ..),
    spelledByOpcode_of_wordU (fun _ => encode_lui ..) (fun _ _ => rfl),
    spelledByOpcode_of_wordU (fun _ => encode_auipc ..) (fun _ _ => rfl)⟩

/-! ### Register and immediate (R123 to R131) -/

/-- Settles O30: each writes a register and retires, and I words spell it; a comparison's truth value is 1 or 0. -/
theorem immediateArithmeticInstructions : Obligations.ImmediateArithmeticInstructions := by
  refine ⟨fun rd rs1 imm s => ⟨?addi, ?slti, ?sltiu, ?xori, ?ori, ?andi⟩,
    spelledByFunct3_of_wordI (fun _ => encode_addi ..) (fun _ _ => rfl),
    spelledByFunct3_of_wordI (fun _ => encode_slti ..) (fun _ _ => rfl),
    spelledByFunct3_of_wordI (fun _ => encode_sltiu ..) (fun _ _ => rfl),
    spelledByFunct3_of_wordI (fun _ => encode_xori ..) (fun _ _ => rfl),
    spelledByFunct3_of_wordI (fun _ => encode_ori ..) (fun _ _ => rfl),
    spelledByFunct3_of_wordI (fun _ => encode_andi ..) (fun _ _ => rfl)⟩
  case addi => exact writesRegister_of_next (exec_addi ..)
  case slti =>
    rw [← truth_ltSigned]
    exact writesRegister_of_next (exec_slti ..)
  case sltiu =>
    rw [← truth_ltUnsigned]
    exact writesRegister_of_next (exec_sltiu ..)
  case xori => exact writesRegister_of_next (exec_xori ..)
  case ori => exact writesRegister_of_next (exec_ori ..)
  case andi => exact writesRegister_of_next (exec_andi ..)

/-- Settles O31: each shift is the arithmetic of its result on exact numbers, and its `imm` slot is read off the shift's
funct7 and amount. -/
theorem immediateShiftInstructions : Obligations.ImmediateShiftInstructions := by
  refine ⟨fun rd rs1 shamt s => ⟨?slli, ?srli, ?srai⟩,
    fun _ _ shamt _ => ⟨shiftSlot_srai shamt, shiftSlot_zero shamt, shiftSlot_zero shamt⟩,
    spelledByFunct7_of_wordR (fun _ => encode_slli ..) (fun _ _ => rfl),
    spelledByFunct7_of_wordR (fun _ => encode_srli ..) (fun _ _ => rfl),
    spelledByFunct7_of_wordR (fun _ => encode_srai ..) (fun _ _ => rfl)⟩
  case slli =>
    rw [← shiftLeft_eq_ofNat]
    exact writesRegister_of_next (exec_slli ..)
  case srli =>
    rw [← shiftRight_eq_ofNat]
    exact writesRegister_of_next (exec_srli ..)
  case srai =>
    rw [← shiftRightArith_eq_ofInt]
    exact writesRegister_of_next (exec_srai ..)

/-! ### Register and register (R132 to R141) -/

/-- Settles O32: each writes a register and retires, and R words spell it; a comparison's truth value is 1 or 0. -/
theorem registerArithmeticInstructions : Obligations.RegisterArithmeticInstructions := by
  refine ⟨fun rd rs1 rs2 s => ⟨?add, ?sub, ?slt, ?sltu, ?xor, ?or, ?and⟩,
    spelledByFunct7_of_wordR (fun _ => encode_add ..) (fun _ _ => rfl),
    spelledByFunct7_of_wordR (fun _ => encode_sub ..) (fun _ _ => rfl),
    spelledByFunct7_of_wordR (fun _ => encode_slt ..) (fun _ _ => rfl),
    spelledByFunct7_of_wordR (fun _ => encode_sltu ..) (fun _ _ => rfl),
    spelledByFunct7_of_wordR (fun _ => encode_xor ..) (fun _ _ => rfl),
    spelledByFunct7_of_wordR (fun _ => encode_or ..) (fun _ _ => rfl),
    spelledByFunct7_of_wordR (fun _ => encode_and ..) (fun _ _ => rfl)⟩
  case add => exact writesRegister_of_next (exec_add ..)
  case sub => exact writesRegister_of_next (exec_sub ..)
  case slt =>
    rw [← truth_ltSigned]
    exact writesRegister_of_next (exec_slt ..)
  case sltu =>
    rw [← truth_ltUnsigned]
    exact writesRegister_of_next (exec_sltu ..)
  case xor => exact writesRegister_of_next (exec_xor ..)
  case or => exact writesRegister_of_next (exec_or ..)
  case and => exact writesRegister_of_next (exec_and ..)

/-- Settles O33: the amount is `src2` modulo 32, and each shift by it is the arithmetic of its result on exact
numbers. -/
theorem registerShiftInstructions : Obligations.RegisterShiftInstructions := by
  refine ⟨fun rd rs1 rs2 s => ⟨?sll, ?srl, ?sra⟩,
    spelledByFunct7_of_wordR (fun _ => encode_sll ..) (fun _ _ => rfl),
    spelledByFunct7_of_wordR (fun _ => encode_srl ..) (fun _ _ => rfl),
    spelledByFunct7_of_wordR (fun _ => encode_sra ..) (fun _ _ => rfl)⟩
  all_goals rw [← shiftAmount_eq]
  case sll =>
    rw [← shiftLeft_eq_ofNat]
    exact writesRegister_of_next (exec_sll ..)
  case srl =>
    rw [← shiftRight_eq_ofNat]
    exact writesRegister_of_next (exec_srl ..)
  case sra =>
    rw [← shiftRightArith_eq_ofInt]
    exact writesRegister_of_next (exec_sra ..)

end Sys2Proof.Machine
end

section
/-! PROOFS of the family "control" (41_control.md): what the jumps write and where they go, when a branch is taken, and
the J, I and B words that spell them. -/

namespace Sys2Proof.Machine

/-! ### JALR's target (R162) -/

/-- JALR's mask is the word whose bit 0 alone is clear. -/
theorem getLsbD_and_jalrMask (x : Word) (k : Nat) :
    (x &&& 0xFFFFFFFE#32).getLsbD k = (x.getLsbD k && !decide (k = 0)) := by
  have hmask : (0xFFFFFFFE#32 : Word) = ~~~1#32 := rfl
  rw [hmask, BitVec.getLsbD_and, BitVec.getLsbD_not, BitVec.getLsbD_one]
  by_cases hk : k < 32
  · simp [hk]
  · rw [BitVec.getLsbD_of_ge x k (by omega), Bool.false_and, Bool.false_and]

/-! ### Taken or not, a branch changes the pc alone (R160) -/

theorem changesOnlyPc_of_next {o : Result} {s : State} {d : Word} (h : o = .next (s.retire d)) :
    ChangesOnlyPc o s d :=
  ⟨_, h, fun _ => reg_retire .., rfl, ⟨rfl, rfl, rfl, rfl⟩, fun _ => rfl, rfl, rfl⟩

/-- The branch's truth value decides the condition `p` of its rule, and the pc is the target where `p` holds. -/
theorem changesOnlyPc_of_branch {o : Result} {s : State} {taken : Bool} {p : Prop} [Decidable p] {imm : Word}
    (h : o = .next (s.retire (if taken then s.pc + imm else s.snpc))) (hp : taken = true ↔ p) :
    ChangesOnlyPc o s (if p then s.pc + imm else s.pc + 4#32) := by
  rw [← snpc_eq, ← ite_congr (propext hp) (fun _ => rfl) (fun _ => rfl)]
  exact changesOnlyPc_of_next h

theorem ltSigned_iff (a b : Word) : ltSigned a b = true ↔ a.toInt < b.toInt := decide_eq_true_iff

theorem ltUnsigned_iff (a b : Word) : ltUnsigned a b = true ↔ a.toNat < b.toNat := decide_eq_true_iff

theorem not_ltSigned_iff (a b : Word) : (!ltSigned a b) = true ↔ a.toInt ≥ b.toInt := by
  rw [Bool.not_eq_true', ← Bool.not_eq_true, ltSigned_iff, not_lt]

theorem not_ltUnsigned_iff (a b : Word) : (!ltUnsigned a b) = true ↔ a.toNat ≥ b.toNat := by
  rw [Bool.not_eq_true', ← Bool.not_eq_true, ltUnsigned_iff, not_lt]

/-! ### The J and B words (R89, R91) -/

section spelled
variable {op : BitVec 7} {funct3 : BitVec 3} {i : Word → Instr}

theorem spelledByOpcode_of_wordJ (henc : ∀ w, encode (i w) = wordJ (immJ w) (fieldRd w) op)
    (hwf : ∀ ext w, (i w).wf ext = fitsImmJ (immJ w)) : SpelledByOpcode op i :=
  fun ext w hop => decodeWord_of_spells
    ⟨(henc w).trans (wordJ_of_fields hop), (hwf ext w).trans (fitsImmJ_immJ w)⟩

theorem spelledByFunct3_of_wordB
    (henc : ∀ w, encode (i w) = wordB (immB w) (fieldRs2 w) (fieldRs1 w) funct3 op)
    (hwf : ∀ ext w, (i w).wf ext = fitsImmB (immB w)) : SpelledByFunct3 op funct3 i :=
  fun ext w hop hf3 => decodeWord_of_spells
    ⟨(henc w).trans (wordB_of_fields hop hf3), (hwf ext w).trans (fitsImmB_immB w)⟩

end spelled

/-! ### The jumps (R161, R162) -/

/-- Settles O37: both write the link and retire to their target, which is the sum itself for JAL and the masked sum for
JALR. -/
theorem jumpInstructions : Obligations.JumpInstructions := by
  refine ⟨fun rd imm s => writesRegister_of_next (exec_jal ..),
    fun rd rs1 imm s => ⟨(s.reg rs1 + imm) &&& 0xFFFFFFFE#32, ?bitZero, fun k hk => ?otherBits,
      writesRegister_of_next (exec_jalr ..)⟩,
    spelledByOpcode_of_wordJ (fun _ => encode_jal ..) (fun _ _ => rfl),
    spelledByFunct3_of_wordI (fun _ => encode_jalr ..) (fun _ _ => rfl)⟩
  case bitZero => rw [getLsbD_and_jalrMask, decide_eq_true rfl, Bool.not_true, Bool.and_false]
  case otherBits => rw [getLsbD_and_jalrMask, decide_eq_false hk.ne', Bool.not_false, Bool.and_true]

/-! ### The branches (R163 to R168) -/

/-- Settles O38: each branch retires to the target its comparison picks, and B words spell it. -/
theorem branchInstructions : Obligations.BranchInstructions :=
  ⟨fun _ _ _ _ =>
    ⟨changesOnlyPc_of_branch (exec_beq ..) beq_iff_eq,
      changesOnlyPc_of_branch (exec_bne ..) bne_iff_ne,
      changesOnlyPc_of_branch (exec_blt ..) (ltSigned_iff ..),
      changesOnlyPc_of_branch (exec_bge ..) (not_ltSigned_iff ..),
      changesOnlyPc_of_branch (exec_bltu ..) (ltUnsigned_iff ..),
      changesOnlyPc_of_branch (exec_bgeu ..) (not_ltUnsigned_iff ..)⟩,
    spelledByFunct3_of_wordB (fun _ => encode_beq ..) (fun _ _ => rfl),
    spelledByFunct3_of_wordB (fun _ => encode_bne ..) (fun _ _ => rfl),
    spelledByFunct3_of_wordB (fun _ => encode_blt ..) (fun _ _ => rfl),
    spelledByFunct3_of_wordB (fun _ => encode_bge ..) (fun _ _ => rfl),
    spelledByFunct3_of_wordB (fun _ => encode_bltu ..) (fun _ _ => rfl),
    spelledByFunct3_of_wordB (fun _ => encode_bgeu ..) (fun _ _ => rfl)⟩

end Sys2Proof.Machine
end

section
/-! PROOFS of the family "loadstore" (42_loadstore.md): what an allowed load or store does, how one that is not allowed
aborts, and the I and S words that spell them. -/

namespace Sys2Proof.Machine

/-! ### Where an access goes through, and where it aborts (R180) -/

theorem accessOk_iff_accessAllowed (s : State) (ea : Word) (n : Width) :
    accessOk s ea n = true ↔ AccessAllowed s ea n.bytes :=
  accessOk_iff s ea n

theorem accessReason_of_misaligned {s : State} {ea : Word} {n : Width} (halign : s.cfg.alignCheck = true)
    (hea : ea.toNat % n.bytes ≠ 0) : accessReason s ea n = .misalignedAccess ea := by
  rw [accessReason, if_pos ((alignFault_iff s ea n).mpr ⟨halign, hea⟩)]

theorem accessReason_of_aligned {s : State} {ea : Word} {n : Width}
    (halign : s.cfg.alignCheck = true → ea.toNat % n.bytes = 0) : accessReason s ea n = .accessFault ea := by
  rw [accessReason, if_neg]
  rw [alignFault_iff]
  exact fun ⟨hcheck, hea⟩ => hea (halign hcheck)

/-- An outcome that aborts with the access's reason wherever the access is not allowed has the two faults in their
order. -/
theorem accessFaults_of_aborts {o : Result} {s : State} {ea : Word} {n : Width}
    (h : ¬ AccessAllowed s ea n.bytes → AbortsWith o s (accessReason s ea n)) : AccessFaults o s ea n.bytes := by
  constructor
  · intro halign hea
    rw [← accessReason_of_misaligned halign hea]
    exact h fun ⟨_, _, haligned⟩ => hea (haligned halign)
  · intro halign hout
    rw [← accessReason_of_aligned halign]
    exact h fun ⟨hlo, hhi, _⟩ => by omega

/-! ### Loads -/

/-- An allowed load writes `rd` with `v`, what its extension makes of the bytes read. -/
theorem writesRegister_of_load {o : Result} {s : State} {rd : RegNum} {ea v : Word} {n : Width}
    {extend : Word → Word} (h : o = load rd ea n extend s) (hok : AccessAllowed s ea n.bytes)
    (hv : extend (s.mem.readLE ea.toNat n) = v) : WritesRegister o s rd v (s.pc + 4#32) := by
  rw [load_eq, if_pos ((accessOk_iff_accessAllowed s ea n).mpr hok), hv] at h
  exact writesRegister_of_next h

theorem accessFaults_of_load {o : Result} {s : State} {rd : RegNum} {ea : Word} {n : Width} {extend : Word → Word}
    (h : o = load rd ea n extend s) : AccessFaults o s ea n.bytes :=
  accessFaults_of_aborts fun hnot => by
    rw [load_eq, if_neg (mt (accessOk_iff_accessAllowed s ea n).mp hnot)] at h
    exact h

theorem sext8_readLE (m : Memory) (a : Nat) : sext8 (m.readLE a .byte) = (m.byte a).signExtend 32 := by
  rw [sext8, Memory.readLE, BitVec.setWidth_setWidth_of_le _ (by decide), BitVec.setWidth_eq]

theorem sext16_readLE (m : Memory) (a : Nat) :
    sext16 (m.readLE a .half) = (m.byte (a + 1) ++ m.byte a).signExtend 32 := by
  rw [sext16, Memory.readLE, BitVec.setWidth_setWidth_of_le _ (by decide), BitVec.setWidth_eq]

/-- Settles O39: LB extends the byte read by its sign, LBU takes the read as it is, and I words spell both. -/
theorem byteLoadInstructions : Obligations.ByteLoadInstructions :=
  ⟨fun _ _ _ _ hok =>
      ⟨writesRegister_of_load (exec_lb ..) hok (sext8_readLE ..), writesRegister_of_load (exec_lbu ..) hok rfl⟩,
    fun _ _ _ _ => ⟨accessFaults_of_load (exec_lb ..), accessFaults_of_load (exec_lbu ..)⟩,
    spelledByFunct3_of_wordI (fun _ => encode_lb ..) (fun _ _ => rfl),
    spelledByFunct3_of_wordI (fun _ => encode_lbu ..) (fun _ _ => rfl)⟩

/-- Settles O40: LH extends the halfword read by its sign, LHU takes the read as it is, and I words spell both. -/
theorem halfwordLoadInstructions : Obligations.HalfwordLoadInstructions :=
  ⟨fun _ _ _ _ hok =>
      ⟨writesRegister_of_load (exec_lh ..) hok (sext16_readLE ..), writesRegister_of_load (exec_lhu ..) hok rfl⟩,
    fun _ _ _ _ => ⟨accessFaults_of_load (exec_lh ..), accessFaults_of_load (exec_lhu ..)⟩,
    spelledByFunct3_of_wordI (fun _ => encode_lh ..) (fun _ _ => rfl),
    spelledByFunct3_of_wordI (fun _ => encode_lhu ..) (fun _ _ => rfl)⟩

/-- Settles O41: LW takes the word read as it is, and I words spell it. -/
theorem wordLoadInstruction : Obligations.WordLoadInstruction :=
  ⟨fun _ _ _ _ hok => writesRegister_of_load (exec_lw ..) hok rfl,
    fun _ _ _ _ => accessFaults_of_load (exec_lw ..),
    spelledByFunct3_of_wordI (fun _ => encode_lw ..) (fun _ _ => rfl)⟩

/-! ### Stores -/

/-- An allowed store leaves its bytes in memory, and no other byte or register changes. -/
theorem storesBytes_of_store {o : Result} {s : State} {ea v : Word} {n : Width} (h : o = store ea n v s)
    (hwf : s.mem.wf = true) (hok : AccessAllowed s ea n.bytes) : StoresBytes o s ea n.bytes v := by
  rw [store_eq, if_pos ((accessOk_iff_accessAllowed s ea n).mpr hok)] at h
  refine ⟨_, h, fun k hk => ?written, fun a ha => ?kept, fun _ => reg_retire .., rfl, ⟨rfl, rfl, rfl, rfl⟩, rfl, rfl⟩
  case written => rw [mem_retire, byte_writeBytes hwf, if_pos (by omega), Nat.add_sub_cancel_left]
  case kept => rw [mem_retire, byte_writeBytes hwf, if_neg (by omega)]

theorem accessFaults_of_store {o : Result} {s : State} {ea v : Word} {n : Width} (h : o = store ea n v s) :
    AccessFaults o s ea n.bytes :=
  accessFaults_of_aborts fun hnot => by
    rw [store_eq, if_neg (mt (accessOk_iff_accessAllowed s ea n).mp hnot)] at h
    exact h

theorem spelledByFunct3_of_wordS {op : BitVec 7} {funct3 : BitVec 3} {i : Word → Instr}
    (henc : ∀ w, encode (i w) = wordS (immS w) (fieldRs2 w) (fieldRs1 w) funct3 op)
    (hwf : ∀ ext w, (i w).wf ext = fitsImm12 (immS w)) : SpelledByFunct3 op funct3 i :=
  fun ext w hop hf3 => decodeWord_of_spells
    ⟨(henc w).trans (wordS_of_fields hop hf3), (hwf ext w).trans (fitsImm12_immS w)⟩

/-- Settles O42: each store writes the bytes of its width where the access is allowed, and S words spell it. -/
theorem storeInstructions : Obligations.StoreInstructions :=
  ⟨fun _ _ _ _ hwf =>
      ⟨storesBytes_of_store (exec_sb ..) hwf, storesBytes_of_store (exec_sh ..) hwf,
        storesBytes_of_store (exec_sw ..) hwf⟩,
    fun _ _ _ _ =>
      ⟨accessFaults_of_store (exec_sb ..), accessFaults_of_store (exec_sh ..), accessFaults_of_store (exec_sw ..)⟩,
    spelledByFunct3_of_wordS (fun _ => encode_sb ..) (fun _ _ => rfl),
    spelledByFunct3_of_wordS (fun _ => encode_sh ..) (fun _ _ => rfl),
    spelledByFunct3_of_wordS (fun _ => encode_sw ..) (fun _ _ => rfl)⟩

end Sys2Proof.Machine
end

section
/-! PROOFS of the family "muldiv" (43_muldiv.md): the halves of a product, quotient and remainder with their corner
rows, and the R words that spell them. -/

namespace Sys2Proof.Machine

/-! ### The products (R200 to R204) -/

theorem ofInt_toInt_mul (a b : Word) : BitVec.ofInt 32 (a.toInt * b.toInt) = a * b := by
  rw [BitVec.ofInt_mul, BitVec.ofInt_toInt, BitVec.ofInt_toInt]

/-- The unsigned high half in the arithmetic of natural numbers, which R204 states it in. -/
theorem highHalf_product_natCast (m n : Nat) :
    highHalf (product ((m : Int) * (n : Int))) = BitVec.ofNat 32 (m * n / 2 ^ 32) := by
  rw [highHalf_product, ← BitVec.ofInt_natCast]
  push_cast
  rfl

/-- Settles O34: each writes a half of an exact product and retires, and R words spell it. -/
theorem multiplyInstructions : Obligations.MultiplyInstructions := by
  refine ⟨fun rd rs1 rs2 s => ⟨?mul, ?mulh, ?mulhsu, ?mulhu⟩,
    spelledByFunct7_of_wordR (fun _ => encode_mul ..) (fun _ _ => rfl),
    spelledByFunct7_of_wordR (fun _ => encode_mulh ..) (fun _ _ => rfl),
    spelledByFunct7_of_wordR (fun _ => encode_mulhsu ..) (fun _ _ => rfl),
    spelledByFunct7_of_wordR (fun _ => encode_mulhu ..) (fun _ _ => rfl)⟩
  case mul =>
    rw [← ofInt_toInt_mul, ← lowHalf_product]
    exact writesRegister_of_next (exec_mul ..)
  case mulh =>
    rw [← highHalf_product]
    exact writesRegister_of_next (exec_mulh ..)
  case mulhsu =>
    rw [← highHalf_product]
    exact writesRegister_of_next (exec_mulhsu ..)
  case mulhu =>
    rw [← highHalf_product_natCast]
    exact writesRegister_of_next (exec_mulhu ..)

/-! ### Quotients and remainders (R205 to R208) -/

theorem divUnsigned_eq (a b : Word) : divUnsigned a b = if b = 0#32 then 0xFFFFFFFF#32 else a / b := by
  rw [divUnsigned, BitVec.udiv_def]

theorem remUnsigned_eq (a b : Word) : remUnsigned a b = if b = 0#32 then a else a % b := by
  rw [remUnsigned, BitVec.umod_def]

theorem remSigned_eq (a b : Word) : remSigned a b = if b = 0#32 then a
    else if a = 0x80000000#32 ∧ b = 0xFFFFFFFF#32 then 0#32 else BitVec.ofInt 32 (a.toInt.tmod b.toInt) := by
  rw [remSigned, Int.tmod_def]

/-- Settles O35: each writes its quotient or remainder, corner rows included, and retires, and R words spell it. -/
theorem divideInstructions : Obligations.DivideInstructions := by
  refine ⟨fun rd rs1 rs2 s => ⟨?div, ?divu, ?rem, ?remu⟩,
    spelledByFunct7_of_wordR (fun _ => encode_div ..) (fun _ _ => rfl),
    spelledByFunct7_of_wordR (fun _ => encode_divu ..) (fun _ _ => rfl),
    spelledByFunct7_of_wordR (fun _ => encode_rem ..) (fun _ _ => rfl),
    spelledByFunct7_of_wordR (fun _ => encode_remu ..) (fun _ _ => rfl)⟩
  case div => exact writesRegister_of_next (exec_div ..)
  case divu =>
    rw [← divUnsigned_eq]
    exact writesRegister_of_next (exec_divu ..)
  case rem =>
    rw [← remSigned_eq]
    exact writesRegister_of_next (exec_rem ..)
  case remu =>
    rw [← remUnsigned_eq]
    exact writesRegister_of_next (exec_remu ..)

/-! ### Quotient and remainder rebuild the dividend (R209) -/

/-- With a zero divisor the remainder alone is the dividend; in the overflow row the product wraps around to it; in
every other row the identity holds on the exact integers. -/
theorem eq_mul_divSigned_add_remSigned (a b : Word) : a = b * divSigned a b + remSigned a b := by
  rw [remSigned_eq, divSigned]
  split_ifs with hzero hoverflow
  · rw [hzero, BitVec.zero_mul, BitVec.zero_add]
  · obtain ⟨rfl, rfl⟩ := hoverflow
    rfl
  · calc a = BitVec.ofInt 32 (b.toInt * a.toInt.tdiv b.toInt + a.toInt.tmod b.toInt) := by
          rw [Int.mul_tdiv_add_tmod, BitVec.ofInt_toInt]
      _ = b * BitVec.ofInt 32 (a.toInt.tdiv b.toInt) + BitVec.ofInt 32 (a.toInt.tmod b.toInt) := by
          rw [BitVec.ofInt_add, BitVec.ofInt_mul, BitVec.ofInt_toInt]

theorem eq_mul_divUnsigned_add_remUnsigned (a b : Word) : a = b * divUnsigned a b + remUnsigned a b := by
  rw [divUnsigned, remUnsigned]
  split_ifs with hzero
  · rw [hzero, BitVec.zero_mul, BitVec.zero_add]
  · calc a = BitVec.ofNat 32 (b.toNat * (a.toNat / b.toNat) + a.toNat % b.toNat) := by
          rw [Nat.div_add_mod, BitVec.ofNat_toNat, BitVec.setWidth_eq]
      _ = b * BitVec.ofNat 32 (a.toNat / b.toNat) + BitVec.ofNat 32 (a.toNat % b.toNat) := by
          rw [BitVec.ofNat_add, BitVec.ofNat_mul, BitVec.ofNat_toNat, BitVec.setWidth_eq]

/-- A destination other than `x0` reads what was written to it. -/
theorem reg_of_next_written {o : Result} {s t : State} {rd : RegNum} {v d : Word} (hrd : rd ≠ 0#5)
    (ho : o = .next ((s.setReg rd v).retire d)) (ht : o = .next t) : t.reg rd = v := by
  cases ho.symm.trans ht
  exact reg_written_self v d hrd

/-- Settles O36: what is read from `rd` is the quotient and the remainder, and those rebuild the dividend. -/
theorem quotientAndRemainderRebuildTheDividend : Obligations.QuotientAndRemainderRebuildTheDividend := by
  intro rd rs1 rs2 s q r q' r' hrd hdiv hrem hdivu hremu
  rw [reg_of_next_written hrd (exec_div ..) hdiv, reg_of_next_written hrd (exec_rem ..) hrem,
    reg_of_next_written hrd (exec_divu ..) hdivu, reg_of_next_written hrd (exec_remu ..) hremu]
  exact ⟨eq_mul_divSigned_add_remSigned .., eq_mul_divUnsigned_add_remUnsigned ..⟩

end Sys2Proof.Machine
end

section
/-! PROOFS of the family "system" (44_system.md): what FENCE, ECALL, EBREAK, MRET, the CSR instructions and INV do, and
the words that spell them. -/

namespace Sys2Proof.Machine

/-! ### FENCE (R221) -/

/-- Settles O46: FENCE retires at `pc + 4`, and its word keeps the ignored fields. -/
theorem fenceInstruction : Obligations.FenceInstruction :=
  ⟨fun _ _ _ _ _ _ => changesOnlyPc_of_next (exec_fence ..),
    fun _ _ hop hf3 => decodeWord_of_spells ⟨(encode_fence ..).trans (wordI_fence_of_fields hop hf3), rfl⟩⟩

/-! ### ECALL (R231, R265 to R268) -/

theorem ecallReturn_eq (s : State) :
    s.ecallReturn = if s.reg s.cfg.yieldReg = s.cfg.yieldSentinel then s.pc + 4#32 else s.pc := by
  simp only [State.ecallReturn, State.yields, beq_iff_eq, snpc_eq]

theorem trapEventOf_ecall (s : State) : trapEventOf .ecall s =
    if s.reg s.cfg.yieldReg = s.cfg.yieldSentinel then .yield else .syscall := by
  simp only [trapEventOf, classifyTrap, true_and, if_true]

/-- Settles O47: the next state is the trap entry with the return address of R266, and the configuration gives the
cause, the register and the sentinel. -/
theorem ecallInstruction : Obligations.EcallInstruction := by
  refine ⟨fun s => ⟨s.trapEntry s.cfg.ecallCause s.ecallReturn, exec_ecall s, ecallReturn_eq s, rfl, rfl, rfl, rfl,
    fun _ => reg_trapEntry .., slot0_retire .., fun _ => rfl, rfl, rfl, trapEventOf_ecall s,
    fun hcfg => ⟨?cause, ?epc⟩⟩, fun _ => decodeWord_of_spells ⟨rfl, rfl⟩⟩
  case cause => rw [mcause_trapEntry, hcfg, Config.reference]
  case epc => rw [mepc_trapEntry, ecallReturn_eq, hcfg, Config.reference]

/-! ### EBREAK (R232) -/

/-- Settles O48: the next state is the halt with the value of `EXIT_REG`, which is `x10` in the reference
configuration. -/
theorem ebreakInstruction : Obligations.EbreakInstruction := by
  refine ⟨fun s => ⟨s.halt (s.reg s.cfg.exitReg), exec_ebreak s, rfl, rfl, fun _ => reg_halt .., ⟨rfl, rfl, rfl, rfl⟩,
    fun _ => rfl, rfl, fun hcfg => ?code⟩, fun _ => decodeWord_of_spells ⟨rfl, rfl⟩⟩
  case code => rw [run_halt, hcfg, Config.reference]

/-! ### MRET (R233) -/

/-- The source's four steps on `mstatus` are one closed form: the mask clears bits 3, 7, 11 and 12, MPIE moves down to
MIE, and MPIE is set. -/
theorem mretStatus_eq (w : Word) :
    mretStatus w = (w &&& ~~~0x00001888#32) ||| ((w >>> 4) &&& 0x00000008#32) ||| 0x00000080#32 := by
  apply BitVec.eq_of_getLsbD_eq
  intro k hk
  rw [getLsbD_mretStatus]
  interval_cases k <;> simp

/-- Settles O49: the next state is the trap's return, and each bit of its `mstatus` is known. -/
theorem mretInstruction : Obligations.MretInstruction :=
  ⟨fun s => ⟨s.trapReturn, exec_mret s, mretStatus_eq s.mstatus, getLsbD_mretStatus s.mstatus 3,
    getLsbD_mretStatus s.mstatus 7, getLsbD_mretStatus s.mstatus 11, getLsbD_mretStatus s.mstatus 12,
    fun k h3 h7 h11 h12 => (getLsbD_mretStatus s.mstatus k).trans (by rw [if_neg h3, if_neg h7, if_neg h11, if_neg h12]),
    rfl, rfl, rfl, rfl, fun _ => reg_trapReturn .., fun _ => rfl, rfl, rfl⟩,
    fun _ => decodeWord_of_spells ⟨rfl, rfl⟩⟩

/-! ### The CSR instructions (R234 to R240) -/

/-- A number and a value that belong together are those of one of the four CSRs. -/
theorem exists_csr_of_value {s : State} {csr : CsrNum} {old : Word}
    (h : (csr = 0x300#12 ∧ old = s.mstatus) ∨ (csr = 0x305#12 ∧ old = s.mtvec) ∨ (csr = 0x341#12 ∧ old = s.mepc)
      ∨ (csr = 0x342#12 ∧ old = s.mcause)) : ∃ c : Csr, csr = c.number ∧ old = s.readCsr c := by
  obtain h | h | h | h := h
  · exact ⟨.mstatus, h⟩
  · exact ⟨.mtvec, h⟩
  · exact ⟨.mepc, h⟩
  · exact ⟨.mcause, h⟩

theorem accessesCsr_of_csrAccess {o : Result} {s : State} {rd : RegNum} {csr : CsrNum} {new : Word → Word}
    (h : o = csrAccess rd csr new s) : AccessesCsr o s rd csr new := by
  intro old hold
  obtain ⟨c, rfl, rfl⟩ := exists_csr_of_value hold
  rw [csrAccess_some new s rfl] at h
  refine ⟨_, h, fun r => by rw [reg_retire, reg_setReg, reg_writeCsr], rfl, ?_⟩
  cases c <;> exact ⟨rfl, rfl, rfl, rfl, fun _ => rfl, rfl, rfl⟩

theorem csrAccessOptional_of_csrExtOps {s : State} (h : s.cfg.csrExtOps = true) (rd : RegNum) (csr : CsrNum)
    (new : Word → Word) : csrAccessOptional rd csr new s = csrAccess rd csr new s := by
  rw [csrAccessOptional, if_pos h]

/-- An optional CSR instruction aborts without `CSR_EXT_OPS`, and with it where its number names no CSR. -/
theorem abortsWith_of_csrAccessOptional {o : Result} {s : State} {rd : RegNum} {csr : CsrNum} {new : Word → Word}
    (h : s.cfg.csrExtOps = false ∨ ¬ ImplementedCsr csr) (ho : o = csrAccessOptional rd csr new s) :
    AbortsWith o s .invalidInstruction := by
  rw [ho]
  obtain hext | hcsr := h
  · rw [csrAccessOptional, hext]
    rfl
  · exact csrAccessOptional_none rd new s (number_ne_of_not_implemented hcsr)

section spelled
variable {op : BitVec 7} {funct3 : BitVec 3} {i : Word → Instr}

/-- A CSR word holds the number in its upper 12 bits, and a register or `uimm` in the bits of rs1. -/
theorem spelledByFunct3_of_wordCsr
    (henc : ∀ w, encode (i w) = wordI (fieldCsr w) (fieldRs1 w) funct3 (fieldRd w) op)
    (hwf : ∀ ext w, (i w).wf ext = true) : SpelledByFunct3 op funct3 i :=
  fun ext w hop hf3 => decodeWord_of_spells ⟨(henc w).trans (wordI_of_fields hop hf3), hwf ext w⟩

/-- Without `CSR_EXT_OPS` the opcode map has no SYSTEM word with a funct3 other than those of the privileged words,
CSRRW and CSRRS. -/
theorem implementedWord_false_of_optional {w : Word} (hop : w.extractLsb' 0 7 = 0b1110011#7)
    (hf3 : w.extractLsb' 12 3 = funct3) (h : funct3 ∉ [0b000#3, 0b001#3, 0b010#3]) :
    implementedWord false w = false := by
  subst hf3
  simp only [List.mem_cons, List.not_mem_nil, or_false, not_or] at h
  obtain ⟨h0, h1, h2⟩ := h
  have hne (v : Word) (hv : v.extractLsb' 12 3 = 0b000#3) : w ≠ v := fun hw => h0 (hw ▸ hv)
  simp [implementedWord_system hop, h1, h2, hne 0x00000073#32 rfl, hne 0x00100073#32 rfl, hne 0x30200073#32 rfl]

theorem spelledWithExtOps_of_wordCsr
    (henc : ∀ w, encode (i w) = wordI (fieldCsr w) (fieldRs1 w) funct3 (fieldRd w) 0b1110011#7)
    (hwf : ∀ w, (i w).wf true = true) (h : funct3 ∉ [0b000#3, 0b001#3, 0b010#3]) : SpelledWithExtOps funct3 i :=
  fun w hop hf3 => ⟨decodeWord_of_spells ⟨(henc w).trans (wordI_of_fields hop hf3), hwf w⟩,
    decodeWord_of_not_implemented (implementedWord_false_of_optional hop hf3 h)⟩

end spelled

/-- Settles O51: both are a CSR access, which aborts where the number names no CSR. -/
theorem csrReadWriteInstructions : Obligations.CsrReadWriteInstructions :=
  ⟨fun _ _ _ s => ⟨accessesCsr_of_csrAccess (exec_csrrw ..), accessesCsr_of_csrAccess (exec_csrrs ..),
      fun h => ⟨exec_unimplemented_csr rfl h s, exec_unimplemented_csr rfl h s⟩⟩,
    spelledByFunct3_of_wordCsr (fun _ => encode_csrrw ..) (fun _ _ => rfl),
    spelledByFunct3_of_wordCsr (fun _ => encode_csrrs ..) (fun _ _ => rfl)⟩

/-- Settles O52: `CSR_EXT_OPS` gates the four, in their meanings and in the decoder, and with it each is a CSR
access. -/
theorem optionalCsrInstructions : Obligations.OptionalCsrInstructions := by
  refine ⟨fun rd rs1 csr uimm s hext => ?present, fun rd rs1 csr uimm s h => ?absent,
    spelledWithExtOps_of_wordCsr (fun _ => encode_csrrc ..) (fun _ => rfl) (by decide),
    spelledWithExtOps_of_wordCsr (fun _ => encode_csrrwi ..) (fun _ => rfl) (by decide),
    spelledWithExtOps_of_wordCsr (fun _ => encode_csrrsi ..) (fun _ => rfl) (by decide),
    spelledWithExtOps_of_wordCsr (fun _ => encode_csrrci ..) (fun _ => rfl) (by decide)⟩
  case present =>
    have access := csrAccessOptional_of_csrExtOps hext rd csr
    exact ⟨accessesCsr_of_csrAccess ((exec_csrrc ..).trans (access _)),
      accessesCsr_of_csrAccess ((exec_csrrwi ..).trans (access _)),
      accessesCsr_of_csrAccess ((exec_csrrsi ..).trans (access _)),
      accessesCsr_of_csrAccess ((exec_csrrci ..).trans (access _))⟩
  case absent =>
    exact ⟨abortsWith_of_csrAccessOptional h (exec_csrrc ..), abortsWith_of_csrAccessOptional h (exec_csrrwi ..),
      abortsWith_of_csrAccessOptional h (exec_csrrsi ..), abortsWith_of_csrAccessOptional h (exec_csrrci ..)⟩

/-! ### INV (R241) -/

/-- Settles O53: INV is the abort itself, and the opcode map implements neither the all-zero nor the all-ones word. -/
theorem invInstruction : Obligations.InvInstruction :=
  ⟨exec_inv, rfl, fun _ => ⟨decodeWord_of_not_implemented rfl, decodeWord_of_not_implemented rfl⟩⟩

end Sys2Proof.Machine
end

section
/-! PROOFS of the family "exceptions" (60_exceptions.md): what a step call does, what the host reads, what a fatal fault
and `mstatus` leave alone, the return from ECALL, and the outputs of every step. -/

namespace Sys2Proof.Machine

/-! ### The step call (R291) -/

theorem running_or_ended (s : State) : s.run = .running ∨ s.ended = true := by
  rw [State.ended]
  cases s.run with
  | running => exact .inl rfl
  | halted => exact .inr rfl
  | aborted => exact .inr rfl

theorem step_of_ended {s : State} (h : s.ended = true) : ∃ f, step s = .fault f := by
  rw [State.ended] at h
  rw [step]
  cases hrun : s.run with
  | running => rw [hrun] at h; cases h
  | halted => exact ⟨_, rfl⟩
  | aborted => exact ⟨_, rfl⟩

theorem stepN_succ_of_next {s t : State} (h : step s = .next t) (n : Nat) : stepN (n + 1) s = stepN n t := by
  rw [stepN, h]

theorem stepOutputs_succ_of_next {s t : State} (h : step s = .next t) (n : Nat) :
    stepOutputs (n + 1) s = stepOutput s :: stepOutputs n t := by
  rw [stepOutputs, h]

theorem stepN_of_ended {s : State} (h : s.ended = true) (n : Nat) : stepN n s = s := by
  obtain ⟨f, hf⟩ := step_of_ended h
  cases n with
  | zero => rfl
  | succ n => rw [stepN, hf]

theorem stepOutputs_of_ended {s : State} (h : s.ended = true) (n : Nat) : stepOutputs n s = [] := by
  obtain ⟨f, hf⟩ := step_of_ended h
  cases n with
  | zero => rfl
  | succ n => rw [stepOutputs, hf]

/-- Settles O5: a step of an ended run is the machine's Fault, at which a step call stops. -/
theorem endedRunExecutesNothing : Obligations.EndedRunExecutesNothing :=
  fun _ n h => ⟨stepN_of_ended h n, stepOutputs_of_ended h n, step_of_ended h⟩

/-- A call that has stopped is continued by a later one. -/
theorem stepN_add (m n : Nat) (s : State) : stepN (m + n) s = stepN n (stepN m s) := by
  induction m generalizing s with
  | zero => rw [Nat.zero_add, stepN]
  | succ m ih =>
    obtain hrun | hend := running_or_ended s
    · obtain ⟨t, hstep, -⟩ := step_form_of_running hrun
      rw [Nat.succ_add, stepN_succ_of_next hstep, stepN_succ_of_next hstep, ih]
    · simp only [stepN_of_ended hend]

theorem stepOutputs_add (m n : Nat) (s : State) :
    stepOutputs (m + n) s = stepOutputs m s ++ stepOutputs n (stepN m s) := by
  induction m generalizing s with
  | zero => rw [Nat.zero_add, stepOutputs, stepN, List.nil_append]
  | succ m ih =>
    obtain hrun | hend := running_or_ended s
    · obtain ⟨t, hstep, -⟩ := step_form_of_running hrun
      rw [Nat.succ_add, stepOutputs_succ_of_next hstep, stepOutputs_succ_of_next hstep, stepN_succ_of_next hstep, ih,
        List.cons_append]
    · simp only [stepN_of_ended hend, stepOutputs_of_ended hend, List.append_nil]

/-- Settles O6: a running machine has a next state, an ended one executes nothing, and calls add up. -/
theorem stepCallTakesUpToNSteps : Obligations.StepCallTakesUpToNSteps := by
  refine ⟨fun _ => ⟨rfl, rfl⟩, fun n s hrun => ?running, fun n _ h => ⟨stepN_of_ended h n, stepOutputs_of_ended h n⟩,
    fun m n s => ⟨stepN_add m n s, stepOutputs_add m n s⟩⟩
  case running =>
    obtain ⟨t, hstep, -⟩ := step_form_of_running hrun
    exact ⟨t, hstep, stepN_succ_of_next hstep n, stepOutputs_succ_of_next hstep n⟩

/-! ### The host's reads (R290) -/

/-- No name of the register table stands twice, and none means the pc. -/
theorem lookup_registerNames : ∀ p ∈ registerNames,
    ¬ (p.1 = "pc" ∨ p.1 = "$pc") ∧ registerNames.lookup p.1 = some p.2 := by
  decide

theorem hostReadName_register {name : String} {r : RegNum} (h : (name, r) ∈ registerNames) (s : State) :
    hostReadName s name = some (hostReadReg s r) := by
  obtain ⟨hpc, hlookup⟩ := lookup_registerNames _ h
  rw [hostReadName, if_neg hpc, hlookup]
  rfl

theorem hostReadCsr_number (s : State) (c : Csr) : hostReadCsr s c.number = some (s.readCsr c) := by
  rw [hostReadCsr, csrOfNumber_eq_some.mpr rfl, Option.map_some]

theorem hostReadCsr_of_not_implemented (s : State) {n : CsrNum} (h : ¬ ImplementedCsr n) : hostReadCsr s n = none := by
  rw [hostReadCsr, csrOfNumber_eq_none.mpr (number_ne_of_not_implemented h), Option.map_none]

theorem memRead_eq (s : State) (a : Word) (n : Width) : s.memRead a n =
    if s.cfg.memBase.toNat ≤ a.toNat ∧ a.toNat + n.bytes ≤ s.cfg.memBase.toNat + s.cfg.memSize
    then .ok (s.mem.readLE a.toNat n) else .error (.accessFault a) := by
  simp only [State.memRead, inGuestMemory_iff]

/-- Settles O7: each read answers the piece of state that its number or name stands for. -/
theorem hostReadsAnswerTheState : Obligations.HostReadsAnswerTheState :=
  fun s => ⟨rfl, fun _ => rfl, rfl, rfl, fun _ _ h => hostReadName_register h s,
    hostReadCsr_number s .mstatus, hostReadCsr_number s .mtvec, hostReadCsr_number s .mepc, hostReadCsr_number s .mcause,
    fun _ h => hostReadCsr_of_not_implemented s h, rfl, rfl, rfl, rfl, memRead_eq s⟩

/-! ### A fatal fault (R261, R262, R264) -/

theorem isAborted_of_running {s : State} (h : s.run = .running) : s.isAborted = false := by
  rw [State.isAborted, h]

/-- Settles O20: of the forms of a next state only the abort ends the run Aborted. -/
theorem fatalFaultCommitsNothing : Obligations.FatalFaultCommitsNothing := by
  intro s t hrun hstep hab
  cases (step_next_form hstep).2 with
  | aborts reason ht => exact ⟨reason, ht⟩
  | halts code ht => subst t; cases hab
  | _ =>
    subst t
    rw [isAborted_of_running (by simpa using hrun)] at hab
    cases hab

/-! ### `mstatus` gates nothing (R270) -/

section mstatus
variable {s t : State} {m : Word}

theorem next_ite_with_mstatus {c : Bool} {u v : State}
    (h : (if c then .next u else .next v : Result) = .next t) :
    (if c then .next { u with mstatus := m } else .next { v with mstatus := m } : Result)
      = .next { t with mstatus := m } := by
  cases c <;> cases h <;> rfl

theorem load_with_mstatus {rd : RegNum} {ea : Word} {n : Width} {extend : Word → Word}
    (h : load rd ea n extend s = .next t) :
    load rd ea n extend { s with mstatus := m } = .next { t with mstatus := m } := by
  rw [load_eq] at h ⊢
  exact next_ite_with_mstatus h

theorem store_with_mstatus {ea : Word} {n : Width} {v : Word} (h : store ea n v s = .next t) :
    store ea n v { s with mstatus := m } = .next { t with mstatus := m } := by
  rw [store_eq] at h ⊢
  exact next_ite_with_mstatus h

theorem csrAccess_with_mstatus {rd : RegNum} {csr : CsrNum} {new : Word → Word} (hcsr : csr ≠ Csr.mstatus.number)
    (h : csrAccess rd csr new s = .next t) :
    csrAccess rd csr new { s with mstatus := m } = .next { t with mstatus := m } := by
  rw [csrAccess] at h ⊢
  cases hc : csrOfNumber csr with
  | none =>
    rw [hc] at h
    cases h
    rfl
  | some c =>
    rw [hc] at h
    cases h
    cases c
    case mstatus => exact absurd (csrOfNumber_eq_some.mp hc) hcsr
    all_goals rfl

theorem csrAccessOptional_with_mstatus {rd : RegNum} {csr : CsrNum} {new : Word → Word}
    (hcsr : csr ≠ Csr.mstatus.number) (h : csrAccessOptional rd csr new s = .next t) :
    csrAccessOptional rd csr new { s with mstatus := m } = .next { t with mstatus := m } := by
  rw [csrAccessOptional] at h ⊢
  split at h
  · next hext =>
    rw [if_pos hext]
    exact csrAccess_with_mstatus hcsr h
  · next hext =>
    rw [if_neg hext]
    cases h
    rfl

end mstatus

/-- Settles O27: the accesses of memory and of another CSR do not read `mstatus`, and neither does any operand. -/
theorem statusWordInfluencesNothingElse : Obligations.StatusWordInfluencesNothingElse := by
  intro i s t m hmret hcsr h
  cases i
  case mret => exact absurd rfl hmret
  case lb | lh | lw | lbu | lhu => exact load_with_mstatus h
  case sb | sh | sw => exact store_with_mstatus h
  case csrrw rd csr rs1 =>
    exact csrAccess_with_mstatus (new := fun _ => s.reg rs1) (fun e => hcsr (congrArg some e)) h
  case csrrs rd csr rs1 =>
    exact csrAccess_with_mstatus (new := fun old => old ||| s.reg rs1) (fun e => hcsr (congrArg some e)) h
  case csrrc | csrrwi | csrrsi | csrrci =>
    exact csrAccessOptional_with_mstatus (fun e => hcsr (congrArg some e)) h
  all_goals
    cases h
    rfl

/-! ### The return from ECALL (R266, R272) -/

/-- Settles O50: MRET goes to the return address that ECALL recorded, and ECALL left `mstatus` alone. -/
theorem mretReturnsFromEcall : Obligations.MretReturnsFromEcall := by
  intro s t u hecall hmepc hmstatus
  obtain rfl : s.trapEntry s.cfg.ecallCause s.ecallReturn = t := Host.Outcome.next.inj hecall
  refine ⟨u.trapReturn, exec_mret u, ?pc, ?mie, fun _ => reg_trapReturn .., fun _ => rfl⟩
  case pc => rw [pc_trapReturn, hmepc, mepc_trapEntry, ecallReturn_eq]
  case mie => rw [mstatus_trapReturn, getLsbD_mretStatus, if_pos rfl, hmstatus, mstatus_trapEntry]

/-! ### The Trap Event (R268, R269) -/

theorem stepOutput_of_fetch {s : State} {w : Word} (hrun : s.run = .running) (hfetch : s.fetch = .ok w) :
    stepOutput s =
      ⟨trapEventOf (decodeWord s.cfg.csrExtOps w) s, jumpClassOf (decodeWord s.cfg.csrExtOps w) s⟩ := by
  rw [stepOutput, hrun, hfetch]

theorem stepOutput_of_fetch_error {s : State} {reason : AbortReason} (hfetch : s.fetch = .error reason) :
    stepOutput s = ⟨.none, none⟩ := by
  rw [stepOutput, hfetch]
  cases s.run <;> rfl

theorem stepOutput_of_ended {s : State} (h : s.ended = true) : stepOutput s = ⟨.none, none⟩ := by
  rw [State.ended] at h
  rw [stepOutput]
  cases hrun : s.run with
  | running => rw [hrun] at h; cases h
  | halted => rfl
  | aborted => rfl

theorem trapEventOf_of_ne_ecall {i : Instr} (h : i ≠ .ecall) (s : State) : trapEventOf i s = .none := by
  rw [trapEventOf, if_neg h]

theorem decodeWord_eq_ecall_iff (ext : Bool) (w : Word) : decodeWord ext w = .ecall ↔ w = 0x00000073#32 := by
  constructor
  · intro h
    obtain ⟨hw, -⟩ := spells_decodeWord ext w
    rw [← hw, h]
    rfl
  · rintro rfl
    exact decodeWord_of_spells ⟨rfl, rfl⟩

theorem classifyTrap_eq (cfg : Config) (cause v : Word) : classifyTrap cfg cause v =
    if cause = cfg.ecallCause then (if v = cfg.yieldSentinel then .yield else .syscall) else .error cause := by
  rw [classifyTrap]
  by_cases hcause : cause = cfg.ecallCause
  · simp only [hcause, true_and, if_true]
  · simp only [hcause, false_and, if_false]

/-- Settles O54: ECALL has one word, and no other instruction has a Trap Event. -/
theorem trapEventOfEveryStep : Obligations.TrapEventOfEveryStep := by
  refine ⟨classifyTrap_eq, fun s hrun => ⟨fun hfetch => ?ecall, fun hfetch => ?other⟩⟩
  case ecall =>
    rw [stepOutput_of_fetch hrun hfetch, (decodeWord_eq_ecall_iff _ _).mpr rfl, trapEventOf_ecall]
  case other =>
    cases hf : s.fetch with
    | error reason => rw [stepOutput_of_fetch_error hf]
    | ok w =>
      rw [stepOutput_of_fetch hrun hf]
      refine trapEventOf_of_ne_ecall (fun hi => hfetch ?_) s
      rw [hf, (decodeWord_eq_ecall_iff _ _).mp hi]

/-- Settles O55: an ended run has no Trap Event, and a running step has Yield, Syscall or none. -/
theorem noStepOutputsTheErrorEvent : Obligations.NoStepOutputsTheErrorEvent := by
  intro s cause h
  obtain hrun | hend := running_or_ended s
  · obtain ⟨hecall, hother⟩ := trapEventOfEveryStep.2 s hrun
    by_cases hfetch : s.fetch = .ok 0x00000073#32
    · rw [hecall hfetch] at h
      split at h <;> cases h
    · rw [hother hfetch] at h
      cases h
  · rw [stepOutput_of_ended hend] at h
    cases h

/-! ### The classification of the jumps (R297) -/

theorem classifyJump_jal (raReg rd rs1 : RegNum) (imm site target : Word) :
    classifyJump raReg false rd rs1 imm site target = if rd = raReg then .call site target false else .plain := by
  simp only [classifyJump, Bool.false_eq_true, false_and, if_false]

theorem classifyJump_jalr (raReg rd rs1 : RegNum) (imm site target : Word) :
    classifyJump raReg true rd rs1 imm site target = if rd = raReg then .call site target false
      else if rs1 = raReg ∧ imm = 0#32 then .ret site target
      else if rd = 0#5 ∧ imm = 0#32 then .call site target true
      else .plain := by
  simp only [classifyJump, true_and]

theorem jumpClassOf_jal (rd : RegNum) (imm : Word) (s : State) : jumpClassOf (.jal rd imm) s =
    some (classifyJump s.cfg.raReg false rd 0#5 imm s.pc (s.pc + imm)) := rfl

theorem jumpClassOf_jalr (rd rs1 : RegNum) (imm : Word) (s : State) : jumpClassOf (.jalr rd rs1 imm) s =
    some (classifyJump s.cfg.raReg true rd rs1 imm s.pc ((s.reg rs1 + imm) &&& 0xFFFFFFFE#32)) := rfl

theorem jumpClassOf_of_not_jump {i : Instr} (hjal : ∀ rd imm, i ≠ .jal rd imm)
    (hjalr : ∀ rd rs1 imm, i ≠ .jalr rd rs1 imm) (s : State) : jumpClassOf i s = none := by
  cases i
  case jal rd imm => exact absurd rfl (hjal rd imm)
  case jalr rd rs1 imm => exact absurd rfl (hjalr rd rs1 imm)
  all_goals rfl

/-- Settles O56: the target a jump is classified with is the pc of its next state. -/
theorem jumpClassificationOfEveryStep : Obligations.JumpClassificationOfEveryStep := by
  intro s t w hrun hfetch hstep
  rw [step_of_fetch hrun hfetch] at hstep
  rw [stepOutput_of_fetch hrun hfetch]
  refine ⟨fun rd imm hi => ?jal, fun rd rs1 imm hi => ?jalr, fun hjal hjalr => jumpClassOf_of_not_jump hjal hjalr s⟩
  case jal =>
    rw [hi, exec_jal] at hstep
    cases hstep
    rw [hi, jumpClassOf_jal, classifyJump_jal, pc_retire]
  case jalr =>
    rw [hi, exec_jalr] at hstep
    cases hstep
    rw [hi, jumpClassOf_jalr, classifyJump_jalr, pc_retire]

end Sys2Proof.Machine
end

section
/-! PROOFS of the family "reset" (70_reset_and_hazards.md): what a host reset leaves, piece by piece. -/

namespace Sys2Proof.Machine

/-! ### The state a reset answers (R300) -/

/-- An image that Guest Memory holds whole is loaded. -/
theorem hostReset_some_of_in {cfg : Config} {a : Word} {image : List Byte}
    (h : inGuestMemory cfg a image.length = true) (l : Launch) :
    hostReset cfg l image (some a) = some { State.launch cfg l with mem := loadImage l.memInit a.toNat image } :=
  if_pos h

/-! ### The bytes of a loaded image (R300) -/

theorem byte_loadImage_inside {m : Memory} (h : m.wf = true) (a : Nat) {image : List Byte} {k : Nat}
    (hk : k < image.length) : (loadImage m a image).byte (a + k) = image[k] := by
  have hin : a ≤ a + k ∧ a + k - a < image.length := by omega
  rw [byte_loadImage image h, dif_pos hin]
  simp only [Nat.add_sub_cancel_left]

theorem byte_loadImage_outside {m : Memory} (h : m.wf = true) {a b : Nat} {image : List Byte}
    (hb : b < a ∨ a + image.length ≤ b) : (loadImage m a image).byte b = m.byte b := by
  have hout : ¬ (a ≤ b ∧ b - a < image.length) := by omega
  rw [byte_loadImage image h, dif_neg hout]

/-- Settles O1: the registers, the pc and the CSRs are the launch's, and memory is the launch's with the image in it. -/
theorem hostResetSetsEveryPieceOfState : Obligations.HostResetSetsEveryPieceOfState := by
  refine ⟨fun _ _ _ => rfl, fun cfg l image a hwf hlo hhi => ?_⟩
  have hin : inGuestMemory cfg a image.length = true := (inGuestMemory_iff _ _ _).mpr ⟨hlo, hhi⟩
  refine ⟨_, hostReset_some_of_in hin l, ?x0, fun r hr => ?others, rfl, rfl, rfl, rfl, rfl, rfl, rfl,
    fun k hk => byte_loadImage_inside hwf _ hk, fun b hb => byte_loadImage_outside hwf hb, ?reference⟩
  case x0 => exact (reg_launch cfg l 0#5).trans (if_pos rfl)
  case others => exact (reg_launch cfg l r).trans (if_neg hr)
  case reference => exact fun hcfg => hcfg ▸ ⟨rfl, rfl⟩

end Sys2Proof.Machine
end
